-- ==== Sys2Proof/Word.lean ====
section
/-! DEFINITION. The words of the command interface and of the register space (00_scope R11, 20_memory R80). -/

namespace Sys2Proof

/-- An operand, response, register or table word: 64 bits (00_scope R11). -/
abbrev Word := BitVec 64

/-- A command word: 32 bits (30_encoding R110, R111). -/
abbrev CmdWord := BitVec 32

/-- A byte of the sample file or of a byte-wide transport (20_memory R80, R83). -/
abbrev Byte := BitVec 8

/-- The IEEE 754 binary64 bit pattern of a real-valued quantity (00_scope R12, 30_encoding R116). -/
abbrev F64 := BitVec 64

end Sys2Proof
end

