-- ==== Sys2Proof/Machine/Float.lean ====
section
/-! DEFINITION. IEEE 754 binary64 arithmetic on bit patterns, roundTiesToEven, each operation rounded once
(00_scope R12; 92 D6). A finite value is held exactly as an integer count of 2^-1074, the spacing of the
subnormals, so every operation is an exact integer or rational computation followed by one rounding. -/

namespace Sys2Proof

/-- The exponent and fraction fields, bits 62 to 0. -/
def F64.mag (x : F64) : Nat := x.toNat % 2 ^ 63

/-- The sign bit, bit 63. -/
def F64.sign (x : F64) : Bool := decide (2 ^ 63 ≤ x.toNat)

/-- The magnitude field of an infinity: exponent 2047, fraction 0. -/
def F64.infMag : Nat := 0x7FF0000000000000

/-- The pattern with the given sign and magnitude fields. -/
def F64.make (neg : Bool) (m : Nat) : F64 := BitVec.ofNat 64 (if neg then 2 ^ 63 + m else m)

/-- `finite(x)`: every value other than an infinity or a NaN (00_scope R12). -/
def F64.isFinite (x : F64) : Bool := decide (F64.mag x < F64.infMag)

def F64.isInf (x : F64) : Bool := decide (F64.mag x = F64.infMag)

def F64.isNaN (x : F64) : Bool := decide (F64.infMag < F64.mag x)

def F64.zero : F64 := 0x0000000000000000
def F64.negZero : F64 := 0x8000000000000000
def F64.one : F64 := 0x3FF0000000000000
def F64.two : F64 := 0x4000000000000000

/-- The pattern of an invalid operation's result.
DESIGN CHOICE, safe for every state a run reaches, unsafe for others (log entry 4): IEEE 754 leaves the payload open. -/
def F64.nan : F64 := 0x7FF8000000000000

/-- The magnitude with fields `m`, as a count of 2^-1074: subnormals below 2^52, then one binade per exponent. -/
def F64.scale (m : Nat) : Nat :=
  if m < 2 ^ 52 then m else (2 ^ 52 + m % 2 ^ 52) * 2 ^ (m / 2 ^ 52 - 1)

/-- The exact value of a finite pattern as a count of 2^-1074. -/
def F64.scaled (x : F64) : Int :=
  if F64.sign x then -(F64.scale (F64.mag x) : Int) else (F64.scale (F64.mag x) : Int)

/-- The exact rational value of a finite pattern. -/
def F64.toRat (x : F64) : ℚ := (F64.scaled x : ℚ) / 2 ^ 1074

/-- The magnitude fields of `num / den` counts of 2^-1074 rounded to nearest, ties to even; overflow gives infinity. -/
def F64.round (num den : Nat) : Nat :=
  let k := Nat.log2 (num / den) - 52
  let ulp := den * 2 ^ k
  let m := num / ulp
  let r := num % ulp
  let up := decide (ulp < 2 * r) || (decide (2 * r = ulp) && decide (m % 2 = 1))
  min (k * 2 ^ 52 + (if up then m + 1 else m)) F64.infMag

/-- `f64(i)` (00_scope R12). -/
def F64.ofNat (n : Nat) : F64 := F64.make false (F64.round (n * 2 ^ 1074) 1)

def F64.neg (x : F64) : F64 := F64.make (!F64.sign x) (F64.mag x)

/-- `abs(x)` clears the sign (00_scope R12). -/
def F64.abs (x : F64) : F64 := F64.make false (F64.mag x)

/-- `x + y` (00_scope R12). An exact zero sum is +0.0 unless both operands are −0.0. -/
def F64.add (x y : F64) : F64 :=
  if F64.isNaN x || F64.isNaN y then F64.nan
  else if F64.isInf x then
    if F64.isInf y && (F64.sign x != F64.sign y) then F64.nan else x
  else if F64.isInf y then y
  else
    let z := F64.scaled x + F64.scaled y
    if z = 0 then F64.make (F64.sign x && F64.sign y) 0
    else F64.make (decide (z < 0)) (F64.round z.natAbs 1)

/-- `x - y` (00_scope R12). -/
def F64.sub (x y : F64) : F64 := F64.add x (F64.neg y)

/-- `x * y` (00_scope R12). -/
def F64.mul (x y : F64) : F64 :=
  let neg := F64.sign x != F64.sign y
  if F64.isNaN x || F64.isNaN y then F64.nan
  else if F64.isInf x || F64.isInf y then
    if F64.mag x = 0 || F64.mag y = 0 then F64.nan else F64.make neg F64.infMag
  else F64.make neg (F64.round (F64.scale (F64.mag x) * F64.scale (F64.mag y)) (2 ^ 1074))

/-- `x / y` (00_scope R12). -/
def F64.div (x y : F64) : F64 :=
  let neg := F64.sign x != F64.sign y
  if F64.isNaN x || F64.isNaN y then F64.nan
  else if F64.isInf x then
    if F64.isInf y then F64.nan else F64.make neg F64.infMag
  else if F64.isInf y then F64.make neg 0
  else if F64.mag y = 0 then
    if F64.mag x = 0 then F64.nan else F64.make neg F64.infMag
  else F64.make neg (F64.round (F64.scale (F64.mag x) * 2 ^ 1074) (F64.scale (F64.mag y)))

/-- The place of a pattern in the order of the values: −0.0 and +0.0 share 0, the infinities stand at the ends. -/
def F64.ord (x : F64) : Int := if F64.sign x then -(F64.mag x : Int) else (F64.mag x : Int)

/-- `x < y`, false when either is a NaN (00_scope R12). -/
def F64.lt (x y : F64) : Bool :=
  !F64.isNaN x && !F64.isNaN y && decide (F64.ord x < F64.ord y)

/-- `x <= y`, false when either is a NaN (00_scope R12). -/
def F64.le (x y : F64) : Bool :=
  !F64.isNaN x && !F64.isNaN y && decide (F64.ord x ≤ F64.ord y)

/-- `x = y` as values: −0.0 equals +0.0 and a NaN equals nothing (00_scope R12). -/
def F64.eq (x y : F64) : Bool :=
  !F64.isNaN x && !F64.isNaN y && decide (F64.ord x = F64.ord y)

/-- `floor(x)`: the exact mathematical floor of a finite value; R12 gives no floor of an infinity or NaN. -/
def F64.floor (x : F64) : Option Int :=
  if F64.isFinite x then some (F64.scaled x / 2 ^ 1074) else none

/-- `fmod(x, y)`: the exact remainder x − y·trunc(x/y), with the sign of x (00_scope R12; 42 R214). -/
def F64.fmod (x y : F64) : F64 :=
  if F64.isFinite x && F64.isFinite y && decide (F64.mag y ≠ 0) then
    F64.make (F64.sign x) (F64.round (F64.scale (F64.mag x) % F64.scale (F64.mag y)) 1)
  else F64.nan

/-- The magnitude fields of a binary32 pattern as a count of 2^-149, the spacing of its subnormals. -/
def F64.scale32 (m : Nat) : Nat :=
  if m < 2 ^ 23 then m else (2 ^ 23 + m % 2 ^ 23) * 2 ^ (m / 2 ^ 23 - 1)

/-- `f64_of_binary32(u)`, exact for every finite value (20_memory R87). An infinity stays one; a NaN becomes a NaN
(DESIGN CHOICE, safe, log entry 21). -/
def F64.ofBinary32 (u : BitVec 32) : F64 :=
  let neg := decide (2 ^ 31 ≤ u.toNat)
  let m := u.toNat % 2 ^ 31
  if 0x7F800000 < m then F64.nan
  else if m = 0x7F800000 then F64.make neg F64.infMag
  else F64.make neg (F64.round (F64.scale32 m * 2 ^ 925) 1)

end Sys2Proof
end

