-- ==== Sys2Proof/Syntax.lean ====
section
/-! DEFINITION. The commands of the block, one constructor per row of spec/opcode_table.json, with the field values
a command word can carry (30_encoding R111, R114, R123) and the operand words of R115; the frames that carry them
(R110); the agents that issue them (60_exceptions R320); the names of the fault codes (R300) and of the parameter
registers (10_state R38). -/

namespace Sys2Proof

/-- The two agents that issue commands (60_exceptions R320). -/
inductive Agent where
  | render
  | control
  deriving DecidableEq, Repr, Inhabited

/-- A command as it reaches the port: one command word with its operand words, delivered as one unit (30_encoding R110). -/
structure Frame where
  word : CmdWord
  operands : List Word
  deriving DecidableEq, Repr

/-- The seven fatal fault codes, by name (60_exceptions R300). -/
inductive FaultCode where
  | illegalOpcode
  | reservedBits
  | badIndex
  | tagMismatch
  | numeric
  | badOperand
  | frameLength
  deriving DecidableEq, Repr

/-- The six parameter registers of an oscillator, fields 0 to 5 (10_state R38). -/
inductive Param where
  | level
  | numVoices
  | voiceSpread
  | waveIndex
  | sync
  | wavetable
  deriving DecidableEq, Repr

/-- The kinds a register of this block can have, tags 0 to 3 (10_state R38, 30_encoding R129). -/
inductive Kind where
  | int
  | float
  | choice
  | dynamic
  deriving DecidableEq, Repr

/-- The commands. `sl` is SLOT, `j` OSC, `fld` FIELD, `tag` TAG, `t` or `n` IMM (30_encoding R111 to R114);
the 64-bit arguments are the operand words in the order of R115. Field values outside the ranges of R114 are commands
too: the block answers them with fault 0x03 (R112). -/
inductive Instr where
  /-- NOP (R140). -/
  | nop
  /-- RESET (R141). -/
  | reset
  /-- WRPARAM s, j, F, TAG, v (R142). -/
  | wrparam (sl : BitVec 5) (j : BitVec 2) (fld : BitVec 4) (tag : BitVec 3) (v : Word)
  /-- RDPARAM s, j, F (R143). -/
  | rdparam (sl : BitVec 5) (j : BitVec 2) (fld : BitVec 4)
  /-- RDCFG F (R145). -/
  | rdcfg (fld : BitVec 4)
  /-- RDSTATUS (R146). -/
  | rdstatus
  /-- RDSTATE s, j, i (R147). -/
  | rdstate (sl : BitVec 5) (j : BitVec 2) (lane : BitVec 4)
  /-- RDOUT s, j (R148). -/
  | rdout (sl : BitVec 5) (j : BitVec 2)
  /-- TBLBUILD t (R175). -/
  | tblbuild (t : BitVec 12)
  /-- TBLLOAD t, b (R176): the byte length L and the words that carry the bytes (R125). -/
  | tblload (t : BitVec 12) (len : Word) (data : List Word)
  /-- TBLRD t, addr (R178). -/
  | tblrd (t : BitVec 12) (addr : Word)
  /-- TBLINFO t (R179). -/
  | tblinfo (t : BitVec 12)
  /-- PHRST s, j (R221). -/
  | phrst (sl : BitVec 5) (j : BitVec 2)
  /-- OSCSTEP s, j, f, dt (R222). -/
  | oscstep (sl : BitVec 5) (j : BitVec 2) (f dt : Word)
  /-- TRIGGER s (R251). -/
  | trigger (sl : BitVec 5)
  /-- VOICESTEP s, f0, f1, f2, dt (R252). -/
  | voicestep (sl : BitVec 5) (f0 f1 f2 dt : Word)
  /-- PREVIEW s, j, N, f (R253). -/
  | preview (sl : BitVec 5) (j : BitVec 2) (n : BitVec 12) (f : Word)
  deriving DecidableEq, Repr

end Sys2Proof
end

