-- ==== Sys2Proof/Config.lean ====
section
/-! DEFINITION. What an implementation fixes (00_scope R7; 93_implementation_defined sections 1 and 2) and the free
choice of the agents' next block: the literals of the source, each one name that every use goes through, so that the
model is run again with a corrected one by changing its line here (00_scope R10); the choices of the spec; the OPEN
parameters with the constraints of R7. The machine's own configuration is in Machine/Configuration.lean. -/

namespace Sys2Proof

/-! The source's literals (93 section 1) and the constants the spec decides (R7; 93 section 2). -/

/-- NUM_SLOTS. The 5 bits of SLOT name 32; more need a wider field (93 section 1). -/
abbrev Config.numSlots : Nat := 32
/-- NUM_OSC. -/
abbrev Config.numOsc : Nat := 3
/-- MAX_UNISON. -/
abbrev Config.maxUnison : Nat := 7
/-- NUM_OCT. -/
def Config.numOct : Nat := 11
/-- HEADER_LEN. -/
def Config.headerLen : Nat := 4
/-- NUM_DEFAULT_WAVES. -/
def Config.numDefaultWaves : Nat := 4
/-- NUM_TBL. -/
abbrev Config.numTbl : Nat := 8
/-- MAX_WAVES. -/
def Config.maxWaves : Nat := 64
/-- PB_MAX. -/
def Config.pbMax : Nat := 4095

/-- SNAP_LO, the binary64 value of 0.1 (42 R216; 95 section 2.4). -/
def Config.snapLo : F64 := 0x3FB999999999999A
/-- SNAP_HI, the binary64 value of 0.9. -/
def Config.snapHi : F64 := 0x3FECCCCCCCCCCCCD
/-- The mix renormalisation threshold, 1.0 (43 R252; 93 section 1). -/
def Config.mixThreshold : F64 := F64.one
/-- WAVE_INDEX_MAX, 63.0. -/
def Config.waveIndexMax : F64 := 0x404F800000000000

/-- The numbers of a voice slot, of an oscillator in it, of a lane of that, and of a table slot (10_state R30). -/
abbrev SlotNo := Fin Config.numSlots
abbrev OscNo := Fin Config.numOsc
abbrev LaneNo := Fin Config.maxUnison
abbrev TableNo := Fin Config.numTbl

/-- The OPEN parameters of 00_scope R7 and the configuration field GEN_RAW of 41_wavetable R177. `genRaw` lists
GEN_RAW(w, o, n) at place (w*NUM_OCT + o)*P + n; a place beyond its end reads +0.0. -/
structure Params where
  fs : F64
  p : Nat
  f0 : F64
  spreadMax : F64
  genRaw : List F64
  deriving DecidableEq, Repr, Inhabited

/-- The constraints of 00_scope R7 and 93 section 2 on a configuration, but for the tolerance of GEN_RAW, which is
`nearIdeal` in Machine/Generator.lean. -/
def Params.valid (c : Params) : Bool :=
  decide (2 ≤ c.p) && decide (c.p ≤ 65535)
    && F64.isFinite c.fs && F64.lt F64.zero c.fs
    && F64.isFinite c.f0 && F64.lt F64.zero c.f0
    && F64.isFinite c.spreadMax && F64.le F64.zero c.spreadMax
    && c.genRaw.all F64.isFinite
    && decide (4 ≤ Config.maxWaves ∧ Config.maxWaves ≤ 256 ∧ Config.numTbl ≤ 4095)

/-- The reference configuration RC (00_scope R8) with given raw samples: FS 44100.0, P 2048, F0 20.0, SPREAD_MAX 10.0. -/
def Params.rc (genRaw : List F64) : Params where
  fs := 0x40E5888000000000
  p := 2048
  f0 := 0x4034000000000000
  spreadMax := 0x4024000000000000
  genRaw := genRaw

/-- The test configuration TC (00_scope R8) with given raw samples: FS 8000.0, P 8, F0 1000.0, SPREAD_MAX 1000.0. -/
def Params.tc (genRaw : List F64) : Params where
  fs := 0x40BF400000000000
  p := 8
  f0 := 0x408F400000000000
  spreadMax := 0x408F400000000000
  genRaw := genRaw

/-- Which agent takes the lock when both have blocks waiting, at the n-th such choice (60_exceptions R320: the order of
blocks is free). FREE VALUE, safe (log entry 7). -/
opaque Config.grant : Nat → Agent

end Sys2Proof
end

