-- ==== Sys2Proof/WellFormed.lean ====
section
/-! DEFINITION. The field ranges of 30_encoding R114 and the frame length of TBLLOAD (R126), as one check on commands.
A command outside them is answered with a fault (R112, 60_exceptions R313), never with the command's own effect. -/

namespace Sys2Proof

/-- SLOT names a voice slot: at the source's 32 slots every value does (R112). -/
def slotInRange (sl : BitVec 5) : Bool := decide (sl.toNat < Config.numSlots)

/-- OSC names an oscillator. -/
def oscInRange (j : BitVec 2) : Bool := decide (j.toNat < Config.numOsc)

/-- Every field in the range R114 gives it for the command, and a TBLLOAD carries ceil(L/8) words. -/
def Instr.wellFormed : Instr → Bool
  | .nop => true
  | .reset => true
  | .wrparam sl j fld _ _ => slotInRange sl && oscInRange j && decide (fld.toNat ≤ 5)
  | .rdparam sl j fld => slotInRange sl && oscInRange j && decide (fld.toNat ≤ 5)
  | .rdcfg fld => decide (fld.toNat ≤ 14)
  | .rdstatus => true
  | .rdstate sl j lane => slotInRange sl && oscInRange j && decide (lane.toNat < Config.maxUnison)
  | .rdout sl j => slotInRange sl && (j == 3 || oscInRange j)
  | .tblbuild t => decide (t.toNat < Config.numTbl)
  | .tblload t len data =>
    decide (1 ≤ t.toNat) && decide (t.toNat < Config.numTbl) && decide (data.length = (len.toNat + 7) / 8)
  | .tblrd t _ => decide (t.toNat < Config.numTbl)
  | .tblinfo t => decide (t.toNat < Config.numTbl)
  | .phrst sl j => slotInRange sl && oscInRange j
  | .oscstep sl j _ _ => slotInRange sl && oscInRange j
  | .trigger sl => slotInRange sl
  | .voicestep sl _ _ _ _ => slotInRange sl
  | .preview sl j n _ => slotInRange sl && oscInRange j && decide (n.toNat ≤ Config.pbMax)

end Sys2Proof
end

