-- ==== Sys2Proof/Decode.lean ====
section
/-! DEFINITION. The command decoder of 30_encoding R124 (its checks up to the reserved bits: the ranges of R114 are
checked, in the order of 60_exceptions R305, where an operand is resolved, Machine/Operands.lean; log entry 12), the
encoder from the same tables, and the byte-wide transport of 20_memory R80. -/

namespace Sys2Proof

/-- The seventeen assigned opcodes, by mnemonic (30_encoding R123). -/
inductive Op where
  | nop | reset | wrparam | rdparam | rdcfg | rdstatus | rdstate | rdout
  | tblbuild | tblload | tblrd | tblinfo
  | phrst | oscstep
  | trigger | voicestep | preview
  deriving DecidableEq, Repr

/-- The opcode map (30_encoding R123). -/
def Op.code : Op → BitVec 6
  | .nop => 0x00
  | .reset => 0x01
  | .wrparam => 0x02
  | .rdparam => 0x03
  | .rdcfg => 0x04
  | .rdstatus => 0x05
  | .rdstate => 0x06
  | .rdout => 0x07
  | .tblbuild => 0x08
  | .tblload => 0x09
  | .tblrd => 0x0A
  | .tblinfo => 0x0B
  | .phrst => 0x10
  | .oscstep => 0x11
  | .trigger => 0x18
  | .voicestep => 0x19
  | .preview => 0x1A

/-- The command an OP value selects; the other 47 values are unassigned (30_encoding R123, R130 (a)). -/
def opcodeOf (code : BitVec 6) : Option Op :=
  match code.toNat with
  | 0x00 => some .nop
  | 0x01 => some .reset
  | 0x02 => some .wrparam
  | 0x03 => some .rdparam
  | 0x04 => some .rdcfg
  | 0x05 => some .rdstatus
  | 0x06 => some .rdstate
  | 0x07 => some .rdout
  | 0x08 => some .tblbuild
  | 0x09 => some .tblload
  | 0x0A => some .tblrd
  | 0x0B => some .tblinfo
  | 0x10 => some .phrst
  | 0x11 => some .oscstep
  | 0x18 => some .trigger
  | 0x19 => some .voicestep
  | 0x1A => some .preview
  | _ => none

/-- `ZeroMask(op)`: a 1 in every bit of every field R114 lists as zero (30_encoding R124). -/
def zeroMask : Op → CmdWord
  | .nop => 0x03FFFFFF
  | .reset => 0x03FFFFFF
  | .wrparam => 0x00000FFF
  | .rdparam => 0x00007FFF
  | .rdcfg => 0x03F87FFF
  | .rdstatus => 0x03FFFFFF
  | .rdstate => 0x00007FFF
  | .rdout => 0x0007FFFF
  | .tblbuild => 0x03FFF000
  | .tblload => 0x03FFF000
  | .tblrd => 0x03FFF000
  | .tblinfo => 0x03FFF000
  | .phrst => 0x0007FFFF
  | .oscstep => 0x0007FFFF
  | .trigger => 0x001FFFFF
  | .voicestep => 0x001FFFFF
  | .preview => 0x0007F000

/-! The fields of a command word (30_encoding R111, R112). -/

def opField (cw : CmdWord) : BitVec 6 := cw.extractLsb' 26 6
def slotField (cw : CmdWord) : BitVec 5 := cw.extractLsb' 21 5
def oscField (cw : CmdWord) : BitVec 2 := cw.extractLsb' 19 2
def fieldField (cw : CmdWord) : BitVec 4 := cw.extractLsb' 15 4
def tagField (cw : CmdWord) : BitVec 3 := cw.extractLsb' 12 3
def immField (cw : CmdWord) : BitVec 12 := cw.extractLsb' 0 12

/-- ceil(L/8), the number of words that carry a string of L bytes (30_encoding R125). -/
def loadWords (len : Word) : Nat := (len.toNat + 7) / 8

/-- The command that takes no operand word. -/
def exactly0 (i : Instr) : List Word → Option Instr
  | [] => some i
  | _ :: _ => none

/-- The command that takes one operand word. -/
def exactly1 (f : Word → Instr) : List Word → Option Instr
  | [a] => some (f a)
  | _ => none

/-- The command that takes two operand words. -/
def exactly2 (f : Word → Word → Instr) : List Word → Option Instr
  | [a, b] => some (f a b)
  | _ => none

/-- The command that takes four operand words. -/
def exactly4 (f : Word → Word → Word → Word → Instr) : List Word → Option Instr
  | [a, b, c, d] => some (f a b c d)
  | _ => none

/-- The command that takes a byte length and the words that carry so many bytes (30_encoding R125). -/
def exactlyBytes (f : Word → List Word → Instr) : List Word → Option Instr
  | [] => none
  | len :: data => if data.length = loadWords len then some (f len data) else none

/-- The command of an opcode with the fields of `cw` and these operand words; none when their number is not the K of
30_encoding R114, or for TBLLOAD not 1 + ceil(L/8) (60_exceptions R313). -/
def assemble (op : Op) (cw : CmdWord) : List Word → Option Instr :=
  match op with
  | .nop => exactly0 .nop
  | .reset => exactly0 .reset
  | .wrparam => exactly1 (.wrparam (slotField cw) (oscField cw) (fieldField cw) (tagField cw))
  | .rdparam => exactly0 (.rdparam (slotField cw) (oscField cw) (fieldField cw))
  | .rdcfg => exactly0 (.rdcfg (fieldField cw))
  | .rdstatus => exactly0 .rdstatus
  | .rdstate => exactly0 (.rdstate (slotField cw) (oscField cw) (fieldField cw))
  | .rdout => exactly0 (.rdout (slotField cw) (oscField cw))
  | .tblbuild => exactly0 (.tblbuild (immField cw))
  | .tblload => exactlyBytes (.tblload (immField cw))
  | .tblrd => exactly1 (.tblrd (immField cw))
  | .tblinfo => exactly0 (.tblinfo (immField cw))
  | .phrst => exactly0 (.phrst (slotField cw) (oscField cw))
  | .oscstep => exactly2 (.oscstep (slotField cw) (oscField cw))
  | .trigger => exactly0 (.trigger (slotField cw))
  | .voicestep => exactly4 (.voicestep (slotField cw))
  | .preview => exactly1 (.preview (slotField cw) (oscField cw) (immField cw))

/-- The command a frame carries, or the code of the first decode fault, in the order OP, frame length, reserved bits
(30_encoding R124; 60_exceptions R305 steps 2 to 4). -/
def decodeFrame (fr : Frame) : Except FaultCode Instr :=
  match opcodeOf (opField fr.word) with
  | none => .error .illegalOpcode
  | some op =>
    match assemble op fr.word fr.operands with
    | none => .error .frameLength
    | some i => if fr.word &&& zeroMask op ≠ 0 then .error .reservedBits else .ok i

/-! The encoder, from the same tables. -/

/-- A command word from its fields (30_encoding R111). -/
def packWord (op : BitVec 6) (sl : BitVec 5) (j : BitVec 2) (fld : BitVec 4) (tag : BitVec 3) (imm : BitVec 12) :
    CmdWord :=
  op ++ sl ++ j ++ fld ++ tag ++ imm

def Instr.op : Instr → Op
  | .nop => .nop
  | .reset => .reset
  | .wrparam _ _ _ _ _ => .wrparam
  | .rdparam _ _ _ => .rdparam
  | .rdcfg _ => .rdcfg
  | .rdstatus => .rdstatus
  | .rdstate _ _ _ => .rdstate
  | .rdout _ _ => .rdout
  | .tblbuild _ => .tblbuild
  | .tblload _ _ _ => .tblload
  | .tblrd _ _ => .tblrd
  | .tblinfo _ => .tblinfo
  | .phrst _ _ => .phrst
  | .oscstep _ _ _ _ => .oscstep
  | .trigger _ => .trigger
  | .voicestep _ _ _ _ _ => .voicestep
  | .preview _ _ _ _ => .preview

/-- The 32-bit command word of a command (30_encoding R111, R113, R114). A fault records it as FAULTCMD: DEDUCED, safe (log
entry 14). -/
def Instr.word (i : Instr) : CmdWord :=
  match i with
  | .wrparam sl j fld tag _ => packWord i.op.code sl j fld tag 0
  | .rdparam sl j fld => packWord i.op.code sl j fld 0 0
  | .rdcfg fld => packWord i.op.code 0 0 fld 0 0
  | .rdstate sl j lane => packWord i.op.code sl j lane 0 0
  | .rdout sl j => packWord i.op.code sl j 0 0 0
  | .tblbuild t => packWord i.op.code 0 0 0 0 t
  | .tblload t _ _ => packWord i.op.code 0 0 0 0 t
  | .tblrd t _ => packWord i.op.code 0 0 0 0 t
  | .tblinfo t => packWord i.op.code 0 0 0 0 t
  | .phrst sl j => packWord i.op.code sl j 0 0 0
  | .oscstep sl j _ _ => packWord i.op.code sl j 0 0 0
  | .trigger sl => packWord i.op.code sl 0 0 0 0
  | .voicestep sl _ _ _ _ => packWord i.op.code sl 0 0 0 0
  | .preview sl j n _ => packWord i.op.code sl j 0 0 n
  | .nop => packWord i.op.code 0 0 0 0 0
  | .reset => packWord i.op.code 0 0 0 0 0
  | .rdstatus => packWord i.op.code 0 0 0 0 0

/-- The operand words of a command, in order (30_encoding R115). -/
def Instr.operands : Instr → List Word
  | .wrparam _ _ _ _ v => [v]
  | .tblload _ len data => len :: data
  | .tblrd _ addr => [addr]
  | .oscstep _ _ f dt => [f, dt]
  | .voicestep _ f0 f1 f2 dt => [f0, f1, f2, dt]
  | .preview _ _ _ f => [f]
  | .nop | .reset | .rdparam _ _ _ | .rdcfg _ | .rdstatus | .rdstate _ _ _ | .rdout _ _
  | .tblbuild _ | .tblinfo _ | .phrst _ _ | .trigger _ => []

/-- The frame that carries a command. -/
def encode (i : Instr) : Frame := ⟨i.word, i.operands⟩

/-! The pseudo-commands of 30_encoding R133: other spellings of core commands, with no encoding of their own. -/

/-- The ten pseudo-commands (30_encoding R133). -/
inductive Pseudo where
  | setlevel (sl : BitVec 5) (j : BitVec 2) (v : Word)
  | setvoices (sl : BitVec 5) (j : BitVec 2) (n : Word)
  | setspread (sl : BitVec 5) (j : BitVec 2) (d : Word)
  | setwave (sl : BitVec 5) (j : BitVec 2) (x : Word)
  | syncon (sl : BitVec 5)
  | syncoff (sl : BitVec 5)
  | settable (sl : BitVec 5) (j : BitVec 2) (t : Word)
  | rdmix (sl : BitVec 5)
  | step1 (sl : BitVec 5) (j : BitVec 2) (f : Word)
  | vstep1 (sl : BitVec 5) (f0 f1 f2 : Word)
  deriving DecidableEq, Repr

/-- The command a pseudo-command expands to (30_encoding R133); the dt of the last two is 1.0. -/
def Pseudo.expand : Pseudo → Instr
  | .setlevel sl j v => .wrparam sl j 0 1 v
  | .setvoices sl j n => .wrparam sl j 1 0 n
  | .setspread sl j d => .wrparam sl j 2 1 d
  | .setwave sl j x => .wrparam sl j 3 1 x
  | .syncon sl => .wrparam sl 1 4 2 1
  | .syncoff sl => .wrparam sl 1 4 2 0
  | .settable sl j t => .wrparam sl j 5 3 t
  | .rdmix sl => .rdout sl 3
  | .step1 sl j f => .oscstep sl j f F64.one
  | .vstep1 sl f0 f1 f2 => .voicestep sl f0 f1 f2 F64.one

/-! The byte-wide transport: each word least significant byte first (20_memory R80), the length of a command told from
its OP, and for TBLLOAD from its first operand word (30_encoding R126). -/

/-- `MemRead(b, 0, n)` of a string of n bytes: little-endian (20_memory R83). -/
def leNat : List Byte → Nat
  | [] => 0
  | b :: bs => b.toNat + 256 * leNat bs

/-- The `n` lowest bytes of a number, least significant first. -/
def leBytes : Nat → Nat → List Byte
  | 0, _ => []
  | n + 1, v => BitVec.ofNat 8 v :: leBytes n (v / 256)

/-- The bytes of a frame on a byte-wide transport. -/
def frameBytes (fr : Frame) : List Byte :=
  leBytes 4 fr.word.toNat ++ fr.operands.flatMap fun w => leBytes 8 w.toNat

/-- The next `n` 64-bit words of a byte stream and the rest of it; none when it ends before. -/
def takeWords : Nat → List Byte → Option (List Word × List Byte)
  | 0, bs => some ([], bs)
  | n + 1, bs =>
    if bs.length < 8 then none
    else
      match takeWords n (bs.drop 8) with
      | none => none
      | some (ws, rest) => some (BitVec.ofNat 64 (leNat (bs.take 8)) :: ws, rest)

/-- The K of 30_encoding R114; for TBLLOAD only the length word, the rest follows from it. An unassigned OP has K = 0
(R126). -/
def fixedOperands : Option Op → Nat
  | some .wrparam => 1
  | some .tblload => 1
  | some .tblrd => 1
  | some .oscstep => 2
  | some .voicestep => 4
  | some .preview => 1
  | _ => 0

/-- The next frame of a flat byte stream (30_encoding R126); none when the stream ends inside it. -/
def frameOfBytes (bs : List Byte) : Option (Frame × List Byte) :=
  if bs.length < 4 then none
  else
    let cw : CmdWord := BitVec.ofNat 32 (leNat (bs.take 4))
    let op := opcodeOf (opField cw)
    match takeWords (fixedOperands op) (bs.drop 4) with
    | none => none
    | some (ws, rest) =>
      match op, ws with
      | some .tblload, len :: _ =>
        match takeWords (loadWords len) rest with
        | none => none
        | some (data, rest') => some (⟨cw, len :: data⟩, rest')
      | _, _ => some (⟨cw, ws⟩, rest)

/-- Why a byte stream gives no command. -/
inductive Reject where
  /-- The stream ends inside a command: no frame has arrived. DESIGN CHOICE, safe (log entry 17): the port waits for whole
  frames (R110). -/
  | truncated
  /-- The frame decodes to a fault (30_encoding R124). Safe. -/
  | fault (c : FaultCode)
  deriving DecidableEq, Repr

/-- The first command of a byte stream with the rest of the stream, or why there is none. Total on any bytes. -/
def decodeBytes (bs : List Byte) : Except Reject (Instr × List Byte) :=
  match frameOfBytes bs with
  | none => .error .truncated
  | some (fr, rest) =>
    match decodeFrame fr with
    | .error c => .error (.fault c)
    | .ok i => .ok (i, rest)

/-! The opcode table's numbering of bits: bit 0 the least significant of the command word, the operand words above it. -/

/-- The `n` operand words that stand in the bits of `w` from bit `lo` up. -/
def wordsFrom (w : Nat) : Nat → Nat → List Word
  | 0, _ => []
  | n + 1, lo => BitVec.ofNat 64 (w >>> lo) :: wordsFrom w n (lo + 64)

/-- The frame of an instruction whose low `nbits` bits are those of `w` and whose other bits are 0. -/
def tableFrame (nbits w : Nat) : Frame :=
  let v := w % 2 ^ nbits
  let cw : CmdWord := BitVec.ofNat 32 v
  let op := opcodeOf (opField cw)
  match op with
  | some .tblload => ⟨cw, wordsFrom v (1 + loadWords (BitVec.ofNat 64 (v >>> 32))) 32⟩
  | _ => ⟨cw, wordsFrom v (fixedOperands op) 32⟩

/-- The command the decoder reads from an instruction whose bits are `w`, numbered as spec/opcode_table.json does. -/
def decodeTableWord (nbits w : Nat) : Option Instr :=
  match decodeFrame (tableFrame nbits w) with
  | .ok i => some i
  | .error _ => none

end Sys2Proof
end

