-- ==== Sys2Proof/Machine/Memory.lean ====
section
/-! DEFINITION. The words of one table slot (20_memory R71, R73) as a list of (word offset, binary64 word) pairs in one
canonical form: offsets strictly rising, no word equal to what an unlisted offset reads as. Table memory is
word-addressed and has no byte access (R73), so its cells hold words (log entry 19). -/

namespace Sys2Proof.Machine

/-- The words of a table slot, by word offset. -/
abbrev Memory := List (Nat × Word)

/-- What an offset that is not listed reads as: +0.0. DESIGN CHOICE of representation, safe (log entry 11): every offset
a command can read has been written by the TableWriteSlot that made the slot valid, so no command reads an unwritten word. -/
def Memory.unlisted : Word := F64.zero

/-- The word at a word offset. -/
def Memory.read : Memory → Nat → Word
  | [], _ => Memory.unlisted
  | (b, w) :: rest, a => if a = b then w else Memory.read rest a

/-- The canonical contents of a buffer of consecutive words whose first has offset `k`. -/
def Memory.ofWords : Nat → List Word → Memory
  | _, [] => []
  | k, w :: ws => if w = Memory.unlisted then Memory.ofWords (k + 1) ws else (k, w) :: Memory.ofWords (k + 1) ws

/-- Canonical, with every offset at least `lo`. -/
def Memory.wfFrom : Nat → Memory → Bool
  | _, [] => true
  | lo, (b, w) :: rest => decide (lo ≤ b) && decide (w ≠ Memory.unlisted) && Memory.wfFrom (b + 1) rest

/-- The canonical form. -/
def Memory.wf (m : Memory) : Bool := Memory.wfFrom 0 m

end Sys2Proof.Machine
end

