-- ==== Sys2Proof/Machine/Generator.lean ====
section
/-! DEFINITION. The images of table memory: the built-in generator (41_wavetable R170 to R174, R177, R180), peak
normalisation (R172) and the loaded image (R181). An image is the flat buffer of 20_memory R71: waveshape by waveshape,
octave table by octave table, P + 1 words each. -/

namespace Sys2Proof.Machine

/-- The base frequency of octave table o, `Fb(o) = F0 * 2^o` (R171). A power of two scales exactly unless the product
overflows, which gives +infinity, above every frequency (log entry 3). -/
def octaveBase (c : Params) (o : Nat) : F64 := F64.mul c.f0 (F64.ofNat (2 ^ o))

/-- `H(o)`, the harmonic count of octave table o (R173). DEDUCED, safe (log entry 3): where FS / (2 Fb(o)) overflows to
infinity, R173's minimum is its second term. -/
def harmonics (c : Params) (o : Nat) : Nat :=
  match F64.floor (F64.div c.fs (F64.mul F64.two (octaveBase c o))) with
  | some q => min q.toNat ((c.p - 1) / 2)
  | none => (c.p - 1) / 2

/-- `GEN_RAW(w, o, n)` (R177): a configuration field, exactly 0.0 when H(o) = 0. -/
def genRaw (c : Params) (w o n : Nat) : F64 :=
  if harmonics c o = 0 then F64.zero
  else c.genRaw.getD ((w * Config.numOct + o) * c.p + n) F64.zero

/-- The ideal raw sample of R174 at x = 2πn/P, from a sine `sin k` of k*x: waveshape w with harmonics 1 to H. -/
def idealSum {α : Type} [Field α] (w H : Nat) (sin : Nat → α) : α :=
  let odd := (Finset.Icc 1 H).filter (fun k => k % 2 = 1)
  match w with
  | 0 => if 1 ≤ H then sin 1 else 0
  | 1 => ∑ k ∈ odd, (-1) ^ ((k - 1) / 2) * sin k / (k : α) ^ 2
  | 2 => ∑ k ∈ Finset.Icc 1 H, sin k / (k : α)
  | _ => ∑ k ∈ odd, sin k / (k : α)

/-- The constraint of R177 and 93 section 2 on GEN_RAW: every raw sample within 1e−9 of the ideal sum of R174. -/
def nearIdeal (c : Params) : Prop :=
  ∀ w o n : Nat, w < Config.numDefaultWaves → o < Config.numOct → n < c.p →
    |((F64.toRat (genRaw c w o n) : ℚ) : ℝ) -
      idealSum w (harmonics c o) (fun k => Real.sin (k * (2 * Real.pi * n / c.p)))| ≤ 1 / 10 ^ 9

/-- The largest magnitude of a table, +0.0 for an all-zero one (R172). -/
def peak : List F64 → F64
  | [] => F64.zero
  | a :: rest => if F64.lt (peak rest) (F64.abs a) then F64.abs a else peak rest

/-- Peak normalisation (R172): one division each; an all-zero table stays as it is. -/
def normalize (a : List F64) : List F64 :=
  if F64.eq (peak a) F64.zero then a else a.map fun x => F64.div x (peak a)

/-- An octave table from its P samples: normalised, with sample 0 copied to the end as the guard sample (R180, R181). -/
def octaveTable (a : List F64) : List F64 := normalize a ++ (normalize a).take 1

/-- `DefaultSet()`: sine, triangle, saw, square, each in eleven octave tables (R170, R180). -/
def defaultSet (c : Params) : List F64 :=
  (List.range Config.numDefaultWaves).flatMap fun w =>
    (List.range Config.numOct).flatMap fun o =>
      octaveTable ((List.range c.p).map fun n => genRaw c w o n)

/-- `LoadedSet(k, v)`: each waveshape's one normalised table in all eleven octaves (R181). -/
def loadedSet (p k : Nat) (v : List F64) : List F64 :=
  (List.range k).flatMap fun w =>
    (List.replicate Config.numOct (octaveTable ((v.drop (w * p)).take p))).flatten

end Sys2Proof.Machine
end

