-- ==== Sys2Proof/Machine/Configuration.lean ====
section
/-! DEFINITION. A configuration that meets every constraint (00_scope R7; 93_implementation_defined section 2; 41_wavetable
R177), the test configuration TC (00_scope R8) with the reference GEN_RAW of 95_test_vectors section 0, and the machine's
own configuration, which has no known value. -/

namespace Sys2Proof

open Sys2Proof.Machine

/-- Parameters that meet every constraint: those of 00_scope R7 and the tolerance of GEN_RAW (41_wavetable R177). -/
abbrev Params.legal (c : Params) : Prop := c.valid = true ∧ nearIdeal c

/-- A configuration: parameters that meet every constraint, so that others cannot be given to the block (00_scope R7;
60_exceptions R315; for the constraints of 93 section 2 that R7 does not list, log entry 20). -/
structure Config extends Params where
  ok : toParams.valid = true
  near : nearIdeal toParams
  deriving DecidableEq, Repr

/-! The reference raw samples at TC (41_wavetable R177): what RawSample gives with a common libm, n = 0 to 7. -/

def Config.tcSine0 : List F64 :=
  [0, 0x3FE6A09E667F3BCC, 0x3FF0000000000000, 0x3FE6A09E667F3BCD,
    0x3CA1A62633145C07, 0xBFE6A09E667F3BCC, 0xBFF0000000000000, 0xBFE6A09E667F3BCE]
def Config.tcTriangle0 : List F64 :=
  [0x3C878832EEC5D00A, 0x3FE41CFE93FF519A, 0x3FF1C71C71C71C72, 0x3FE41CFE93FF519A,
    0x3C878832EEC5D00A, 0xBFE41CFE93FF5199, 0xBFF1C71C71C71C72, 0xBFE41CFE93FF519C]
def Config.tcTriangle1 : List F64 :=
  [0x3C91A62633145C07, 0x3FE6A09E667F3BCD, 0x3FF0000000000000, 0x3FE6A09E667F3BCD,
    0x3C91A62633145C07, 0xBFE6A09E667F3BCC, 0xBFF0000000000000, 0xBFE6A09E667F3BCE]
def Config.tcSaw0 : List F64 :=
  [0xBCBA79394C9E8A0A, 0x3FF715BEEEFF7D34, 0x3FE5555555555558, 0x3FDC56FBBBFDF4D0,
    0x3CB1A62633145C07, 0xBFDC56FBBBFDF4D0, 0xBFE5555555555552, 0xBFF715BEEEFF7D33]
def Config.tcSaw1 : List F64 :=
  [0xBCB1A62633145C07, 0x3FF3504F333F9DE6, 0x3FF0000000000001, 0x3FCA827999FCEF38,
    0, 0xBFCA827999FCEF2C, 0xBFEFFFFFFFFFFFFD, 0xBFF3504F333F9DEA]
def Config.tcSaw2 : List F64 :=
  [0xBCA1A62633145C07, 0x3FE6A09E667F3BCC, 0x3FF0000000000000, 0x3FE6A09E667F3BCE,
    0x3CB1A62633145C07, 0xBFE6A09E667F3BCB, 0xBFF0000000000000, 0xBFE6A09E667F3BD4]
def Config.tcSquare0 : List F64 :=
  [0, 0x3FEE2B7DDDFEFA66, 0x3FE5555555555556, 0x3FEE2B7DDDFEFA66,
    0x3CB1A62633145C07, 0xBFEE2B7DDDFEFA68, 0xBFE5555555555556, 0xBFEE2B7DDDFEFA68]

/-- The octave tables of each waveshape at TC that have harmonics. -/
def Config.tcWaves : List (List (List F64)) :=
  [[Config.tcSine0, Config.tcSine0, Config.tcSine0],
    [Config.tcTriangle0, Config.tcTriangle1, Config.tcTriangle1],
    [Config.tcSaw0, Config.tcSaw1, Config.tcSaw2],
    [Config.tcSquare0, Config.tcSine0, Config.tcSine0]]

/-- GEN_RAW of TC: all +0.0 in the octaves that have no harmonics. -/
def Config.tcRaw : List F64 :=
  Config.tcWaves.flatMap fun w => (List.range Config.numOct).flatMap fun o => w.getD o (List.replicate 8 0)

/-! They lie within the tolerance: sin(k*2πn/8) is one of 0, ±√2/2, ±1, and √2/2 is near a rational. -/

/-- sin(2πm/8), with `r` for √2/2. -/
def Config.eighth {α : Type} [Field α] (r : α) (m : Nat) : α :=
  [0, r, 1, r, 0, -r, -1, -r].getD (m % 8) 0

/-- A rational near √2/2. -/
def Config.halfSqrt2 : ℚ := 70710678118654752 / 10 ^ 17

theorem Config.sin_eighth (m : Nat) : Real.sin (m * (Real.pi / 4)) = Config.eighth (√2 / 2) m := by
  have hm : (m : ℝ) * (Real.pi / 4) = ((m % 8 : ℕ) : ℝ) * (Real.pi / 4) + ((m / 8 : ℕ) : ℝ) * (2 * Real.pi) := by
    have : (m : ℝ) = ((m % 8 : ℕ) : ℝ) + 8 * ((m / 8 : ℕ) : ℝ) := by exact_mod_cast (Nat.mod_add_div m 8).symm
    linear_combination (Real.pi / 4) * this
  rw [hm, Real.sin_add_nat_mul_two_pi, Config.eighth]
  have h8 : m % 8 < 8 := Nat.mod_lt _ (by decide)
  generalize m % 8 = k at h8
  interval_cases k
  · simp
  · simp
  · rw [show ((2 : ℕ) : ℝ) * (Real.pi / 4) = Real.pi / 2 by push_cast; ring]; simp
  · rw [show ((3 : ℕ) : ℝ) * (Real.pi / 4) = Real.pi - Real.pi / 4 by push_cast; ring, Real.sin_pi_sub]; simp
  · rw [show ((4 : ℕ) : ℝ) * (Real.pi / 4) = Real.pi by push_cast; ring]; simp
  · rw [show ((5 : ℕ) : ℝ) * (Real.pi / 4) = Real.pi / 4 + Real.pi by push_cast; ring, Real.sin_add_pi]; simp
  · rw [show ((6 : ℕ) : ℝ) * (Real.pi / 4) = Real.pi / 2 + Real.pi by push_cast; ring, Real.sin_add_pi]; simp
  · rw [show ((7 : ℕ) : ℝ) * (Real.pi / 4) = -(Real.pi / 4) + 2 * Real.pi by push_cast; ring, Real.sin_add_two_pi,
      Real.sin_neg]; simp

theorem Config.eighth_near (m : Nat) :
    |((Config.eighth Config.halfSqrt2 m : ℚ) : ℝ) - Config.eighth (√2 / 2) m| ≤ 1 / 10 ^ 10 := by
  have h0 : 0 ≤ √2 := Real.sqrt_nonneg 2
  have h2 : √2 * √2 = 2 := Real.mul_self_sqrt (by norm_num)
  have h : |((Config.halfSqrt2 : ℚ) : ℝ) - √2 / 2| ≤ 1 / 10 ^ 10 := by
    rw [abs_le]
    constructor <;> norm_num [Config.halfSqrt2] <;> nlinarith
  have h8 : m % 8 < 8 := Nat.mod_lt _ (by decide)
  unfold Config.eighth
  generalize m % 8 = k at h8
  interval_cases k <;> simp <;> first | simpa using h | (rw [abs_sub_comm] at h; simpa [add_comm, sub_eq_add_neg] using h)

/-- Sums from sines that differ by at most δ differ by at most H * δ. -/
theorem Config.idealSum_near {w H : Nat} {s s' : Nat → ℝ} {δ : ℝ} (h0 : 0 ≤ δ) (h : ∀ k, |s k - s' k| ≤ δ) :
    |idealSum w H s - idealSum w H s'| ≤ H * δ := by
  have key : ∀ (t : Finset Nat) (c : Nat → ℝ), t ⊆ Finset.Icc 1 H → (∀ k ∈ Finset.Icc 1 H, |c k| ≤ 1) →
      |∑ k ∈ t, c k * s k - ∑ k ∈ t, c k * s' k| ≤ H * δ := by
    intro t c ht hc
    rw [← Finset.sum_sub_distrib]
    refine (Finset.abs_sum_le_sum_abs _ _).trans ((Finset.sum_le_card_nsmul _ _ δ fun k hk => ?_).trans ?_)
    · rw [← mul_sub, abs_mul]
      calc |c k| * |s k - s' k| ≤ 1 * δ := mul_le_mul (hc k (ht hk)) (h k) (abs_nonneg _) (by norm_num)
        _ = δ := one_mul _
    · rw [nsmul_eq_mul]
      refine mul_le_mul_of_nonneg_right ?_ h0
      have := Finset.card_le_card ht
      rw [Nat.card_Icc] at this
      exact_mod_cast this
  have hk : ∀ k ∈ Finset.Icc 1 H, (1 : ℝ) ≤ k := fun k hk => by exact_mod_cast (Finset.mem_Icc.mp hk).1
  have hc : ∀ k ∈ Finset.Icc 1 H, |(1 : ℝ) / k| ≤ 1 := fun k h => by
    rw [abs_of_nonneg (by positivity), div_le_one (by linarith [hk k h])]; exact hk k h
  match w with
  | 0 =>
    simp only [idealSum]
    split
    · rename_i hH
      refine (h 1).trans (le_mul_of_one_le_left h0 (by exact_mod_cast hH))
    · simpa using mul_nonneg (Nat.cast_nonneg H) h0
  | 1 =>
    have := key ((Finset.Icc 1 H).filter fun k => k % 2 = 1) (fun k => (-1) ^ ((k - 1) / 2) / (k : ℝ) ^ 2)
      (Finset.filter_subset _ _) fun k h => by
        rw [abs_div, abs_pow, abs_neg, abs_one, one_pow, abs_of_nonneg (by positivity),
          div_le_one (by nlinarith [hk k h])]
        nlinarith [hk k h]
    simpa only [idealSum, div_mul_eq_mul_div] using this
  | 2 =>
    have := key (Finset.Icc 1 H) (fun k => 1 / (k : ℝ)) (Finset.Subset.refl _) hc
    simpa only [idealSum, div_mul_eq_mul_div, one_mul] using this
  | w + 3 =>
    have := key ((Finset.Icc 1 H).filter fun k => k % 2 = 1) (fun k => 1 / (k : ℝ)) (Finset.filter_subset _ _) hc
    simpa only [idealSum, div_mul_eq_mul_div, one_mul] using this

theorem Config.idealSum_cast (w H : Nat) (s : Nat → ℚ) :
    ((idealSum w H s : ℚ) : ℝ) = idealSum w H fun k => (s k : ℝ) := by
  match w with
  | 0 => simp only [idealSum]; split <;> simp
  | 1 => simp [idealSum]
  | 2 => simp [idealSum]
  | w + 3 => simp [idealSum]

theorem Config.tc_harmonics : ∀ o < Config.numOct, harmonics (Params.tc Config.tcRaw) o ≤ 3 := by decide +kernel

theorem Config.tc_raw : ∀ w < Config.numDefaultWaves, ∀ o < Config.numOct, ∀ n < 8,
    |F64.toRat (genRaw (Params.tc Config.tcRaw) w o n) - idealSum w (harmonics (Params.tc Config.tcRaw) o)
      (fun k => Config.eighth Config.halfSqrt2 (k * n))| ≤ 1 / 10 ^ 10 := by decide +kernel

theorem Config.tc_near : nearIdeal (Params.tc Config.tcRaw) := by
  intro w o n hw ho hn
  have hs : ∀ k : Nat, Real.sin (k * (2 * Real.pi * n / (Params.tc Config.tcRaw).p)) =
      Config.eighth (√2 / 2) (k * n) := fun k => by
    rw [← Config.sin_eighth]
    congr 1
    simp only [Params.tc]
    push_cast
    ring
  simp only [hs]
  have h1 : |((F64.toRat (genRaw (Params.tc Config.tcRaw) w o n) : ℚ) : ℝ) -
      idealSum w (harmonics (Params.tc Config.tcRaw) o)
        (fun k => ((Config.eighth Config.halfSqrt2 (k * n) : ℚ) : ℝ))| ≤ 1 / 10 ^ 10 := by
    have h := (Rat.cast_le (K := ℝ)).mpr (Config.tc_raw w hw o ho n hn)
    push_cast at h
    rwa [Config.idealSum_cast] at h
  have h2 := Config.idealSum_near (w := w) (H := harmonics (Params.tc Config.tcRaw) o)
    (s := fun k => ((Config.eighth Config.halfSqrt2 (k * n) : ℚ) : ℝ))
    (s' := fun k => Config.eighth (√2 / 2) (k * n)) (δ := 1 / 10 ^ 10) (by norm_num)
    (fun k => Config.eighth_near (k * n))
  have h3 : (harmonics (Params.tc Config.tcRaw) o : ℝ) ≤ 3 := by exact_mod_cast Config.tc_harmonics o ho
  rw [abs_le] at *
  constructor <;> linarith [h1.1, h1.2, h2.1, h2.2]

/-- TC with the reference GEN_RAW: one configuration that meets every constraint. -/
def Config.tc : Config := { Params.tc Config.tcRaw with ok := by decide +kernel, near := Config.tc_near }

/-- Some configuration, of a type that holds one: nothing is known of it. FREE VALUE, safe (log entries 1 and 2). -/
opaque Config.any [Inhabited Config] : Config

/-- The configuration of the machine at hand: the parameters are OPEN in the spec (00_scope R7), so that nothing is known
of them but their constraints. TC only shows that there is a configuration. -/
def Config.machine : Config := @Config.any ⟨Config.tc⟩

end Sys2Proof
end

