-- ==== Sys2Proof/Machine/State.lean ====
section
/-! DEFINITION. The state of the block (10_state R30), as plain data, its value after reset (R51; 70 R340), and the
command port with the agents behind it (60_exceptions R320; 20_memory R94, R95). -/

namespace Sys2Proof.Machine

/-- Why the machine stops. The block itself never stops (60_exceptions R315); its seven faults of R300 are next states. -/
inductive Fault where
  /-- A read of table memory outside the slot: R72 says a model whose caller breaks TableRead's conditions has a bug,
  not a behaviour, and faults. Raised by `tableRead` and `lookup`. DESIGN CHOICE, safe (log entry 5): only states that
  break the invariants reach it. -/
  | tableRange
  /-- The floor of an infinity or NaN, which 00_scope R12 does not define. Raised by `select` and `lookup`. DESIGN CHOICE,
  safe (log entry 5): only states that break the invariants reach it. -/
  | floorUndefined
  deriving DecidableEq, Repr

/-- Why the machine gives no meaning. -/
inductive Refusal where
  /-- An instruction without a meaning yet. Raised by no arm of this model. Safe. -/
  | notModelled (mnemonic : String)
  /-- A configuration outside the constraints of 00_scope R7, refused before the first command (60_exceptions R315), and
  by the model's choice one outside the other constraints of 93 section 2 (log entry 20). Raised by `powerOn`. Safe. -/
  | badConfiguration
  deriving DecidableEq, Repr

/-- One oscillator (s, j): its lane position file, cycle flag, output register and six parameter registers (R30 (a)). -/
structure Osc where
  /-- POS[s][j][0..6], binary64 (R32). -/
  pos : Vector F64 Config.maxUnison
  /-- CC[s][j] (R35). -/
  cc : Bool
  /-- OUT[s][j], binary64 (R36). -/
  out : F64
  /-- LEVEL[s][j], binary64 (R39). -/
  level : F64
  /-- NUM_VOICES[s][j], i64 (R40). -/
  numVoices : Word
  /-- VOICE_SPREAD[s][j], binary64 (R41). -/
  voiceSpread : F64
  /-- WAVE_INDEX[s][j], binary64 (R42). -/
  waveIndex : F64
  /-- SYNC[s][j], i64 (R43). -/
  sync : Word
  /-- WAVETABLE[s][j], i64 (R44). -/
  wavetable : Word
  deriving DecidableEq, Repr

/-- One voice slot s: three oscillators and the mix register (R30 (a), (b)). -/
structure Slot where
  osc : Vector Osc Config.numOsc
  /-- MIX[s], binary64 (R37). -/
  mix : F64
  deriving DecidableEq, Repr

/-- STATUS by its fields (R45); the reserved bits 11:9 and 31:28 read 0 and hold nothing. -/
structure Status where
  /-- FAULT, bits 7:0. -/
  fault : BitVec 8
  /-- HALTED, bit 8. -/
  halted : Bool
  /-- LOADSTAT, bits 15:12. -/
  loadstat : BitVec 4
  /-- LOADSLOT, bits 27:16. -/
  loadslot : BitVec 12
  /-- FAULTCMD, bits 63:32. -/
  faultcmd : CmdWord
  deriving DecidableEq, Repr

/-- One table slot t: its bookkeeping (R48) and its words (20_memory R71). -/
structure TableSlot where
  tvalid : Bool
  ntab : Nat
  words : Memory
  deriving DecidableEq, Repr

/-- A response: the agent it goes to, the header word and the payload words (30_encoding R110, R120; R316). -/
structure Reply where
  agent : Agent
  header : Word
  payload : List Word
  deriving DecidableEq, Repr

/-- The command port and the agents behind it: the model's own fields, not registers of the block (log entries 6 to 9). -/
structure Port where
  /-- The agent whose block of commands is in progress. -/
  holder : Agent
  /-- The commands of that block still to come, in order. -/
  current : List Frame
  /-- The blocks the render agent has still to issue, in order (60_exceptions R320 (a)). -/
  render : List (List Frame)
  /-- The blocks the control agent has still to issue, in order (60_exceptions R320 (b)). -/
  control : List (List Frame)
  /-- How many free choices between the two agents have been made. -/
  grants : Nat
  /-- The responses sent so far, oldest first. -/
  replies : List Reply
  deriving DecidableEq, Repr

/-- The state (10_state R30): the configuration registers (d), the voice slots (a, b), STATUS and table memory (c), and
the port. -/
structure State where
  cfg : Config
  slots : Vector Slot Config.numSlots
  status : Status
  tables : Vector TableSlot Config.numTbl
  port : Port
  deriving DecidableEq, Repr

/-- An oscillator after reset (R51). -/
def Osc.reset : Osc where
  pos := Vector.replicate Config.maxUnison F64.zero
  cc := false
  out := F64.zero
  level := F64.zero
  numVoices := 1
  voiceSpread := F64.zero
  waveIndex := F64.zero
  sync := 0
  wavetable := 0

/-- A voice slot after reset (R51). -/
def Slot.reset : Slot := ⟨Vector.replicate Config.numOsc Osc.reset, F64.zero⟩

/-- STATUS after reset: all zero (R51). -/
def Status.reset : Status := ⟨0, false, 0, 0, 0⟩

/-- An empty table slot: TVALID 0, NTAB 0, no readable word (R48, R51; log entry 10). -/
def TableSlot.empty : TableSlot := ⟨false, 0, []⟩

/-- A valid slot that holds the k waveshapes of an image (20_memory R76). -/
def TableSlot.holding (img : List F64) (k : Nat) : TableSlot := ⟨true, k, Memory.ofWords 0 img⟩

/-- Table memory after reset: the built-in set in slot 0, the other slots empty (R51; 70 R340). -/
def resetTables (c : Config) : Vector TableSlot Config.numTbl :=
  (Vector.replicate Config.numTbl TableSlot.empty).set 0 (TableSlot.holding (defaultSet c.toParams) Config.numDefaultWaves)

/-- A port at which no agent has issued anything (log entry 9). -/
def Port.idle : Port := ⟨.control, [], [], [], 0, []⟩

/-- The state after the reset sequence under a configuration (70 R340, R341). -/
def State.resetOf (c : Config) : State where
  cfg := c
  slots := Vector.replicate Config.numSlots Slot.reset
  status := Status.reset
  tables := resetTables c
  port := Port.idle

/-- The machine right after power-on (70 R341). -/
def State.reset : State := State.resetOf Config.machine

end Sys2Proof.Machine
end

