-- ==== Sys2Proof/Machine/Flags.lean ====
section
/-! DEFINITION. The cycle flag (10_state R35; 42 R219), the STATUS register (10_state R45) and the header words
(30_encoding R120): every flag and status computation of the block. -/

namespace Sys2Proof.Machine

/-- One flag as a response word: 0 or 1 (30_encoding R120). -/
def flagWord (b : Bool) : Word := if b then 1 else 0

/-- The second response word of VOICESTEP, flag j in bit j: `c0 + 2*c1 + 4*c2` (43 R252). -/
def flagsWord : List Bool → Word
  | [] => 0
  | c :: rest => flagWord c + 2 * flagsWord rest

/-- The cycle flag after one more lane: the OR over the lanes (42 R219, R220). -/
def orCycle (cc wrapped : Bool) : Bool := if wrapped then true else cc

/-- The fault codes (60_exceptions R300). -/
def faultByte : FaultCode → BitVec 8
  | .illegalOpcode => 0x01
  | .reservedBits => 0x02
  | .badIndex => 0x03
  | .tagMismatch => 0x04
  | .numeric => 0x05
  | .badOperand => 0x06
  | .frameLength => 0x07

/-- The header of a command that completed (30_encoding R120). -/
def okHeader : Word := 0x00

/-- The header of a command ignored because the block is halted (30_encoding R120). -/
def ignoredHeader : Word := 0xFF

/-- The header of a command that faulted: the code in bits 7:0, bits 63:8 zero (30_encoding R120). -/
def faultHeader (c : FaultCode) : Word := (faultByte c).zeroExtend 64

/-- STATUS as `RDSTATUS` reads it (10_state R45). -/
def Status.word (st : Status) : Word :=
  st.faultcmd ++ (0 : BitVec 4) ++ st.loadslot ++ st.loadstat ++ (0 : BitVec 3) ++ BitVec.ofBool st.halted ++ st.fault

/-- The three fields a fatal fault writes (60_exceptions R301). -/
def Status.withFault (st : Status) (c : FaultCode) (cw : CmdWord) : Status :=
  { st with fault := faultByte c, halted := true, faultcmd := cw }

/-- The two fields a TBLLOAD writes (41_wavetable R176). -/
def Status.withLoad (st : Status) (code : BitVec 4) (t : BitVec 12) : Status :=
  { st with loadstat := code, loadslot := t }

end Sys2Proof.Machine
end

