-- ==== Sys2Proof/Machine/Ops.lean ====
section
/-! DEFINITION. The named operations over the registers, table memory and the port: the one home of every read and
write. Taking a fault (60_exceptions R301) and the return from the halted state (70 R340) are one operation each. -/

namespace Sys2Proof.Machine

/-- Why a command does not complete. -/
inductive Stop where
  /-- It raises a fatal fault of the block (60_exceptions R300). -/
  | raise (c : FaultCode)
  /-- The model stops: a precondition of the spec's own pseudocode is broken (20_memory R72). -/
  | stuck (f : Fault)
  deriving DecidableEq, Repr

/-! Registers. -/

/-- The registers of oscillator j of slot s. -/
def State.osc (s : State) (sl : SlotNo) (j : OscNo) : Osc := s.slots[sl].osc[j]

/-- `X[s][j] <- v` for the registers of one oscillator. -/
def State.setOsc (s : State) (sl : SlotNo) (j : OscNo) (o : Osc) : State :=
  let v := s.slots[sl]
  { s with slots := s.slots.set sl.val { v with osc := v.osc.set j.val o j.isLt } sl.isLt }

/-- `R.MIX[s]`. -/
def State.mix (s : State) (sl : SlotNo) : F64 := s.slots[sl].mix

/-- `R.MIX[s] <- m`. -/
def State.setMix (s : State) (sl : SlotNo) (m : F64) : State :=
  let v := s.slots[sl]
  { s with slots := s.slots.set sl.val { v with mix := m } sl.isLt }

/-- `R.<field F>[s][j]` (10_state R38). -/
def Osc.param (o : Osc) : Param → Word
  | .level => o.level
  | .numVoices => o.numVoices
  | .voiceSpread => o.voiceSpread
  | .waveIndex => o.waveIndex
  | .sync => o.sync
  | .wavetable => o.wavetable

/-- `R.<field F>[s][j] <- v` (10_state R38). -/
def Osc.setParam (o : Osc) (f : Param) (v : Word) : Osc :=
  match f with
  | .level => { o with level := v }
  | .numVoices => { o with numVoices := v }
  | .voiceSpread => { o with voiceSpread := v }
  | .waveIndex => { o with waveIndex := v }
  | .sync => { o with sync := v }
  | .wavetable => { o with wavetable := v }

/-- Seven lanes at +0.0: a phase reset (42 R221; 43 R251, R252). -/
def zeroLanes : Vector F64 Config.maxUnison := Vector.replicate Config.maxUnison F64.zero

/-- An oscillator after a phase reset: every lane +0.0, all else as it was (42 R221). -/
def Osc.phaseReset (o : Osc) : Osc := { o with pos := zeroLanes }

/-- An oscillator with the results of a step written (42 R222; 43 R252). -/
def Osc.stepped (o : Osc) (pos : Vector F64 Config.maxUnison) (out : F64) (cc : Bool) : Osc :=
  { o with pos := pos, out := out, cc := cc }

/-- `R.STATUS <- st`. -/
def State.setStatus (s : State) (st : Status) : State := { s with status := st }

/-! Table memory. -/

/-- The bookkeeping and words of table slot t. -/
def State.table (s : State) (t : TableNo) : TableSlot := s.tables[t]

/-- `TableWriteSlot(t, img, k)`: the slot is replaced at once (20_memory R76). -/
def State.writeSlot (s : State) (t : TableNo) (img : List F64) (k : Nat) : State :=
  { s with tables := s.tables.set t.val (TableSlot.holding img k) t.isLt }

/-- The word offset of word (w, o, n) in a slot (20_memory R71). -/
def wordOffset (p w o n : Nat) : Nat := (w * Config.numOct + o) * (p + 1) + n

/-- `TableRead(t, w, o, n)` on slot `ts`, under the conditions of 20_memory R72; outside them the model stops. -/
def tableRead (p : Nat) (ts : TableSlot) (w o n : Nat) : Except Stop Word :=
  if ts.tvalid && decide (w < ts.ntab) && decide (o < Config.numOct) && decide (n ≤ p) then
    .ok (ts.words.read (wordOffset p w o n))
  else .error (.stuck .tableRange)

/-- `Resolve(id)`: the slot an id names if that is a valid one, else slot 0 (20_memory R79). A negative i64 is at least
2^63 as an unsigned number. -/
def resolve (tables : Vector TableSlot Config.numTbl) (id : Word) : TableNo :=
  if h : id.toNat < Config.numTbl then
    if tables[id.toNat].tvalid then ⟨id.toNat, h⟩ else 0
  else 0

/-! Responses, faults, reset. -/

/-- `respond`: one response to the agent that issued the command (30_encoding R110, R120; 60_exceptions R316). -/
def State.reply (s : State) (header : Word) (payload : List Word) : State :=
  { s with port := { s.port with replies := s.port.replies ++ [⟨s.port.holder, header, payload⟩] } }

/-- `OnFault(c, cw)`: FAULT, HALTED and FAULTCMD are written and the command answered with header c and no payload;
the state given is the one before the command, so every write of the command is discarded (60_exceptions R301, R306). -/
def State.takeFault (s : State) (c : FaultCode) (cw : CmdWord) : State :=
  (s.setStatus (s.status.withFault c cw)).reply (faultHeader c) []

/-- A frame that reaches a halted block: no effect but header 0xFF (60_exceptions R301). -/
def State.ignore (s : State) : State := s.reply ignoredHeader []

/-- `ResetSequence()`: every register and table slot at its reset value; CFG and the agents' commands are not touched
(70 R340). The only way out of the halted state (60_exceptions R309). -/
def State.resetSequence (s : State) : State := { State.resetOf s.cfg with port := s.port }

/-- The outcome of a command that is executed: what it computed is either all of its effect with its payload, or why it
does not complete (00_scope R13, R15). -/
def settle (cw : CmdWord) (s : State) (r : Except Stop (State × List Word)) : Host.Outcome State Fault Refusal :=
  match r with
  | .ok (t, payload) => .next (t.reply okHeader payload)
  | .error (.raise c) => .next (s.takeFault c cw)
  | .error (.stuck f) => .fault f

/-- The outcome of a command other than RESET and RDSTATUS: ignored while the block is halted (60_exceptions R301,
R305 step 1). -/
def command (cw : CmdWord) (s : State) (r : Except Stop (State × List Word)) : Host.Outcome State Fault Refusal :=
  if s.status.halted then .next s.ignore else settle cw s r

/-- The outcome of a frame that gives no command: ignored while halted, else its decode fault (60_exceptions R305). -/
def State.rejectFrame (s : State) (c : FaultCode) (cw : CmdWord) : State :=
  if s.status.halted then s.ignore else s.takeFault c cw

/-! The port. -/

/-- An agent takes the lock: the next block of the only agent that has one, of either when both have (60_exceptions
R320; 20_memory R95). -/
def Port.acquire (p : Port) : Port :=
  match p.render, p.control with
  | [], [] => p
  | b :: rest, [] => { p with holder := .render, current := b, render := rest }
  | [], b :: rest => { p with holder := .control, current := b, control := rest }
  | b :: rest, b' :: rest' =>
    match Config.grant p.grants with
    | .render => { p with holder := .render, current := b, render := rest, grants := p.grants + 1 }
    | .control => { p with holder := .control, current := b', control := rest', grants := p.grants + 1 }

/-- The next command: of the block in progress while it has one, else of the next block, so that blocks never
interleave (20_memory R95). -/
def Port.fetch (p : Port) : Option Frame × Port :=
  match p.current with
  | fr :: rest => (some fr, { p with current := rest })
  | [] =>
    match p.acquire.current with
    | fr :: rest => (some fr, { p.acquire with current := rest })
    | [] => (none, p.acquire)

/-- Power-on under given parameters: the reset sequence (70 R341), or a refusal of parameters outside the constraints of
00_scope R7 (60_exceptions R315), or outside the rest of 93 section 2 (DESIGN CHOICE, safe, log entry 20). Whether they meet them is a question about real sines,
so that the answer comes with the parameters. -/
def powerOn (c : Params) [Decidable c.legal] : Host.Outcome State Fault Refusal :=
  if h : c.legal then .next (State.resetOf { c with ok := h.1, near := h.2 }) else .refused .badConfiguration

end Sys2Proof.Machine
end

