-- ==== Sys2Proof/Machine/Operands.lean ====
section
/-! DEFINITION. The operand forms: the fields of a command word resolved to the register or slot they name, or fault
0x03 (30_encoding R112, R114); the WRPARAM value (R118; 40 R142, R144); the TBLRD address (R119); the TBLLOAD byte
string (R125). -/

namespace Sys2Proof.Machine

/-- SLOT, 0 to NUM_SLOTS − 1. The check never fails at the source's 32 slots, which the 5 bits name exactly
(30_encoding R112, R124; 93 section 3). -/
def slotIndex (sl : BitVec 5) : Except Stop SlotNo :=
  if h : sl.toNat < Config.numSlots then .ok ⟨sl.toNat, h⟩ else .error (.raise .badIndex)

/-- OSC 0 to NUM_OSC − 1 (30_encoding R114). -/
def oscIndex (j : BitVec 2) : Except Stop OscNo :=
  if h : j.toNat < Config.numOsc then .ok ⟨j.toNat, h⟩ else .error (.raise .badIndex)

/-- The oscillator that SLOT and OSC name (30_encoding R114). -/
def oscAt (sl : BitVec 5) (j : BitVec 2) : Except Stop (SlotNo × OscNo) :=
  match slotIndex sl, oscIndex j with
  | .error e, _ => .error e
  | _, .error e => .error e
  | .ok k, .ok j => .ok (k, j)

/-- FIELD of the P format, 0 to 5 (30_encoding R114; 10_state R38). -/
def paramIndex (fld : BitVec 4) : Except Stop Param :=
  match fld.toNat with
  | 0 => .ok .level
  | 1 => .ok .numVoices
  | 2 => .ok .voiceSpread
  | 3 => .ok .waveIndex
  | 4 => .ok .sync
  | 5 => .ok .wavetable
  | _ => .error (.raise .badIndex)

/-- FIELD of the L format, 0 to MAX_UNISON − 1 (30_encoding R114). -/
def laneIndex (lane : BitVec 4) : Except Stop LaneNo :=
  if h : lane.toNat < Config.maxUnison then .ok ⟨lane.toNat, h⟩ else .error (.raise .badIndex)

/-- IMM as a table slot, 0 to NUM_TBL − 1 (30_encoding R114). -/
def tableIndex (t : BitVec 12) : Except Stop TableNo :=
  if h : t.toNat < Config.numTbl then .ok ⟨t.toNat, h⟩ else .error (.raise .badIndex)

/-- IMM as a slot that may be loaded, 1 to NUM_TBL − 1 (30_encoding R114). -/
def loadIndex (t : BitVec 12) : Except Stop TableNo :=
  if t = 0 then .error (.raise .badIndex) else tableIndex t

/-- IMM as a preview length, 0 to PB_MAX (30_encoding R114, R117). -/
def previewLength (n : BitVec 12) : Except Stop Nat :=
  if n.toNat ≤ Config.pbMax then .ok n.toNat else .error (.raise .badIndex)

/-- `Kind(F)` (40 R144). -/
def kindOf : Param → Kind
  | .level => .float
  | .numVoices => .int
  | .voiceSpread => .float
  | .waveIndex => .float
  | .sync => .choice
  | .wavetable => .dynamic

/-- The ParameterValue tag of a kind (30_encoding R129). -/
def kindTag : Kind → BitVec 3
  | .int => 0
  | .float => 1
  | .choice => 2
  | .dynamic => 3

/-- The tag as a response word (30_encoding R120). -/
def tagWord (k : Kind) : Word := (kindTag k).zeroExtend 64

/-- `ClampF(v, lo, hi)` (40 R144). -/
def clampF (v lo hi : F64) : F64 :=
  if F64.le v lo then lo else if F64.lt hi v then hi else v

/-- `ClampI(i64(v), lo, hi)` (40 R144). -/
def clampI (v : Word) (lo hi : Int) : Word := BitVec.ofInt 64 (min (max v.toInt lo) hi)

/-- The value a WRPARAM of field F stores, or its operand fault (40 R142; order 60_exceptions R305 step 7). -/
def paramValue (c : Config) (f : Param) (v : Word) : Except Stop Word :=
  let finite (w : Word) : Except Stop Word :=
    if F64.isFinite v then .ok w else .error (.raise .numeric)
  match f with
  | .level => finite (clampF v F64.zero F64.one)
  | .numVoices => .ok (clampI v 1 Config.maxUnison)
  | .voiceSpread => finite (clampF v F64.zero c.spreadMax)
  | .waveIndex => finite (clampF v F64.zero Config.waveIndexMax)
  | .sync => if v = 0 ∨ v = 1 then .ok v else .error (.raise .badIndex)
  | .wavetable => .ok v

/-- The configuration registers by FIELD, with the kind of the response (10_state R47). -/
def cfgEntry (c : Config) (fld : BitVec 4) : Except Stop (Kind × Word) :=
  match fld.toNat with
  | 0 => .ok (.float, c.fs)
  | 1 => .ok (.int, BitVec.ofNat 64 c.p)
  | 2 => .ok (.int, BitVec.ofNat 64 Config.numOct)
  | 3 => .ok (.float, c.f0)
  | 4 => .ok (.int, BitVec.ofNat 64 Config.maxUnison)
  | 5 => .ok (.int, BitVec.ofNat 64 Config.numSlots)
  | 6 => .ok (.int, BitVec.ofNat 64 Config.numOsc)
  | 7 => .ok (.int, BitVec.ofNat 64 Config.numTbl)
  | 8 => .ok (.int, BitVec.ofNat 64 Config.maxWaves)
  | 9 => .ok (.int, BitVec.ofNat 64 Config.pbMax)
  | 10 => .ok (.float, Config.snapLo)
  | 11 => .ok (.float, Config.snapHi)
  | 12 => .ok (.float, c.spreadMax)
  | 13 => .ok (.float, Config.waveIndexMax)
  | 14 => .ok (.int, BitVec.ofNat 64 Config.headerLen)
  | _ => .error (.raise .badIndex)

/-! The TBLRD address word (30_encoding R119). -/

def addrSample (d : Word) : Nat := (d.extractLsb' 0 16).toNat
def addrOctave (d : Word) : Nat := (d.extractLsb' 16 4).toNat
def addrWave (d : Word) : Nat := (d.extractLsb' 20 8).toNat
def addrReserved (d : Word) : BitVec 36 := d.extractLsb' 28 36

/-- The byte string of a TBLLOAD: the first L bytes of its words, least significant byte first (30_encoding R125). -/
def loadBytes (len : Word) (data : List Word) : List Byte :=
  (data.flatMap fun w => leBytes 8 w.toNat).take len.toNat

end Sys2Proof.Machine
end

