-- ==== Sys2Proof/Machine/Oscillator.lean ====
section
/-! DEFINITION. The oscillator datapath (42_oscillator R210 to R220), as pure functions of the registers, table memory
and the operands. -/

namespace Sys2Proof.Machine

/-- `LaneFreq(f, spread, i)` (R211). -/
def laneFreq (f spread : F64) (i : Nat) : F64 :=
  let d := F64.mul spread (F64.ofNat i)
  if i % 2 = 1 then F64.add f d else F64.sub f d

/-- The advance of a lane, `((fi * f64(P)) / FS) * dt` (R212). -/
def advance (c : Config) (fi dt : F64) : F64 :=
  F64.mul (F64.div (F64.mul fi (F64.ofNat c.p)) c.fs) dt

/-- `Wrap(x)` before its last line: the position reduced modulo P, and whether it wrapped (R214). -/
def wrapRaw (p : Nat) (x : F64) : F64 × Bool :=
  if F64.le F64.zero x && F64.lt x (F64.ofNat p) then (x, false)
  else
    let r := F64.fmod x (F64.ofNat p)
    let r := if F64.lt r F64.zero then F64.add r (F64.ofNat p) else r
    let r := if F64.eq r (F64.ofNat p) then F64.zero else r
    (r, true)

/-- `Wrap(x)`: never −0.0 (R214). -/
def wrap (p : Nat) (x : F64) : F64 × Bool :=
  let r := wrapRaw p x
  (if F64.eq r.1 F64.zero then F64.zero else r.1, r.2)

/-- The scan of `Octave(a)` over the octaves listed (R215). -/
def octaveFrom (c : Config) (a : F64) : List Nat → Nat
  | [] => Config.numOct - 1
  | o :: rest => if F64.le a (octaveBase c.toParams o) then o else octaveFrom c a rest

/-- `Octave(a)` (R215). -/
def octave (c : Config) (a : F64) : Nat := octaveFrom c a (List.range Config.numOct)

/-- The interpolation between two adjacent samples, with the snap to the nearer one (R216). -/
def interpolate (fr s0 s1 : F64) : F64 :=
  if F64.lt fr Config.snapLo then s0
  else if F64.lt Config.snapHi fr then s1
  else F64.add s0 (F64.mul fr (F64.sub s1 s0))

/-- `Lookup(t, w, o, p)` at position `x` (R216). -/
def lookup (p : Nat) (ts : TableSlot) (w o : Nat) (x : F64) : Except Stop F64 :=
  match F64.floor x with
  | none => .error (.stuck .floorUndefined)
  | some i =>
    if i < 0 then .error (.stuck .tableRange)
    else
      match tableRead p ts w o i.toNat with
      | .error e => .error e
      | .ok s0 =>
        match tableRead p ts w o (i.toNat + 1) with
        | .error e => .error e
        | .ok s1 => .ok (interpolate (F64.sub x (F64.ofNat i.toNat)) s0 s1)

/-- `Select(t, x)`: the waveshape and the blend weight toward the next one (R217). -/
def select (ts : TableSlot) (x : F64) : Except Stop (Nat × F64) :=
  let wv := clampF x F64.zero (F64.ofNat (ts.ntab - 1))
  match F64.floor wv with
  | none => .error (.stuck .floorUndefined)
  | some wi => .ok (wi.toNat, F64.sub wv (F64.ofNat wi.toNat))

/-- The weighted sum of two waveshapes' samples (R217). -/
def mixWaves (b v v' : F64) : F64 := F64.add (F64.mul (F64.sub F64.one b) v) (F64.mul b v')

/-- `Blend(t, wi, b, o, p)` at position `x` (R217). -/
def blend (p : Nat) (ts : TableSlot) (wi : Nat) (b : F64) (o : Nat) (x : F64) : Except Stop F64 :=
  match lookup p ts wi o x with
  | .error e => .error e
  | .ok v =>
    if F64.eq b F64.zero then .ok v
    else
      match lookup p ts (wi + 1) o x with
      | .error e => .error e
      | .ok v' => .ok (mixWaves b v v')

/-- The running values of a step: the positions, the sum of the lanes' samples and the cycle flag (R220). -/
structure Lanes where
  pos : Vector F64 Config.maxUnison
  acc : F64
  cc : Bool
  deriving DecidableEq, Repr

/-- One lane of a step (R220). -/
def stepLane (c : Config) (ts : TableSlot) (wi : Nat) (b spread f dt : F64) (i : LaneNo) (a : Lanes) :
    Except Stop Lanes :=
  let fi := laneFreq f spread i.val
  let adv := advance c fi dt
  if F64.isFinite adv then
    let w := wrap c.p (F64.add a.pos[i] adv)
    match blend c.p ts wi b (octave c (F64.abs fi)) w.1 with
    | .error e => .error e
    | .ok y => .ok ⟨a.pos.set i.val w.1 i.isLt, F64.add a.acc y, orCycle a.cc w.2⟩
  else .error (.raise .numeric)

/-- The lanes listed, in order, each by `one`; the first that raises a fault ends it (R220). -/
def runLanes (one : LaneNo → Lanes → Except Stop Lanes) : List LaneNo → Lanes → Except Stop Lanes
  | [], a => .ok a
  | i :: rest, a =>
    match one i a with
    | .error e => .error e
    | .ok a' => runLanes one rest a'

/-- The lanes listed, in order (R220). -/
def stepLanes (c : Config) (ts : TableSlot) (wi : Nat) (b spread f dt : F64) (lanes : List LaneNo) (a : Lanes) :
    Except Stop Lanes :=
  runLanes (stepLane c ts wi b spread f dt) lanes a

/-- The lanes 0 to n − 1 (R220). DESIGN CHOICE, safe (log entry 15): at most the MAX_UNISON there are. -/
def activeLanes (n : Nat) : List LaneNo := (List.finRange Config.maxUnison).take n

/-- What a step gives: the sample, the cycle flag and the new positions (R210). -/
structure StepResult where
  out : F64
  cc : Bool
  pos : Vector F64 Config.maxUnison
  deriving DecidableEq, Repr

/-- `OscCore(s, j, posin, f, dt)` on the registers `o` of the oscillator (R220); the mean is R218, the flag R219. -/
def oscCore (c : Config) (tables : Vector TableSlot Config.numTbl) (o : Osc) (posin : Vector F64 Config.maxUnison)
    (f dt : F64) : Except Stop StepResult :=
  let ts := tables[resolve tables o.wavetable]
  let n := o.numVoices.toNat
  match select ts o.waveIndex with
  | .error e => .error e
  | .ok (wi, b) =>
    match stepLanes c ts wi b o.voiceSpread f dt (activeLanes n) ⟨posin, F64.zero, false⟩ with
    | .error e => .error e
    | .ok a => .ok ⟨F64.div a.acc (F64.ofNat n), a.cc, a.pos⟩

end Sys2Proof.Machine
end

