-- ==== Sys2Proof/Machine/OscCommands.lean ====
section
/-! DEFINITION. The meanings of the oscillator commands: PHRST, OSCSTEP (42_oscillator). -/

namespace Sys2Proof.Machine

/-- The effect of PHRST (42 R221). -/
def phrstEffect (sl : BitVec 5) (j : BitVec 2) (s : State) : Except Stop (State × List Word) :=
  match oscAt sl j with
  | .error e => .error e
  | .ok (k, j) => .ok (s.setOsc k j (s.osc k j).phaseReset, [])

/-- PHRST s, j (42 R221). -/
def execPhrst (sl : BitVec 5) (j : BitVec 2) (s : State) : Host.Outcome State Fault Refusal :=
  command (Instr.phrst sl j).word s (phrstEffect sl j s)

/-- The effect of OSCSTEP (42 R222). -/
def oscstepEffect (sl : BitVec 5) (j : BitVec 2) (f dt : Word) (s : State) : Except Stop (State × List Word) :=
  match oscAt sl j with
  | .error e => .error e
  | .ok (k, j) =>
    if !(F64.isFinite f && F64.isFinite dt) then .error (.raise .numeric)
    else if F64.lt dt F64.zero then .error (.raise .badOperand)
    else
      let o := s.osc k j
      match oscCore s.cfg s.tables o o.pos f dt with
      | .error e => .error e
      | .ok r => .ok (s.setOsc k j (o.stepped r.pos r.out r.cc), [r.out, flagWord r.cc])

/-- OSCSTEP s, j, f, dt (42 R222). -/
def execOscstep (sl : BitVec 5) (j : BitVec 2) (f dt : Word) (s : State) : Host.Outcome State Fault Refusal :=
  command (Instr.oscstep sl j f dt).word s (oscstepEffect sl j f dt s)

end Sys2Proof.Machine
end

