-- ==== Sys2Proof/Machine/Registers.lean ====
section
/-! DEFINITION. The meanings of the register and parameter commands: NOP, RESET, WRPARAM, RDPARAM, RDCFG, RDSTATUS,
RDSTATE, RDOUT (40_parameters). -/

namespace Sys2Proof.Machine

/-- NOP (40 R140). -/
def execNop (s : State) : Host.Outcome State Fault Refusal :=
  command Instr.nop.word s (.ok (s, []))

/-- RESET (40 R141), accepted while halted. -/
def execReset (s : State) : Host.Outcome State Fault Refusal :=
  settle Instr.reset.word s (.ok (s.resetSequence, []))

/-- The effect of WRPARAM (40 R142), in the check order of 60_exceptions R305. -/
def wrparamEffect (sl : BitVec 5) (j : BitVec 2) (fld : BitVec 4) (tag : BitVec 3) (v : Word) (s : State) :
    Except Stop (State × List Word) :=
  match oscAt sl j, paramIndex fld with
  | .error e, _ => .error e
  | _, .error e => .error e
  | .ok (k, j), .ok f =>
    if tag = kindTag (kindOf f) then
      match paramValue s.cfg f v with
      | .error e => .error e
      | .ok w => .ok (s.setOsc k j ((s.osc k j).setParam f w), [])
    else .error (.raise .tagMismatch)

/-- WRPARAM s, j, F, TAG, v (40 R142). -/
def execWrparam (sl : BitVec 5) (j : BitVec 2) (fld : BitVec 4) (tag : BitVec 3) (v : Word) (s : State) :
    Host.Outcome State Fault Refusal :=
  command (Instr.wrparam sl j fld tag v).word s (wrparamEffect sl j fld tag v s)

/-- The effect of RDPARAM (40 R143). -/
def rdparamEffect (sl : BitVec 5) (j : BitVec 2) (fld : BitVec 4) (s : State) : Except Stop (State × List Word) :=
  match oscAt sl j, paramIndex fld with
  | .error e, _ => .error e
  | _, .error e => .error e
  | .ok (k, j), .ok f => .ok (s, [tagWord (kindOf f), (s.osc k j).param f])

/-- RDPARAM s, j, F (40 R143). -/
def execRdparam (sl : BitVec 5) (j : BitVec 2) (fld : BitVec 4) (s : State) : Host.Outcome State Fault Refusal :=
  command (Instr.rdparam sl j fld).word s (rdparamEffect sl j fld s)

/-- The effect of RDCFG (40 R145). -/
def rdcfgEffect (fld : BitVec 4) (s : State) : Except Stop (State × List Word) :=
  match cfgEntry s.cfg fld with
  | .error e => .error e
  | .ok (k, v) => .ok (s, [tagWord k, v])

/-- RDCFG F (40 R145). -/
def execRdcfg (fld : BitVec 4) (s : State) : Host.Outcome State Fault Refusal :=
  command (Instr.rdcfg fld).word s (rdcfgEffect fld s)

/-- RDSTATUS (40 R146), accepted while halted. -/
def execRdstatus (s : State) : Host.Outcome State Fault Refusal :=
  settle Instr.rdstatus.word s (.ok (s, [s.status.word]))

/-- The effect of RDSTATE (40 R147). -/
def rdstateEffect (sl : BitVec 5) (j : BitVec 2) (lane : BitVec 4) (s : State) : Except Stop (State × List Word) :=
  match oscAt sl j, laneIndex lane with
  | .error e, _ => .error e
  | _, .error e => .error e
  | .ok (k, j), .ok i => .ok (s, [(s.osc k j).pos[i]])

/-- RDSTATE s, j, i (40 R147). -/
def execRdstate (sl : BitVec 5) (j : BitVec 2) (lane : BitVec 4) (s : State) : Host.Outcome State Fault Refusal :=
  command (Instr.rdstate sl j lane).word s (rdstateEffect sl j lane s)

/-- The effect of RDOUT: OSC 3 names the slot mix, whatever NUM_OSC (30_encoding R111; 40 R148). -/
def rdoutEffect (sl : BitVec 5) (j : BitVec 2) (s : State) : Except Stop (State × List Word) :=
  if j = 3 then
    match slotIndex sl with
    | .error e => .error e
    | .ok k => .ok (s, [s.mix k, 0])
  else
    match oscAt sl j with
    | .error e => .error e
    | .ok (k, j) => .ok (s, [(s.osc k j).out, flagWord (s.osc k j).cc])

/-- RDOUT s, j (40 R148). -/
def execRdout (sl : BitVec 5) (j : BitVec 2) (s : State) : Host.Outcome State Fault Refusal :=
  command (Instr.rdout sl j).word s (rdoutEffect sl j s)

end Sys2Proof.Machine
end

