-- ==== Sys2Proof/Machine/SampleFile.lean ====
section
/-! DEFINITION. The sample file of 20_memory R84 to R88: the chunk scan (R85) and the payload decode (R86), with the
LOADSTAT codes of 60_exceptions R310. -/

namespace Sys2Proof.Machine

/-- What a file gives: k waveshapes with their samples, or why it is rejected (20_memory R85, R86). -/
inductive FileResult where
  | accept (k : Nat) (v : List F64)
  | missing
  | truncated
  | noData
  | badCount
  | tooMany
  | badSample
  deriving DecidableEq, Repr

/-- The LOADSTAT code of a result (60_exceptions R310). -/
def FileResult.code : FileResult → BitVec 4
  | .accept _ _ => 1
  | .missing => 2
  | .truncated => 3
  | .noData => 4
  | .badCount => 5
  | .tooMany => 6
  | .badSample => 7

/-- The samples of a payload: consecutive little-endian binary32 words, as binary64 (20_memory R81, R82, R87). -/
def payloadSamples : List Byte → List F64
  | b0 :: b1 :: b2 :: b3 :: rest =>
    F64.ofBinary32 (BitVec.ofNat 32 (leNat [b0, b1, b2, b3])) :: payloadSamples rest
  | _ => []

/-- `DecodePayload(payload, size)` (20_memory R86). -/
def decodePayload (p : Nat) (payload : List Byte) (size : Nat) : FileResult :=
  if size % 4 ≠ 0 then .badCount
  else if size / 4 = 0 ∨ size / 4 % p ≠ 0 then .badCount
  else if Config.maxWaves < size / 4 / p then .tooMany
  else if (payloadSamples payload).all F64.isFinite then .accept (size / 4 / p) (payloadSamples payload)
  else .badSample

/-- The chunk id "data" (20_memory R85). -/
def dataId : List Byte := [0x64, 0x61, 0x74, 0x61]

/-- The chunk loop of `ParseWaveFile` on the bytes from the current offset to the end (20_memory R85). Each turn that
goes on consumes 8 bytes at least, so a bound of one turn per byte never ends it early. -/
def scanChunks (p : Nat) : Nat → List Byte → FileResult
  | 0, _ => .noData
  | turns + 1, rest =>
    if rest.length = 0 then .noData
    else if rest.length < 8 then .truncated
    else
      let size := leNat ((rest.drop 4).take 4)
      let body := rest.drop 8
      if body.length < size then .truncated
      else if rest.take 4 = dataId then decodePayload p (body.take size) size
      else scanChunks p turns (body.drop size)

/-- `ParseWaveFile(b)` (20_memory R85). -/
def parseWaveFile (p : Nat) (b : List Byte) : FileResult :=
  if b.length = 0 then .missing
  else if b.length < Config.headerLen then .truncated
  else scanChunks p (b.length + 1) (b.drop Config.headerLen)

end Sys2Proof.Machine
end

