-- ==== Sys2Proof/Machine/Tables.lean ====
section
/-! DEFINITION. The meanings of the table commands: TBLBUILD, TBLLOAD, TBLRD, TBLINFO (41_wavetable). -/

namespace Sys2Proof.Machine

/-- `TableWriteSlot(t, DefaultSet(), 4)` (41 R175, R176). -/
def State.buildSlot (s : State) (t : TableNo) : State :=
  s.writeSlot t (defaultSet s.cfg.toParams) Config.numDefaultWaves

/-- The effect of TBLBUILD (41 R175). -/
def tblbuildEffect (t : BitVec 12) (s : State) : Except Stop (State × List Word) :=
  match tableIndex t with
  | .error e => .error e
  | .ok t => .ok (s.buildSlot t, [BitVec.ofNat 64 Config.numDefaultWaves])

/-- TBLBUILD t (41 R175). -/
def execTblbuild (t : BitVec 12) (s : State) : Host.Outcome State Fault Refusal :=
  command (Instr.tblbuild t).word s (tblbuildEffect t s)

/-- Table memory after a load into slot t: the loaded waveshapes, or the built-in set in place of a rejected file
(41 R176; 60_exceptions R310). -/
def State.loadSlot (s : State) (t : TableNo) (r : FileResult) : State :=
  match r with
  | .accept k v => s.writeSlot t (loadedSet s.cfg.p k v) k
  | .missing | .truncated | .noData | .badCount | .tooMany | .badSample => s.buildSlot t

/-- The effect of TBLLOAD (41 R176); the frame length is checked before the slot number (60_exceptions R305, R313;
DESIGN CHOICE, safe, log entry 13). -/
def tblloadEffect (imm : BitVec 12) (len : Word) (data : List Word) (s : State) : Except Stop (State × List Word) :=
  if data.length ≠ loadWords len then .error (.raise .frameLength)
  else
    match loadIndex imm with
    | .error e => .error e
    | .ok t =>
      let r := parseWaveFile s.cfg.p (loadBytes len data)
      .ok ((s.loadSlot t r).setStatus (s.status.withLoad r.code imm), [r.code.zeroExtend 64])

/-- TBLLOAD t, b (41 R176). -/
def execTblload (t : BitVec 12) (len : Word) (data : List Word) (s : State) : Host.Outcome State Fault Refusal :=
  command (Instr.tblload t len data).word s (tblloadEffect t len data s)

/-- The effect of TBLRD (41 R178): the slot number, then the reserved bits of the address, then its range
(60_exceptions R305). -/
def tblrdEffect (t : BitVec 12) (addr : Word) (s : State) : Except Stop (State × List Word) :=
  match tableIndex t with
  | .error e => .error e
  | .ok t =>
    if addrReserved addr ≠ 0 then .error (.raise .reservedBits)
    else
      let ts := s.table t
      if !ts.tvalid || decide (ts.ntab ≤ addrWave addr) || decide (Config.numOct ≤ addrOctave addr)
          || decide (s.cfg.p < addrSample addr) then .error (.raise .badIndex)
      else
        match tableRead s.cfg.p ts (addrWave addr) (addrOctave addr) (addrSample addr) with
        | .error e => .error e
        | .ok w => .ok (s, [w])

/-- TBLRD t, addr (41 R178). -/
def execTblrd (t : BitVec 12) (addr : Word) (s : State) : Host.Outcome State Fault Refusal :=
  command (Instr.tblrd t addr).word s (tblrdEffect t addr s)

/-- The effect of TBLINFO (41 R179). -/
def tblinfoEffect (t : BitVec 12) (s : State) : Except Stop (State × List Word) :=
  match tableIndex t with
  | .error e => .error e
  | .ok t => .ok (s, [flagWord (s.table t).tvalid, BitVec.ofNat 64 (s.table t).ntab])

/-- TBLINFO t (41 R179). -/
def execTblinfo (t : BitVec 12) (s : State) : Host.Outcome State Fault Refusal :=
  command (Instr.tblinfo t).word s (tblinfoEffect t s)

end Sys2Proof.Machine
end

