-- ==== Sys2Proof/Machine/Voice.lean ====
section
/-! DEFINITION. The meanings of the voice commands: TRIGGER, VOICESTEP, PREVIEW (43_voice). -/

namespace Sys2Proof.Machine

/-- Every oscillator of a slot with its phase reset (43 R251). -/
def State.triggerSlot (s : State) (sl : SlotNo) : State :=
  let v := s.slots[sl]
  { s with slots := s.slots.set sl.val { v with osc := v.osc.map Osc.phaseReset } sl.isLt }

/-- The effect of TRIGGER (43 R251). -/
def triggerEffect (sl : BitVec 5) (s : State) : Except Stop (State × List Word) :=
  match slotIndex sl with
  | .error e => .error e
  | .ok k => .ok (s.triggerSlot k, [])

/-- TRIGGER s (43 R251). -/
def execTrigger (sl : BitVec 5) (s : State) : Host.Outcome State Fault Refusal :=
  command (Instr.trigger sl).word s (triggerEffect sl s)

/-- The sum of a list, from the left, each addition rounded once: `(a + b) + c`. -/
def sumLeft : List F64 → F64
  | [] => F64.zero
  | a :: rest => rest.foldl F64.add a

/-- The level-weighted sum of the samples, divided by the sum of the levels when that exceeds the mix threshold, 1.0:
`m <- (l0 * o0 + l1 * o1) + l2 * o2`, `L <- (l0 + l1) + l2` (43 R252). Each part is a level with its sample. -/
def mixDown (parts : List (F64 × F64)) : F64 :=
  let m := sumLeft (parts.map fun part => F64.mul part.1 part.2)
  let l := sumLeft (parts.map Prod.fst)
  if F64.lt Config.mixThreshold l then F64.div m l else m

/-- The oscillators a VOICESTEP steps, in order, each with its frequency operand: of oscillators 0, 1 and 2 those there
are (43 R252; DESIGN CHOICE, safe, log entry 24: at NUM_OSC = 3, all three). -/
def voiceOscs (f0 f1 f2 : F64) : List (OscNo × F64) := (List.finRange Config.numOsc).zip [f0, f1, f2]

/-- The lanes oscillator j starts a VOICESTEP from: all +0.0 for oscillator 1 when its hard sync is on and oscillator 0
wrapped (43 R252). -/
def startLanes (j : OscNo) (o : Osc) (c0 : Bool) : Vector F64 Config.maxUnison :=
  if j.val = 1 && o.sync = 1 && c0 then zeroLanes else o.pos

/-- The steps of a VOICESTEP, in order; `c0` is the cycle flag of oscillator 0 in this step (43 R252). -/
def voiceSteps (s : State) (sl : SlotNo) (dt : F64) :
    List (OscNo × F64) → Bool → Except Stop (List (OscNo × StepResult))
  | [], _ => .ok []
  | (j, f) :: rest, c0 =>
    match oscCore s.cfg s.tables (s.osc sl j) (startLanes j (s.osc sl j) c0) f dt with
    | .error e => .error e
    | .ok r =>
      match voiceSteps s sl dt rest (if j.val = 0 then r.cc else c0) with
      | .error e => .error e
      | .ok rs => .ok ((j, r) :: rs)

/-- What each oscillator stepped gives (43 R252). -/
def voiceCore (s : State) (sl : SlotNo) (f0 f1 f2 dt : F64) : Except Stop (List (OscNo × StepResult)) :=
  voiceSteps s sl dt (voiceOscs f0 f1 f2) false

/-- `R.POS`, `R.OUT`, `R.CC` of the oscillators stepped and `R.MIX` written (43 R252). -/
def State.voiceWrite (s : State) (sl : SlotNo) (rs : List (OscNo × StepResult)) (m : F64) : State :=
  (rs.foldl (fun t r => t.setOsc sl r.1 ((s.osc sl r.1).stepped r.2.pos r.2.out r.2.cc)) s).setMix sl m

/-- The effect of VOICESTEP (43 R252). -/
def voicestepEffect (sl : BitVec 5) (f0 f1 f2 dt : Word) (s : State) : Except Stop (State × List Word) :=
  match slotIndex sl with
  | .error e => .error e
  | .ok k =>
    if !(F64.isFinite f0 && F64.isFinite f1 && F64.isFinite f2 && F64.isFinite dt) then .error (.raise .numeric)
    else if F64.lt dt F64.zero then .error (.raise .badOperand)
    else
      match voiceCore s k f0 f1 f2 dt with
      | .error e => .error e
      | .ok rs =>
        let m := mixDown (rs.map fun r => ((s.osc k r.1).level, r.2.out))
        .ok (s.voiceWrite k rs m, [m, flagsWord (rs.map fun r => r.2.cc)])

/-- VOICESTEP s, f0, f1, f2, dt (43 R252). -/
def execVoicestep (sl : BitVec 5) (f0 f1 f2 dt : Word) (s : State) : Host.Outcome State Fault Refusal :=
  command (Instr.voicestep sl f0 f1 f2 dt).word s (voicestepEffect sl f0 f1 f2 dt s)

/-- The samples of a preview from scratch lanes `q`, each a step with dt = 1.0 (43 R253). -/
def previewFrom (c : Config) (tables : Vector TableSlot Config.numTbl) (o : Osc) (f : F64) :
    Nat → Vector F64 Config.maxUnison → Except Stop (List Word)
  | 0, _ => .ok []
  | n + 1, q =>
    match oscCore c tables o q f F64.one with
    | .error e => .error e
    | .ok r =>
      match previewFrom c tables o f n r.pos with
      | .error e => .error e
      | .ok ys => .ok (r.out :: ys)

/-- The effect of PREVIEW: samples only, no state (43 R253). -/
def previewEffect (sl : BitVec 5) (j : BitVec 2) (n : BitVec 12) (f : Word) (s : State) :
    Except Stop (State × List Word) :=
  match oscAt sl j, previewLength n with
  | .error e, _ => .error e
  | _, .error e => .error e
  | .ok (k, j), .ok len =>
    if !(F64.isFinite f) then .error (.raise .numeric)
    else
      match previewFrom s.cfg s.tables (s.osc k j) f len zeroLanes with
      | .error e => .error e
      | .ok ys => .ok (s, ys)

/-- PREVIEW s, j, N, f (43 R253). -/
def execPreview (sl : BitVec 5) (j : BitVec 2) (n : BitVec 12) (f : Word) (s : State) :
    Host.Outcome State Fault Refusal :=
  command (Instr.preview sl j n f).word s (previewEffect sl j n f s)

end Sys2Proof.Machine
end

