-- ==== Sys2Proof/Machine/Dispatch.lean ====
section
/-! DEFINITION. The dispatch of 30_encoding R123: one arm per command. -/

namespace Sys2Proof.Machine

/-- The outcome of one command (30_encoding R123, R124). -/
def exec (i : Instr) (s : State) : Host.Outcome State Fault Refusal :=
  match i with
  | .nop => Sys2Proof.Machine.execNop s
  | .reset => Sys2Proof.Machine.execReset s
  | .wrparam sl j fld tag v => Sys2Proof.Machine.execWrparam sl j fld tag v s
  | .rdparam sl j fld => Sys2Proof.Machine.execRdparam sl j fld s
  | .rdcfg fld => Sys2Proof.Machine.execRdcfg fld s
  | .rdstatus => Sys2Proof.Machine.execRdstatus s
  | .rdstate sl j lane => Sys2Proof.Machine.execRdstate sl j lane s
  | .rdout sl j => Sys2Proof.Machine.execRdout sl j s
  | .tblbuild t => Sys2Proof.Machine.execTblbuild t s
  | .tblload t len data => Sys2Proof.Machine.execTblload t len data s
  | .tblrd t addr => Sys2Proof.Machine.execTblrd t addr s
  | .tblinfo t => Sys2Proof.Machine.execTblinfo t s
  | .phrst sl j => Sys2Proof.Machine.execPhrst sl j s
  | .oscstep sl j f dt => Sys2Proof.Machine.execOscstep sl j f dt s
  | .trigger sl => Sys2Proof.Machine.execTrigger sl s
  | .voicestep sl f0 f1 f2 dt => Sys2Proof.Machine.execVoicestep sl f0 f1 f2 dt s
  | .preview sl j n f => Sys2Proof.Machine.execPreview sl j n f s

end Sys2Proof.Machine
end

