-- ==== Sys2Proof/Machine/Step.lean ====
section
/-! DEFINITION. One step of the machine: one command from the port, one response (30_encoding R110; 20_memory R94). -/

namespace Sys2Proof.Machine

/-- One step. With no command at the port nothing happens but an agent's taking of the lock (60_exceptions R329). -/
def step (s : State) : Host.Outcome State Fault Refusal :=
  match s.port.fetch with
  | (none, port) => .next { s with port := port }
  | (some fr, port) =>
    match decodeFrame fr with
    | .ok i => exec i { s with port := port }
    | .error c => .next (State.rejectFrame { s with port := port } c fr.word)

/-- The state with the frame of an instruction, its bits numbered as in spec/opcode_table.json, as the next command of
the block in progress: the delivery of one command by the agent that holds the lock (DEDUCED, safe, log entry 6). -/
def State.withFetchWord (s : State) (nbits w : Nat) : State :=
  { s with port := { s.port with current := tableFrame nbits w :: s.port.current } }

end Sys2Proof.Machine
end

