-- ==== Sys2Proof/Safety.lean ====
section
/-! DEFINITION. What counts as a safe run, where a run ends and how (60_exceptions R302; 70 R355), the invariants the
spec states of every reachable state (lane positions, 10_state R32; parameter registers, R38; table bookkeeping, R48; the
guard sample, 20_memory R71; normalisation, R75; STATUS, 10_state R45; the canonical form of table memory), and the
relations in which the statements say what the datapath computes. -/

namespace Sys2Proof.Machine

/-- A state in which no fault is recorded: STATUS.HALTED = 0 (60_exceptions R302; 70 R355). -/
abbrev State.safe (s : State) : Prop := s.status.halted = false

/-! Runs (70 R355). -/

/-- The state a run starts from: after the reset sequence, with the blocks of commands each agent will issue. -/
def State.start (c : Config) (render control : List (List Frame)) : State :=
  { State.resetOf c with port := { Port.idle with render := render, control := control } }

/-- `ts` are the states of consecutive steps from `s`: a run, in one of the orders of blocks (60_exceptions R320). -/
def State.runs : State → List State → Prop
  | _, [] => True
  | s, t :: rest => step s = .next t ∧ t.runs rest

/-- The last state of a run from `s`; with the responses in its port it is the result of the run. -/
def State.lastOf (s : State) (ts : List State) : State := ts.getLastD s

/-- Every command of every block has been consumed. -/
abbrev State.consumed (s : State) : Prop := s.port.current = [] ∧ s.port.render = [] ∧ s.port.control = []

/-- The run faulted: it reached a state with STATUS.HALTED = 1, whatever follows (60_exceptions R302). -/
abbrev State.runFaulted (s : State) (ts : List State) : Prop := ∃ t ∈ s :: ts, t.status.halted = true

/-- The run has come to its end: it has consumed every command of every block. -/
abbrev State.runEnded (s : State) (ts : List State) : Prop := s.runs ts ∧ (s.lastOf ts).consumed

/-- The run has ended successfully: every command consumed, STATUS.HALTED = 0, and it did not fault on the way (DEDUCED,
safe, log entry 23: R302 makes a run that reached the halted state never a successful one, though RESET follow). -/
abbrev State.runSucceeded (s : State) (ts : List State) : Prop :=
  s.runEnded ts ∧ (s.lastOf ts).safe ∧ ¬ s.runFaulted ts

/-- The commands an agent's port still holds. -/
def Port.pending (p : Port) : Nat := p.current.length + (p.render.flatten.length + p.control.flatten.length)

/-- `0 ≤ x < P`, and not −0.0 (10_state R32). -/
abbrev lanePosition (p : Nat) (x : F64) : Prop :=
  F64.le F64.zero x = true ∧ F64.lt x (F64.ofNat p) = true ∧ x ≠ F64.negZero

/-- Every lane position of every oscillator is legal (10_state R32). -/
abbrev State.PositionsLegal (s : State) : Prop :=
  ∀ (sl : SlotNo) (j : OscNo) (i : LaneNo), lanePosition s.cfg.p (s.osc sl j).pos[i]

/-- `lo ≤ v ≤ hi` as values. -/
abbrev inRange (lo hi v : F64) : Prop := F64.le lo v = true ∧ F64.le v hi = true

/-- The legal values of the six parameter registers (10_state R38 to R44). -/
abbrev Osc.paramsLegal (c : Config) (o : Osc) : Prop :=
  inRange F64.zero F64.one o.level ∧
  (1 ≤ o.numVoices.toInt ∧ o.numVoices.toInt ≤ Config.maxUnison) ∧
  inRange F64.zero c.spreadMax o.voiceSpread ∧
  inRange F64.zero Config.waveIndexMax o.waveIndex ∧
  (o.sync = 0 ∨ o.sync = 1)

/-- Every parameter register holds a legal value (10_state R38). -/
abbrev State.ParamsLegal (s : State) : Prop :=
  ∀ (sl : SlotNo) (j : OscNo), (s.osc sl j).paramsLegal s.cfg

/-- TVALID[t] = 1 exactly when NTAB[t] ≥ 1, NTAB[t] ≤ MAX_WAVES, and slot 0 is valid (10_state R48). -/
abbrev State.BookkeepingLegal (s : State) : Prop :=
  (∀ t : TableNo, ((s.table t).tvalid = true ↔ 1 ≤ (s.table t).ntab) ∧ (s.table t).ntab ≤ Config.maxWaves) ∧
  (s.table 0).tvalid = true

/-- The word (w, o, n) of a slot (20_memory R71). -/
def TableSlot.word (ts : TableSlot) (p w o n : Nat) : Word := ts.words.read (wordOffset p w o n)

/-- The guard sample of every octave table of every valid slot equals its sample 0, bit for bit (20_memory R71). -/
abbrev State.GuardsLegal (s : State) : Prop :=
  ∀ t : TableNo, (s.table t).tvalid = true → ∀ w < (s.table t).ntab, ∀ o < Config.numOct,
    (s.table t).word s.cfg.p w o s.cfg.p = (s.table t).word s.cfg.p w o 0

/-- One octave table is all zero, or its largest magnitude is exactly 1.0 (20_memory R75). -/
abbrev TableSlot.normal (ts : TableSlot) (p w o : Nat) : Prop :=
  (∀ n < p + 1, F64.eq (ts.word p w o n) F64.zero = true) ∨
  ((∃ n < p, F64.abs (ts.word p w o n) = F64.one) ∧
    ∀ n < p, F64.le (F64.abs (ts.word p w o n)) F64.one = true)

/-- Every octave table of every valid slot is normalised (20_memory R75). -/
abbrev State.TablesNormal (s : State) : Prop :=
  ∀ t : TableNo, (s.table t).tvalid = true → ∀ w < (s.table t).ntab, ∀ o < Config.numOct,
    (s.table t).normal s.cfg.p w o

/-- Table memory is in its canonical form: no slot lists a word twice, out of order, or equal to an unlisted one. -/
abbrev State.MemoryCanonical (s : State) : Prop :=
  ∀ t : TableNo, (s.table t).words.wf = true

/-- STATUS is consistent (10_state R45, R46; 60_exceptions R300, R310): HALTED with a code 1 to 7, else no code and no
command; LOADSTAT 0 to 7, LOADSLOT a table slot. -/
abbrev State.StatusLegal (s : State) : Prop :=
  (if s.status.halted then 1 ≤ s.status.fault.toNat ∧ s.status.fault.toNat ≤ 7
    else s.status.fault = 0 ∧ s.status.faultcmd = 0) ∧
  s.status.loadstat.toNat ≤ 7 ∧ s.status.loadslot.toNat < Config.numTbl

/-- The voice slot that SLOT names: at the source's 32 slots every value of its 5 bits names one, and the remainder is
the value itself (30_encoding R112). -/
def slotNo (sl : BitVec 5) : SlotNo := ⟨sl.toNat % Config.numSlots, Nat.mod_lt _ (by decide)⟩

/-- The registers and bookkeeping a command relies on: what keeps every command from a stop of the model. -/
abbrev State.Legal (s : State) : Prop := s.PositionsLegal ∧ s.ParamsLegal ∧ s.BookkeepingLegal

/-- The registers, STATUS, configuration and table memory are the same: all of the block but its port. -/
abbrev State.sameBlock (s t : State) : Prop :=
  t.cfg = s.cfg ∧ t.slots = s.slots ∧ t.status = s.status ∧ t.tables = s.tables

/-- The frame carries the number of operand words its OP requires: the K of 30_encoding R114, for TBLLOAD 1 + ceil(L/8)
with L its first operand word (30_encoding R126; 60_exceptions R313). -/
def lengthRight (fr : Frame) : Prop :=
  match opcodeOf (opField fr.word) with
  | some .tblload => ∃ len data, fr.operands = len :: data ∧ data.length = (len.toNat + 7) / 8
  | op => fr.operands.length = fixedOperands op

/-- The payload words of a command that completed: the J of 30_encoding R114. -/
def payloadWords : Instr → Nat
  | .nop | .reset | .wrparam _ _ _ _ _ | .phrst _ _ | .trigger _ => 0
  | .rdparam _ _ _ | .rdcfg _ | .rdout _ _ | .tblinfo _ | .oscstep _ _ _ _ | .voicestep _ _ _ _ _ => 2
  | .rdstatus | .rdstate _ _ _ | .tblbuild _ | .tblload _ _ _ | .tblrd _ _ => 1
  | .preview _ _ n _ => n.toNat

/-- `w` is `min(max(v, lo), hi)`: by value, and bit for bit the bound itself at or beyond a bound, so that a −0.0 clamped
at +0.0 is +0.0, and `v` itself inside (40 R142, R144; 10_state R39, R41, R42). -/
abbrev clampedTo (lo hi v w : F64) : Prop :=
  F64.toRat w = min (max (F64.toRat v) (F64.toRat lo)) (F64.toRat hi) ∧
  (F64.toRat v ≤ F64.toRat lo → w = lo) ∧
  (F64.toRat lo < F64.toRat v → F64.toRat v ≤ F64.toRat hi → w = v) ∧
  (F64.toRat hi < F64.toRat v → F64.toRat lo < F64.toRat v → w = hi)

/-! The oscillator step as the spec writes it, from the words of a table slot, for the statements. -/

/-- The frequency of lane i: detuned by `spread * i`, up for an odd lane and down for an even one (42 R211). -/
def laneHz (f spread : F64) (i : Nat) : F64 :=
  if i % 2 = 1 then F64.add f (F64.mul spread (F64.ofNat i)) else F64.sub f (F64.mul spread (F64.ofNat i))

/-- The advance of lane i, `((fi * P) / FS) * dt` (42 R212). -/
def laneAdvance (c : Config) (f spread dt : F64) (i : Nat) : F64 :=
  F64.mul (F64.div (F64.mul (laneHz f spread i) (F64.ofNat c.p)) c.fs) dt

/-- `y` is the sample of octave table (w, o) at position `x`: word n0 below the fraction 0.1, word n0 + 1 above 0.9, else
the line between them, with n0 the floor of x (42 R216). -/
def sampledAt (c : Config) (ts : TableSlot) (w o : Nat) (x y : F64) : Prop :=
  ∃ n0 : Nat, (n0 : ℤ) = ⌊F64.toRat x⌋ ∧
    let fraction := F64.sub x (F64.ofNat n0)
    let s0 := ts.word c.p w o n0
    let s1 := ts.word c.p w o (n0 + 1)
    y = if F64.lt fraction 0x3FB999999999999A then s0
      else if F64.lt 0x3FECCCCCCCCCCCCD fraction then s1
      else F64.add s0 (F64.mul fraction (F64.sub s1 s0))

/-- `y` is the sample at position `x` with wave index `wave`: the index clamped to the slot's waveshapes, its floor the
waveshape, its fraction the weight of the next one, which is read only where that is not 0 (42 R217). -/
def blendedAt (c : Config) (ts : TableSlot) (wave : F64) (o : Nat) (x y : F64) : Prop :=
  ∃ (wv : F64) (w : Nat), clampedTo F64.zero (F64.ofNat (ts.ntab - 1)) wave wv ∧ (w : ℤ) = ⌊F64.toRat wv⌋ ∧
    let b := F64.sub wv (F64.ofNat w)
    (F64.eq b F64.zero = true → sampledAt c ts w o x y) ∧
    (F64.eq b F64.zero = false → ∃ v v', sampledAt c ts w o x v ∧ sampledAt c ts (w + 1) o x v' ∧
      y = F64.add (F64.mul (F64.sub F64.one b) v) (F64.mul b v'))

/-- `r` is what a step of oscillator `o` of a block with tables `s` gives from the lanes `pos`: each active lane moves to
Wrap(pos + advance) and the others stay, the flag is the OR of the wraps, and the sample is the mean of the active lanes'
samples at their new positions, summed in lane order (42 R210, R214, R215, R218 to R220). -/
def steppedTo (s : State) (o : Osc) (pos : Vector F64 Config.maxUnison) (f dt : F64) (r : StepResult) : Prop :=
  let n := o.numVoices.toNat
  let moved : LaneNo → F64 × Bool := fun i =>
    wrap s.cfg.p (F64.add pos[i] (laneAdvance s.cfg f o.voiceSpread dt i.val))
  (∀ i : LaneNo, r.pos[i] = if i.val < n then (moved i).1 else pos[i]) ∧
  (r.cc = true ↔ ∃ i : LaneNo, i.val < n ∧ (moved i).2 = true) ∧
  ∃ ys : List F64, ys.length = n ∧
    (∀ (i : LaneNo) (h : i.val < ys.length), blendedAt s.cfg (s.table (resolve s.tables o.wavetable)) o.waveIndex
      (octave s.cfg (F64.abs (laneHz f o.voiceSpread i.val))) r.pos[i] ys[i.val]) ∧
    r.out = F64.div (ys.foldl F64.add F64.zero) (F64.ofNat n)

/-- `word` is the raw table `raw` of P samples peak-normalised: divided once by its largest magnitude, or as it is when
that is 0 (41_wavetable R172). -/
def normalizedTo (p : Nat) (raw word : Nat → F64) : Prop :=
  ∃ m, (∀ n < p, F64.le (F64.abs (raw n)) m = true) ∧ (∃ n < p, F64.abs (raw n) = m) ∧
    ∀ n < p, word n = if F64.eq m F64.zero then raw n else F64.div (raw n) m

/-- STATUS is as before, or it records a fault of the command word `cw` with LOADSTAT and LOADSLOT as before
(60_exceptions R301, R306). -/
abbrev State.statusKept (s t : State) (cw : CmdWord) : Prop :=
  t.status = s.status ∨
    ∃ c, t.status = { s.status with fault := faultByte c, halted := true, faultcmd := cw }

/-- Every word of table slot `t` reads as before, and its bookkeeping is as before. -/
abbrev State.tableKept (s s' : State) (t : TableNo) : Prop :=
  (s'.table t).tvalid = (s.table t).tvalid ∧ (s'.table t).ntab = (s.table t).ntab ∧
    ∀ a, (s'.table t).words.read a = (s.table t).words.read a

end Sys2Proof.Machine
end

