-- ==== Sys2Proof/Certificates/Slice0/Obligations.lean ====
section
/-! DEFINITION. The statements about the model, for the provers. Each docstring names the rules of spec/ it rests on. -/

open Sys2Proof Sys2Proof.Machine

/-! ### Encoding and decoding -/

/-- The worked encodings of 30_encoding R134, each word with its operand words, decode to the command they stand for. -/
def Obligations.WorkedEncodingsDecode : Prop :=
  decodeFrame ⟨0x00000000, []⟩ = .ok .nop ∧
  decodeFrame ⟨0x04000000, []⟩ = .ok .reset ∧
  decodeFrame ⟨0x08681000, [0x3FE0000000000000]⟩ = .ok (.wrparam 3 1 0 1 0x3FE0000000000000) ∧
  decodeFrame ⟨0x080A2000, [0x0000000000000001]⟩ = .ok (.wrparam 0 1 4 2 1) ∧
  decodeFrame ⟨0x08008000, [0x0000000000000003]⟩ = .ok (.wrparam 0 0 1 0 3) ∧
  decodeFrame ⟨0x08011000, [0x406F400000000000]⟩ = .ok (.wrparam 0 0 2 1 0x406F400000000000) ∧
  decodeFrame ⟨0x08019000, [0x3FD0000000000000]⟩ = .ok (.wrparam 0 0 3 1 0x3FD0000000000000) ∧
  decodeFrame ⟨0x0802B000, [0x0000000000000001]⟩ = .ok (.wrparam 0 0 5 3 1) ∧
  decodeFrame ⟨0x10008000, []⟩ = .ok (.rdcfg 1) ∧
  decodeFrame ⟨0x1CB80000, []⟩ = .ok (.rdout 5 3) ∧
  (∀ (len : Word) (data : List Word), data.length = (len.toNat + 7) / 8 →
    decodeFrame ⟨0x24000001, len :: data⟩ = .ok (.tblload 1 len data)) ∧
  decodeFrame ⟨0x44000000, [0x408F400000000000, 0x3FF0000000000000]⟩ =
    .ok (.oscstep 0 0 0x408F400000000000 0x3FF0000000000000) ∧
  (∀ f0 f1 f2 dt : Word, decodeFrame ⟨0x67E00000, [f0, f1, f2, dt]⟩ = .ok (.voicestep 31 f0 f1 f2 dt)) ∧
  (∀ f : Word, decodeFrame ⟨0x68480010, [f]⟩ = .ok (.preview 2 1 16 f))

/-- Decoding the encoding of a command gives the command back, for every value of every field and operand; a TBLLOAD
carries the ceil(L/8) words of 30_encoding R125. Every well-formed command meets the premise. -/
def Obligations.EncodeThenDecode : Prop :=
  ∀ i : Instr, (∀ t len data, i = .tblload t len data → data.length = (len.toNat + 7) / 8) →
    decodeFrame (encode i) = .ok i

/-- A frame that decodes is the encoding of what it decodes to: no other frame stands for that command. -/
def Obligations.DecodeThenEncode : Prop :=
  ∀ (fr : Frame) (i : Instr), decodeFrame fr = .ok i → encode i = fr

/-- On a byte-wide transport, each word least significant byte first (20_memory R80), the length told from OP, and for
TBLLOAD from L (30_encoding R126), gives back every frame of the right length and the rest of the stream. -/
def Obligations.ByteTransportRoundTrip : Prop :=
  ∀ (fr : Frame) (rest : List Byte), lengthRight fr → frameOfBytes (frameBytes fr ++ rest) = some (fr, rest)

/-- The decode faults and their order (30_encoding R124; 60_exceptions R305 steps 2 to 4, R313): for a frame that
reaches a block that is not halted, an unassigned OP faults 0x01, then a wrong number of operand words 0x07, then a
reserved bit 0x02, and any other frame decodes to a command of that OP with those operand words. -/
def Obligations.DecodeFaultOrder : Prop :=
  (∀ code : BitVec 6, opcodeOf code = none ↔
    code.toNat ∉ [0x00, 0x01, 0x02, 0x03, 0x04, 0x05, 0x06, 0x07, 0x08, 0x09, 0x0A, 0x0B, 0x10, 0x11, 0x18, 0x19, 0x1A]) ∧
  ∀ (s : State) (fr : Frame) (port : Port), s.status.halted = false → s.port.fetch = (some fr, port) →
    (opcodeOf (opField fr.word) = none →
      step s = .next ({ s with port := port }.takeFault .illegalOpcode fr.word)) ∧
    ∀ op, opcodeOf (opField fr.word) = some op →
      (¬ lengthRight fr → step s = .next ({ s with port := port }.takeFault .frameLength fr.word)) ∧
      (lengthRight fr → fr.word &&& zeroMask op ≠ 0 →
        step s = .next ({ s with port := port }.takeFault .reservedBits fr.word)) ∧
      (lengthRight fr → fr.word &&& zeroMask op = 0 →
        ∃ i, decodeFrame fr = .ok i ∧ i.op = op ∧ i.operands = fr.operands)

/-! ### The machine and its port -/

/-- A step takes the next frame from the port and runs the command it decodes to; inside a block that frame is the next
of the block (30_encoding R110; 20_memory R94). -/
def Obligations.StepRunsDecodedCommand : Prop :=
  (∀ (s : State) (fr : Frame) (rest : List Frame), s.port.current = fr :: rest →
    s.port.fetch = (some fr, { s.port with current := rest })) ∧
  ∀ (s : State) (fr : Frame) (port : Port), s.port.fetch = (some fr, port) →
    (∀ i, decodeFrame fr = .ok i → step s = exec i { s with port := port }) ∧
    (∀ c, decodeFrame fr = .error c →
      step s = .next (if s.status.halted then { s with port := port }.ignore
        else { s with port := port }.takeFault c fr.word))

/-- The instruction delivered by `withFetchWord` is the one the next step runs, on the state it was delivered to. -/
def Obligations.TableWordRunsNext : Prop :=
  ∀ (s : State) (nbits w : Nat) (i : Instr), decodeTableWord nbits w = some i →
    step (s.withFetchWord nbits w) = exec i s

/-- Every command gets exactly one response, sent to the agent that issued it: header 0x00 with the J payload words of
30_encoding R114, or a fault code 0x01 to 0x07 or 0xFF with no payload (30_encoding R110, R120; 60_exceptions R316). -/
def Obligations.OneResponsePerCommand : Prop :=
  ∀ (s t : State) (fr : Frame) (port : Port), s.port.fetch = (some fr, port) → step s = .next t →
    ∃ (header : Word) (payload : List Word),
      t.port = { port with replies := s.port.replies ++ [⟨port.holder, header, payload⟩] } ∧
      ((header = 0 ∧ ∃ i, decodeFrame fr = .ok i ∧ payload.length = payloadWords i) ∨
        ((1 ≤ header.toNat ∧ header.toNat ≤ 7 ∨ header = 0xFF) ∧ payload = []))

/-- Commands of two blocks never interleave (20_memory R95; 60_exceptions R320): while the block in progress has a
command left, a step takes that command, and neither the holder of the lock nor any waiting block changes; when it has
none, the lock goes to the first waiting block of one of the agents. -/
def Obligations.BlocksNeverInterleave : Prop :=
  (∀ (s t : State) (fr : Frame) (rest : List Frame), s.port.current = fr :: rest → step s = .next t →
    t.port.current = rest ∧ t.port.holder = s.port.holder ∧ t.port.render = s.port.render ∧
      t.port.control = s.port.control) ∧
  (∀ (s t : State), s.port.current = [] → step s = .next t →
    (s.port.render = [] ∧ s.port.control = [] ∧ t.port.current = [] ∧ t.port.render = [] ∧ t.port.control = []) ∨
    (∃ b, s.port.render = b :: t.port.render ∧ t.port.control = s.port.control ∧ t.port.holder = .render ∧
      t.port.current = b.tail) ∨
    (∃ b, s.port.control = b :: t.port.control ∧ t.port.render = s.port.render ∧ t.port.holder = .control ∧
      t.port.current = b.tail))

/-- A block that receives no command keeps its state (60_exceptions R329): with no command at the port a step changes no
register, no STATUS, no table and sends no response; with no block waiting it changes nothing at all. -/
def Obligations.IdlePortKeepsBlock : Prop :=
  (∀ (s : State) (port : Port), s.port.fetch = (none, port) →
    step s = .next { s with port := port } ∧ port.replies = s.port.replies) ∧
  (∀ s : State, s.port.current = [] → s.port.render = [] → s.port.control = [] → step s = .next s)

/-- A fault is precise (60_exceptions R306, R301, R307): whatever frame halts the block, of all the block's state only
STATUS.FAULT, STATUS.HALTED and STATUS.FAULTCMD change, to the code, 1 and the command word, and the answer is the
header of that code with no payload. -/
def Obligations.FaultsArePrecise : Prop :=
  ∀ s t : State, s.status.halted = false → step s = .next t → t.status.halted = true →
    ∃ (fr : Frame) (port : Port) (c : FaultCode), s.port.fetch = (some fr, port) ∧
      t = { cfg := s.cfg
            slots := s.slots
            tables := s.tables
            status := { s.status with fault := faultByte c, halted := true, faultcmd := fr.word }
            port := { port with replies := port.replies ++ [⟨port.holder, (faultByte c).zeroExtend 64, []⟩] } }

/-- The halted state is quiescent and RESET the only way out (60_exceptions R301, R302, R309): while halted every frame
but the exact RESET and RDSTATUS frames gets header 0xFF and has no effect, RDSTATUS returns STATUS, RESET runs the reset
sequence, and no other step of a halted block changes its registers, STATUS or tables. -/
def Obligations.HaltedBlockIsQuiescent : Prop :=
  (∀ (s : State) (fr : Frame) (port : Port), s.status.halted = true → s.port.fetch = (some fr, port) →
    step s =
      if fr = ⟨0x04000000, []⟩ then .next ({ s with port := port }.resetSequence.reply 0 [])
      else if fr = ⟨0x14000000, []⟩ then .next ({ s with port := port }.reply 0 [s.status.word])
      else .next ({ s with port := port }.reply 0xFF [])) ∧
  (∀ s t : State, s.status.halted = true → step s = .next t →
    (∀ port, s.port.fetch ≠ (some ⟨0x04000000, []⟩, port)) → s.sameBlock t)

/-- No read has a side effect (20_memory R91), and neither NOP nor PREVIEW has one (40 R140; 43 R253): where such a
command does not halt the block, all that changes is that one response is sent, and the command issued again gets the
same response. -/
def Obligations.ReadsChangeNoState : Prop :=
  ∀ (i : Instr), i.op ∈ [Op.rdparam, .rdcfg, .rdstatus, .rdstate, .rdout, .tblrd, .tblinfo, .nop, .preview] →
    ∀ s t : State, exec i s = .next t → t.status.halted = s.status.halted →
      ∃ (header : Word) (payload : List Word), t = s.reply header payload ∧
        exec i t = .next (t.reply header payload)

/-! ### Invariants of every step -/

/-- No command is stuck, hangs or is refused (60_exceptions R315): from every state whose positions, parameters and
table bookkeeping are legal, a step gives a next state, and it is legal again. Every run from such a state comes to its
end (70 R355): some number of steps consumes every command of every block, with one response to each. -/
def Obligations.LegalBlockNeverStops : Prop :=
  ∀ s : State, s.Legal →
    (∃ t, step s = .next t ∧ t.Legal) ∧
    ∃ ts : List State, s.runEnded ts ∧ (∀ t ∈ ts, t.Legal) ∧
      (s.lastOf ts).port.replies.length = s.port.replies.length + s.port.pending

/-- After every command every lane position lies in [0, P) and is not −0.0 (10_state R32; 42 R225 (b)). -/
def Obligations.LanePositionsKept : Prop :=
  ∀ s t : State, s.PositionsLegal → step s = .next t → t.PositionsLegal

/-- Every parameter register holds a legal value after every command (10_state R38 to R43). -/
def Obligations.ParametersKept : Prop :=
  ∀ s t : State, s.ParamsLegal → step s = .next t → t.ParamsLegal

/-- TVALID[t] = 1 exactly when NTAB[t] ≥ 1, NTAB[t] ≤ MAX_WAVES, and slot 0 is valid, after every command
(10_state R48). -/
def Obligations.BookkeepingKept : Prop :=
  ∀ s t : State, s.BookkeepingLegal → step s = .next t → t.BookkeepingLegal

/-- The guard sample of every octave table of every valid slot equals its sample 0 bit for bit, after every command
(20_memory R71; 41 R182). -/
def Obligations.GuardSamplesKept : Prop :=
  ∀ s t : State, s.GuardsLegal → step s = .next t → t.GuardsLegal

/-- Every octave table of every valid slot is all zero or has largest magnitude exactly 1.0, after every command
(20_memory R75; 41 R172, R182). -/
def Obligations.TablesStayNormalised : Prop :=
  ∀ s t : State, s.TablesNormal → step s = .next t → t.TablesNormal

/-- Table memory keeps its canonical form in every step, and what a slot was given is what its words read as. The form
is the model's choice (log entry 11). -/
def Obligations.TableMemoryStaysCanonical : Prop :=
  (∀ s t : State, s.MemoryCanonical → step s = .next t → t.MemoryCanonical) ∧
  (∀ (img : List F64) (k a : Nat), (TableSlot.holding img k).words.read a = img.getD a F64.zero)

/-- STATUS stays consistent: a halted block records a code 1 to 7, another records none and no command word, LOADSTAT is
at most 7 and LOADSLOT a table slot (10_state R45, R46; 60_exceptions R300, R310). -/
def Obligations.StatusStaysConsistent : Prop :=
  ∀ s t : State, s.StatusLegal → step s = .next t → t.StatusLegal

/-- The configuration registers do not change at reset or at any command (10_state R47). -/
def Obligations.ConfigurationNeverChanges : Prop :=
  ∀ s t : State, step s = .next t → t.cfg = s.cfg

/-! ### Reset -/

/-- The reset value of every element of the state (10_state R51; 70 R341), under every configuration, which is what
power-on gives. Parameters outside the constraints of 00_scope R7 are refused (60_exceptions R315). That parameters outside
the other constraints of 93 section 2, a negative or not finite SPREAD_MAX or a GEN_RAW outside its tolerance (41 R177),
are refused like them is the model's own choice (DESIGN CHOICE, log entry 20). -/
def Obligations.ResetValues : Prop :=
  (∀ (c : Config) [Decidable c.toParams.legal], ∀ s, s = State.resetOf c →
    powerOn c.toParams = .next s ∧
    (∀ (sl : SlotNo) (j : OscNo), (∀ i : LaneNo, (s.osc sl j).pos[i] = 0) ∧ (s.osc sl j).cc = false ∧
      (s.osc sl j).out = 0 ∧ (s.osc sl j).level = 0 ∧ (s.osc sl j).numVoices = 1 ∧ (s.osc sl j).voiceSpread = 0 ∧
      (s.osc sl j).waveIndex = 0 ∧ (s.osc sl j).sync = 0 ∧ (s.osc sl j).wavetable = 0) ∧
    (∀ sl : SlotNo, s.mix sl = 0) ∧ s.status.word = 0 ∧
    (s.table 0).tvalid = true ∧ (s.table 0).ntab = 4 ∧
    (∀ a, (s.table 0).words.read a = (defaultSet c.toParams).getD a F64.zero) ∧
    (∀ t : TableNo, t ≠ 0 → (s.table t).tvalid = false ∧ (s.table t).ntab = 0)) ∧
  State.reset = State.resetOf Config.machine ∧
  (∀ (c : Params) [Decidable c.legal], ¬ c.legal → powerOn c = .refused .badConfiguration)

/-- The state after reset meets every invariant above, under every configuration. -/
def Obligations.ResetMeetsInvariants : Prop :=
  ∀ c : Config, (State.resetOf c).Legal ∧ (State.resetOf c).GuardsLegal ∧ (State.resetOf c).TablesNormal ∧
    (State.resetOf c).MemoryCanonical ∧ (State.resetOf c).StatusLegal ∧ (State.resetOf c).safe

/-- RESET runs the reset sequence whatever the state, halted or not (70 R340; 40 R141): every register and every table
slot is at its reset value, CFG is as it was, and the answer is header 0x00. A second RESET leaves the same block
(70 R343). -/
def Obligations.ResetCompletes : Prop :=
  ∀ s : State, ∃ t, exec .reset s = .next t ∧ t.cfg = s.cfg ∧
    (∀ (sl : SlotNo) (j : OscNo), (∀ i : LaneNo, (t.osc sl j).pos[i] = 0) ∧ (t.osc sl j).cc = false ∧
      (t.osc sl j).out = 0 ∧ (t.osc sl j).level = 0 ∧ (t.osc sl j).numVoices = 1 ∧ (t.osc sl j).voiceSpread = 0 ∧
      (t.osc sl j).waveIndex = 0 ∧ (t.osc sl j).sync = 0 ∧ (t.osc sl j).wavetable = 0) ∧
    (∀ sl : SlotNo, t.mix sl = 0) ∧ t.status = ⟨0, false, 0, 0, 0⟩ ∧
    t.table 0 = TableSlot.holding (defaultSet s.cfg.toParams) 4 ∧
    (∀ k : TableNo, k ≠ 0 → (t.table k).tvalid = false ∧ (t.table k).ntab = 0) ∧
    t.port = (s.reply 0 []).port ∧
    ∃ t', exec .reset t = .next t' ∧ t.sameBlock t'

/-! ### The register and parameter commands -/

/-- NOP changes nothing and answers header 0x00 (40 R140); while halted it is ignored with header 0xFF. -/
def Obligations.NopCompletes : Prop :=
  ∀ s : State, exec .nop s = .next (s.reply (if s.status.halted then 0xFF else 0) [])

/-- WRPARAM of a Float field (40 R142; 10_state R39, R41, R42): LEVEL, VOICE_SPREAD or WAVE_INDEX of the oscillator
named is written with the finite value clamped to its range, so that −0.0 stores +0.0, and nothing else changes. -/
def Obligations.WrparamClampsFloats : Prop :=
  ∀ (s : State) (sl : BitVec 5) (j : OscNo) (v : Word), s.status.halted = false → F64.isFinite v = true →
    let k := slotNo sl
    let o := s.osc k j
    (∃ w, clampedTo F64.zero F64.one v w ∧
      exec (.wrparam sl (BitVec.ofNat 2 j) 0 1 v) s = .next ((s.setOsc k j { o with level := w }).reply 0 [])) ∧
    (∃ w, clampedTo F64.zero s.cfg.spreadMax v w ∧
      exec (.wrparam sl (BitVec.ofNat 2 j) 2 1 v) s = .next ((s.setOsc k j { o with voiceSpread := w }).reply 0 [])) ∧
    (∃ w, clampedTo F64.zero 0x404F800000000000 v w ∧
      exec (.wrparam sl (BitVec.ofNat 2 j) 3 1 v) s = .next ((s.setOsc k j { o with waveIndex := w }).reply 0 []))

/-- WRPARAM of an integer field (40 R142; 10_state R40, R43, R44): NUM_VOICES is written with the i64 clamped to 1 to 7,
SYNC with 0 or 1, any other Choice index faulting 0x03, WAVETABLE with any i64, and nothing else changes. -/
def Obligations.WrparamStoresIntegers : Prop :=
  ∀ (s : State) (sl : BitVec 5) (j : OscNo) (v : Word), s.status.halted = false →
    let k := slotNo sl
    let o := s.osc k j
    (∃ w : Word, w.toInt = min (max v.toInt 1) 7 ∧
      exec (.wrparam sl (BitVec.ofNat 2 j) 1 0 v) s = .next ((s.setOsc k j { o with numVoices := w }).reply 0 [])) ∧
    (v = 0 ∨ v = 1 →
      exec (.wrparam sl (BitVec.ofNat 2 j) 4 2 v) s = .next ((s.setOsc k j { o with sync := v }).reply 0 [])) ∧
    (v ≠ 0 → v ≠ 1 → exec (.wrparam sl (BitVec.ofNat 2 j) 4 2 v) s =
      .next (s.takeFault .badIndex (Instr.wrparam sl (BitVec.ofNat 2 j) 4 2 v).word)) ∧
    exec (.wrparam sl (BitVec.ofNat 2 j) 5 3 v) s = .next ((s.setOsc k j { o with wavetable := v }).reply 0 [])

/-- WRPARAM faults 0x04 when TAG is not the field's kind, whatever the value (30_encoding R118; 60_exceptions R305), and
0x05 when a Float field with its own tag is given an infinity or NaN (40 R142). -/
def Obligations.WrparamFaults : Prop :=
  ∀ (s : State) (sl : BitVec 5) (j : OscNo) (fld : BitVec 4) (tag : BitVec 3) (v : Word), s.status.halted = false →
    let kind : BitVec 3 := if fld = 1 then 0 else if fld = 4 then 2 else if fld = 5 then 3 else 1
    let i := Instr.wrparam sl (BitVec.ofNat 2 j) fld tag v
    fld.toNat ≤ 5 →
      (tag ≠ kind → exec i s = .next (s.takeFault .tagMismatch i.word)) ∧
      (tag = kind → kind = 1 → F64.isFinite v = false → exec i s = .next (s.takeFault .numeric i.word))

/-- RDPARAM returns the kind's tag and the stored value of the register named and changes nothing (40 R143). -/
def Obligations.RdparamReadsRegister : Prop :=
  ∀ (s : State) (sl : BitVec 5) (j : OscNo), s.status.halted = false →
    let o := s.osc (slotNo sl) j
    exec (.rdparam sl (BitVec.ofNat 2 j) 0) s = .next (s.reply 0 [1, o.level]) ∧
    exec (.rdparam sl (BitVec.ofNat 2 j) 1) s = .next (s.reply 0 [0, o.numVoices]) ∧
    exec (.rdparam sl (BitVec.ofNat 2 j) 2) s = .next (s.reply 0 [1, o.voiceSpread]) ∧
    exec (.rdparam sl (BitVec.ofNat 2 j) 3) s = .next (s.reply 0 [1, o.waveIndex]) ∧
    exec (.rdparam sl (BitVec.ofNat 2 j) 4) s = .next (s.reply 0 [2, o.sync]) ∧
    exec (.rdparam sl (BitVec.ofNat 2 j) 5) s = .next (s.reply 0 [3, o.wavetable])

/-- RDCFG returns the tag and value of each configuration register of 10_state R47, and F = 15 faults 0x03 (40 R145). -/
def Obligations.RdcfgReadsConstants : Prop :=
  ∀ s : State, s.status.halted = false →
    exec (.rdcfg 0) s = .next (s.reply 0 [1, s.cfg.fs]) ∧
    exec (.rdcfg 1) s = .next (s.reply 0 [0, BitVec.ofNat 64 s.cfg.p]) ∧
    exec (.rdcfg 2) s = .next (s.reply 0 [0, 11]) ∧
    exec (.rdcfg 3) s = .next (s.reply 0 [1, s.cfg.f0]) ∧
    exec (.rdcfg 4) s = .next (s.reply 0 [0, 7]) ∧
    exec (.rdcfg 5) s = .next (s.reply 0 [0, 32]) ∧
    exec (.rdcfg 6) s = .next (s.reply 0 [0, 3]) ∧
    exec (.rdcfg 7) s = .next (s.reply 0 [0, 8]) ∧
    exec (.rdcfg 8) s = .next (s.reply 0 [0, 64]) ∧
    exec (.rdcfg 9) s = .next (s.reply 0 [0, 4095]) ∧
    exec (.rdcfg 10) s = .next (s.reply 0 [1, 0x3FB999999999999A]) ∧
    exec (.rdcfg 11) s = .next (s.reply 0 [1, 0x3FECCCCCCCCCCCCD]) ∧
    exec (.rdcfg 12) s = .next (s.reply 0 [1, s.cfg.spreadMax]) ∧
    exec (.rdcfg 13) s = .next (s.reply 0 [1, 0x404F800000000000]) ∧
    exec (.rdcfg 14) s = .next (s.reply 0 [0, 4]) ∧
    exec (.rdcfg 15) s = .next (s.takeFault .badIndex (Instr.rdcfg 15).word)

/-- RDSTATUS returns STATUS, halted or not, with the fields where 10_state R45 places them and the reserved bits zero,
and does not clear it (40 R146). -/
def Obligations.RdstatusReadsFields : Prop :=
  ∀ s : State, ∃ w : Word, exec .rdstatus s = .next (s.reply 0 [w]) ∧
    w.extractLsb' 0 8 = s.status.fault ∧ w.getLsbD 8 = s.status.halted ∧ w.extractLsb' 9 3 = 0 ∧
    w.extractLsb' 12 4 = s.status.loadstat ∧ w.extractLsb' 16 12 = s.status.loadslot ∧ w.extractLsb' 28 4 = 0 ∧
    w.extractLsb' 32 32 = s.status.faultcmd

/-- RDSTATE returns the position of the lane named, active or not, and changes nothing (40 R147). -/
def Obligations.RdstateReadsLane : Prop :=
  ∀ (s : State) (sl : BitVec 5) (j : OscNo) (i : LaneNo), s.status.halted = false →
    exec (.rdstate sl (BitVec.ofNat 2 j) (BitVec.ofNat 4 i)) s =
      .next (s.reply 0 [(s.osc (slotNo sl) j).pos[i]])

/-- RDOUT returns OUT and CC of the oscillator named, or with OSC 3 the slot mix and 0, and changes nothing
(40 R148). -/
def Obligations.RdoutReadsOutputOrMix : Prop :=
  ∀ (s : State) (sl : BitVec 5), s.status.halted = false →
    (∀ j : OscNo, exec (.rdout sl (BitVec.ofNat 2 j)) s =
      .next (s.reply 0 [(s.osc (slotNo sl) j).out, if (s.osc (slotNo sl) j).cc then 1 else 0])) ∧
    exec (.rdout sl 3) s = .next (s.reply 0 [s.mix (slotNo sl), 0])

/-! ### The table commands -/

/-- TBLBUILD gives slot t the built-in set (41 R175, R180; 20_memory R76): it is valid with four waveshapes, sample n of
octave table o of waveshape w is the raw sample divided once by the table's largest magnitude, or as it is when that is 0
(R172), the raw samples being GEN_RAW, 0 where H(o) = 0 (R177); the guard sample repeats sample 0, the answer is 4, and
every other slot, every register, STATUS and CFG are as before. -/
def Obligations.TblbuildWritesBuiltInSet : Prop :=
  ∀ (s : State) (t : TableNo), s.status.halted = false →
    ∃ u : State, exec (.tblbuild (BitVec.ofNat 12 t)) s = .next (u.reply 0 [4]) ∧
      (u.table t).tvalid = true ∧ (u.table t).ntab = 4 ∧
      (∀ w o, w < 4 → o < 11 → normalizedTo s.cfg.p
        (fun n => if harmonics s.cfg.toParams o = 0 then F64.zero
          else s.cfg.genRaw.getD ((w * 11 + o) * s.cfg.p + n) F64.zero)
        (fun n => (u.table t).word s.cfg.p w o n)) ∧
      (∀ w o, w < 4 → o < 11 → (u.table t).word s.cfg.p w o s.cfg.p = (u.table t).word s.cfg.p w o 0) ∧
      (∀ k, k ≠ t → u.table k = s.table k) ∧
      u.cfg = s.cfg ∧ u.slots = s.slots ∧ u.status = s.status ∧ u.port = s.port

/-- TBLLOAD of a file that is accepted with k waveshapes v (41 R176, R181; 20_memory R76): slot t is valid with k
waveshapes, every octave table of waveshape w holds the file's samples w*P to w*P + P − 1, each divided once by the
largest magnitude among them, or as it is when that is 0 (R172), with the guard sample equal to sample 0; LOADSTAT is 1,
LOADSLOT is t, the answer is 1; all else is as before. -/
def Obligations.TblloadStoresAcceptedFile : Prop :=
  ∀ (s : State) (t : TableNo) (len : Word) (data : List Word) (k : Nat) (v : List F64), s.status.halted = false →
    t ≠ 0 → data.length = (len.toNat + 7) / 8 → parseWaveFile s.cfg.p (loadBytes len data) = .accept k v →
    ∃ u : State, exec (.tblload (BitVec.ofNat 12 t) len data) s = .next (u.reply 0 [1]) ∧
      (u.table t).tvalid = true ∧ (u.table t).ntab = k ∧
      (∀ w o, w < k → o < 11 → normalizedTo s.cfg.p (fun n => v.getD (w * s.cfg.p + n) F64.zero)
        (fun n => (u.table t).word s.cfg.p w o n)) ∧
      (∀ w o, w < k → o < 11 → (u.table t).word s.cfg.p w o s.cfg.p = (u.table t).word s.cfg.p w o 0) ∧
      (∀ i, i ≠ t → u.table i = s.table i) ∧
      u.cfg = s.cfg ∧ u.slots = s.slots ∧ u.port = s.port ∧
      u.status = { s.status with loadstat := 1, loadslot := BitVec.ofNat 12 t }

/-- TBLLOAD of a file that is rejected (41 R176; 60_exceptions R310): slot t holds the built-in set, LOADSTAT and the
answer are the code of the cause, LOADSLOT is t, and it is no fault; all else is as before. -/
def Obligations.TblloadFallsBack : Prop :=
  ∀ (s : State) (t : TableNo) (len : Word) (data : List Word) (r : FileResult) (code : Nat), s.status.halted = false →
    t ≠ 0 → data.length = (len.toNat + 7) / 8 → parseWaveFile s.cfg.p (loadBytes len data) = r →
    (r, code) ∈ [(FileResult.missing, 2), (.truncated, 3), (.noData, 4), (.badCount, 5), (.tooMany, 6), (.badSample, 7)] →
    exec (.tblload (BitVec.ofNat 12 t) len data) s =
      .next (((s.writeSlot t (defaultSet s.cfg.toParams) 4).setStatus
        { s.status with loadstat := BitVec.ofNat 4 code, loadslot := BitVec.ofNat 12 t }).reply 0
          [BitVec.ofNat 64 code])

/-- The scan and decode of a sample file (20_memory R84 to R86; 60_exceptions R310): an empty file is missing, one that
ends in its header, a chunk header or a chunk payload truncated, one whose chunks end without a "data" chunk without data;
an unknown chunk is skipped by its size. The first complete "data" chunk decides: a size that is not 4 times a positive
multiple of P is a bad count, else more than 64 waveshapes are too many, else a sample that is not finite is a bad sample,
else it is accepted with its P binary32 samples per waveshape; no byte after it matters. The results have the LOADSTAT
codes 1 (accepted) to 7. -/
def Obligations.SampleFileParses : Prop :=
  (∀ k v, (FileResult.accept k v).code = 1) ∧
  [FileResult.missing, .truncated, .noData, .badCount, .tooMany, .badSample].map FileResult.code = [2, 3, 4, 5, 6, 7] ∧
  ∀ p : Nat, 2 ≤ p → p ≤ 65535 →
    (∀ b, b.length = 0 → parseWaveFile p b = .missing) ∧
    (∀ b, 0 < b.length → b.length < 4 → parseWaveFile p b = .truncated) ∧
    ∀ header, header.length = 4 →
      parseWaveFile p header = .noData ∧
      (∀ rest, 0 < rest.length → rest.length < 8 → parseWaveFile p (header ++ rest) = .truncated) ∧
      ∀ (id : List Byte) (size : Nat), id.length = 4 → size < 2 ^ 32 →
        (∀ body, body.length < size → parseWaveFile p (header ++ id ++ leBytes 4 size ++ body) = .truncated) ∧
        ∀ body rest, body.length = size →
          let file := header ++ id ++ leBytes 4 size ++ body ++ rest
          let sample : Nat → F64 := fun m => F64.ofBinary32 (BitVec.ofNat 32 (leNat ((body.drop (4 * m)).take 4)))
          (id ≠ [0x64, 0x61, 0x74, 0x61] → parseWaveFile p file = parseWaveFile p (header ++ rest)) ∧
          (id = [0x64, 0x61, 0x74, 0x61] →
            (size % 4 ≠ 0 ∨ size = 0 ∨ size / 4 % p ≠ 0 → parseWaveFile p file = .badCount) ∧
            ∀ k, 1 ≤ k → size = 4 * (k * p) →
              (64 < k → parseWaveFile p file = .tooMany) ∧
              (k ≤ 64 → (∃ m < k * p, F64.isFinite (sample m) = false) → parseWaveFile p file = .badSample) ∧
              (k ≤ 64 → (∀ m < k * p, F64.isFinite (sample m) = true) →
                parseWaveFile p file = .accept k ((List.range (k * p)).map sample)))

/-- TBLRD (41 R178; 30_encoding R119; 60_exceptions R305): the word named by the packed address when the slot is valid
and the address inside it; a nonzero D0[63:28] faults 0x02 before an address outside the slot, or an empty slot, faults
0x03. -/
def Obligations.TblrdReadsOrFaults : Prop :=
  ∀ (s : State) (t : TableNo) (r : BitVec 36) (w : BitVec 8) (o : BitVec 4) (n : BitVec 16), s.status.halted = false →
    let i := Instr.tblrd (BitVec.ofNat 12 t) (r ++ w ++ o ++ n)
    let inside := (s.table t).tvalid = true ∧ w.toNat < (s.table t).ntab ∧ o.toNat < 11 ∧ n.toNat ≤ s.cfg.p
    (r = 0 → inside → exec i s = .next (s.reply 0 [(s.table t).word s.cfg.p w.toNat o.toNat n.toNat])) ∧
    (r ≠ 0 → exec i s = .next (s.takeFault .reservedBits i.word)) ∧
    (r = 0 → ¬ inside → exec i s = .next (s.takeFault .badIndex i.word))

/-- TBLINFO returns TVALID[t] and NTAB[t] and changes nothing (41 R179). -/
def Obligations.TblinfoReadsBookkeeping : Prop :=
  ∀ (s : State) (t : TableNo), s.status.halted = false →
    exec (.tblinfo (BitVec.ofNat 12 t)) s =
      .next (s.reply 0 [if (s.table t).tvalid then 1 else 0, BitVec.ofNat 64 (s.table t).ntab])

/-! ### The oscillator and voice commands -/

/-- PHRST puts all seven lanes of the oscillator named at +0.0 (42 R221), TRIGGER all lanes of the three oscillators of
the slot (43 R251); CC, OUT, MIX, the parameter registers and every other oscillator are as before. -/
def Obligations.PhaseResetsComplete : Prop :=
  ∀ (s : State) (sl : BitVec 5), s.status.halted = false →
    (∀ j : OscNo, exec (.phrst sl (BitVec.ofNat 2 j)) s =
      .next ((s.setOsc (slotNo sl) j
        { s.osc (slotNo sl) j with pos := Vector.replicate Config.maxUnison 0 }).reply 0 [])) ∧
    ∃ u : State, exec (.trigger sl) s = .next (u.reply 0 []) ∧
      (∀ (k : SlotNo) (j : OscNo), u.osc k j =
        if k = slotNo sl then { s.osc k j with pos := Vector.replicate Config.maxUnison 0 } else s.osc k j) ∧
      (∀ k, u.mix k = s.mix k) ∧ u.cfg = s.cfg ∧ u.status = s.status ∧ u.tables = s.tables ∧ u.port = s.port

/-- OSCSTEP completes from every legal state when its operands are finite, dt ≥ 0 and no active lane's advance overflows
(42 R210 to R220, R222): the positions, OUT and CC of the oscillator are those of one step from its positions, nothing
else changes, and the answer is OUT and CC. The step, from the words of the slot that WAVETABLE resolves to, is
`steppedTo`: the detune, the advance, the interpolation with its snap, the selection and the blend are written out there. -/
def Obligations.OscstepCompletes : Prop :=
  ∀ (s : State) (sl : BitVec 5) (j : OscNo) (f dt : F64), s.status.halted = false → s.Legal →
    F64.isFinite f = true → F64.isFinite dt = true → F64.lt dt F64.zero = false →
    let o := s.osc (slotNo sl) j
    (∀ i : LaneNo, i.val < o.numVoices.toNat → F64.isFinite (laneAdvance s.cfg f o.voiceSpread dt i.val) = true) →
    ∃ r : StepResult, steppedTo s o o.pos f dt r ∧
      exec (.oscstep sl (BitVec.ofNat 2 j) f dt) s =
        .next ((s.setOsc (slotNo sl) j { o with pos := r.pos, out := r.out, cc := r.cc }).reply 0
          [r.out, if r.cc then 1 else 0])

/-- VOICESTEP completes from every legal state when its operands are finite, dt ≥ 0 and no active lane's advance
overflows (43 R252): the three oscillators are stepped in order, oscillator 1 from all lanes +0.0 when its SYNC is 1 and
oscillator 0 wrapped in this step; the mix is the level-weighted sum, divided by the sum of the levels when that exceeds
1.0; positions, OUT, CC and MIX are written and the answer is the mix and the three flags. -/
def Obligations.VoicestepCompletes : Prop :=
  ∀ (s : State) (sl : BitVec 5) (f : OscNo → F64) (dt : F64), s.status.halted = false → s.Legal →
    (∀ j, F64.isFinite (f j) = true) → F64.isFinite dt = true → F64.lt dt F64.zero = false →
    let o : OscNo → Osc := fun j => s.osc (slotNo sl) j
    (∀ (j : OscNo) (i : LaneNo), i.val < (o j).numVoices.toNat →
      F64.isFinite (laneAdvance s.cfg (f j) (o j).voiceSpread dt i.val) = true) →
    ∃ (r : OscNo → StepResult) (m : F64) (u : State),
      steppedTo s (o 0) (o 0).pos (f 0) dt (r 0) ∧
      steppedTo s (o 1)
        (if (o 1).sync = 1 ∧ (r 0).cc = true then Vector.replicate Config.maxUnison 0 else (o 1).pos) (f 1) dt (r 1) ∧
      steppedTo s (o 2) (o 2).pos (f 2) dt (r 2) ∧
      (let sum := F64.add (F64.add (F64.mul (o 0).level (r 0).out) (F64.mul (o 1).level (r 1).out))
          (F64.mul (o 2).level (r 2).out)
       let levels := F64.add (F64.add (o 0).level (o 1).level) (o 2).level
       m = if F64.lt F64.one levels then F64.div sum levels else sum) ∧
      (∀ (k : SlotNo) (j : OscNo), u.osc k j =
        if k = slotNo sl then { o j with pos := (r j).pos, out := (r j).out, cc := (r j).cc } else s.osc k j) ∧
      (∀ k : SlotNo, u.mix k = if k = slotNo sl then m else s.mix k) ∧
      u.cfg = s.cfg ∧ u.status = s.status ∧ u.tables = s.tables ∧ u.port = s.port ∧
      exec (.voicestep sl (f 0) (f 1) (f 2) dt) s = .next (u.reply 0
        [m, (if (r 0).cc then 1 else 0) + 2 * (if (r 1).cc then 1 else 0) + 4 * (if (r 2).cc then 1 else 0)])

/-- PREVIEW completes from every legal state when f is finite and no active lane's advance overflows (43 R253): its
payload is the N samples of successive steps with dt = 1.0 from lanes at +0.0, and no state changes. -/
def Obligations.PreviewCompletes : Prop :=
  ∀ (s : State) (sl : BitVec 5) (j : OscNo) (n : BitVec 12) (f : F64), s.status.halted = false → s.Legal →
    F64.isFinite f = true →
    let o := s.osc (slotNo sl) j
    (∀ i : LaneNo, i.val < o.numVoices.toNat →
      F64.isFinite (laneAdvance s.cfg f o.voiceSpread F64.one i.val) = true) →
    ∃ (ys : List F64) (q : Nat → Vector F64 Config.maxUnison), ys.length = n.toNat ∧
      q 0 = Vector.replicate Config.maxUnison 0 ∧
      exec (.preview sl (BitVec.ofNat 2 j) n f) s = .next (s.reply 0 ys) ∧
      ∀ k (h : k < ys.length), ∃ r, steppedTo s o (q k) f F64.one r ∧
        ys[k] = r.out ∧ q (k + 1) = r.pos

/-! ### Where commands fault -/

/-- An OSC, FIELD or IMM outside the range of 30_encoding R114 faults 0x03 before any operand is looked at (30_encoding
R112, R130 (c); 60_exceptions R305). That the ranges are checked in exec and not in the decoder is the model's reading
(DEDUCED, log entry 12). A TBLLOAD term whose words are not the ceil(L/8) of its length faults 0x07 before its slot number
is looked at: that clause is the model's own choice (DESIGN CHOICE, log entry 13), since no frame decodes to such a term. -/
def Obligations.OutOfRangeIndexFaults : Prop :=
  ∀ (i : Instr) (s : State), s.status.halted = false → i.wellFormed = false →
    exec i s = .next (s.takeFault
      (match i with
        | .tblload _ len data => if data.length = (len.toNat + 7) / 8 then .badIndex else .frameLength
        | _ => .badIndex) i.word)

/-- OSCSTEP and VOICESTEP fault 0x05 when an operand is an infinity or NaN, then 0x06 when dt < 0; PREVIEW faults 0x05
when f is an infinity or NaN (42 R222; 43 R252, R253; 60_exceptions R305 step 7). -/
def Obligations.StepOperandFaults : Prop :=
  ∀ (s : State) (sl : BitVec 5) (j : OscNo), s.status.halted = false →
    (∀ f dt : F64,
      let i := Instr.oscstep sl (BitVec.ofNat 2 j) f dt
      (F64.isFinite f = false ∨ F64.isFinite dt = false → exec i s = .next (s.takeFault .numeric i.word)) ∧
      (F64.isFinite f = true → F64.isFinite dt = true → F64.lt dt F64.zero = true →
        exec i s = .next (s.takeFault .badOperand i.word))) ∧
    (∀ f0 f1 f2 dt : F64,
      let i := Instr.voicestep sl f0 f1 f2 dt
      (F64.isFinite f0 = false ∨ F64.isFinite f1 = false ∨ F64.isFinite f2 = false ∨ F64.isFinite dt = false →
        exec i s = .next (s.takeFault .numeric i.word)) ∧
      (F64.isFinite f0 = true → F64.isFinite f1 = true → F64.isFinite f2 = true → F64.isFinite dt = true →
        F64.lt dt F64.zero = true → exec i s = .next (s.takeFault .badOperand i.word))) ∧
    (∀ (n : BitVec 12) (f : F64), F64.isFinite f = false →
      exec (.preview sl (BitVec.ofNat 2 j) n f) s =
        .next (s.takeFault .numeric (Instr.preview sl (BitVec.ofNat 2 j) n f).word))

/-- An advance that is not finite faults 0x05 (42 R213; 60_exceptions R300, R305 step 8): from every legal state and with
operands that pass their own checks, one active lane with such an advance is enough for OSCSTEP, for VOICESTEP in any of
the three oscillators, and for a PREVIEW of at least one sample. -/
def Obligations.OverflowFaults : Prop :=
  ∀ (s : State) (sl : BitVec 5) (j : OscNo) (f : OscNo → F64) (dt : F64), s.status.halted = false → s.Legal →
    (∀ k, F64.isFinite (f k) = true) → F64.isFinite dt = true → F64.lt dt F64.zero = false →
    let o := s.osc (slotNo sl) j
    ((∃ i : LaneNo, i.val < o.numVoices.toNat ∧
        F64.isFinite (laneAdvance s.cfg (f j) o.voiceSpread dt i.val) = false) →
      exec (.oscstep sl (BitVec.ofNat 2 j) (f j) dt) s =
        .next (s.takeFault .numeric (Instr.oscstep sl (BitVec.ofNat 2 j) (f j) dt).word) ∧
      exec (.voicestep sl (f 0) (f 1) (f 2) dt) s =
        .next (s.takeFault .numeric (Instr.voicestep sl (f 0) (f 1) (f 2) dt).word)) ∧
    ∀ n : BitVec 12, n ≠ 0 →
      (∃ i : LaneNo, i.val < o.numVoices.toNat ∧
        F64.isFinite (laneAdvance s.cfg (f j) o.voiceSpread F64.one i.val) = false) →
      exec (.preview sl (BitVec.ofNat 2 j) n (f j)) s =
        .next (s.takeFault .numeric (Instr.preview sl (BitVec.ofNat 2 j) n (f j)).word)

/-! ### Frames -/

/-- The frame of WRPARAM (40 R142): of all the registers only the one named can change; every other parameter register,
every position, flag, output and mix, every table word and CFG are as before, and STATUS too but for a fault. -/
def Obligations.WrparamFrame : Prop :=
  ∀ (s t : State) (sl : BitVec 5) (j : BitVec 2) (fld : BitVec 4) (tag : BitVec 3) (v : Word),
    exec (.wrparam sl j fld tag v) s = .next t →
    t.cfg = s.cfg ∧ s.statusKept t (Instr.wrparam sl j fld tag v).word ∧ (∀ k, s.tableKept t k) ∧
    (∀ k, t.mix k = s.mix k) ∧
    ∀ (k : SlotNo) (i : OscNo), (t.osc k i).pos = (s.osc k i).pos ∧ (t.osc k i).cc = (s.osc k i).cc ∧
      (t.osc k i).out = (s.osc k i).out ∧
      ∀ g : Param, ¬(k = slotNo sl ∧ i.val = j.toNat ∧ paramIndex fld = .ok g) →
        (t.osc k i).param g = (s.osc k i).param g

/-- The frame of PHRST and TRIGGER (42 R221; 43 R251): only positions can change, and only of the oscillator or the slot
named; CC, OUT, MIX, the parameter registers, every table word and CFG are as before, and STATUS too but for a fault. -/
def Obligations.PhaseResetFrame : Prop :=
  ∀ (i : Instr) (s t : State) (sl : BitVec 5) (j : BitVec 2), i = .phrst sl j ∨ i = .trigger sl →
    exec i s = .next t →
    t.cfg = s.cfg ∧ s.statusKept t i.word ∧ (∀ k, s.tableKept t k) ∧ (∀ k, t.mix k = s.mix k) ∧
    ∀ (k : SlotNo) (m : OscNo), (t.osc k m).cc = (s.osc k m).cc ∧ (t.osc k m).out = (s.osc k m).out ∧
      (∀ g, (t.osc k m).param g = (s.osc k m).param g) ∧
      (¬(k = slotNo sl ∧ (i = .trigger sl ∨ m.val = j.toNat)) → (t.osc k m).pos = (s.osc k m).pos)

/-- The frame of OSCSTEP (42 R222; 10_state R33, R49): only the active lanes, OUT and CC of the oscillator named can
change; its lanes from NUM_VOICES up, its parameter registers, every other oscillator, every MIX, every table word and CFG
are as before, and STATUS too but for a fault. -/
def Obligations.OscstepFrame : Prop :=
  ∀ (s t : State) (sl : BitVec 5) (j : BitVec 2) (f dt : F64), exec (.oscstep sl j f dt) s = .next t →
    t.cfg = s.cfg ∧ s.statusKept t (Instr.oscstep sl j f dt).word ∧ (∀ k, s.tableKept t k) ∧
    (∀ k, t.mix k = s.mix k) ∧
    ∀ (k : SlotNo) (m : OscNo), (∀ g, (t.osc k m).param g = (s.osc k m).param g) ∧
      (∀ i : LaneNo, (s.osc k m).numVoices.toNat ≤ i.val → (t.osc k m).pos[i] = (s.osc k m).pos[i]) ∧
      (¬(k = slotNo sl ∧ m.val = j.toNat) → t.osc k m = s.osc k m)

/-- The frame of VOICESTEP (43 R252; 10_state R33): only positions, OUT, CC of the slot's three oscillators and its MIX
can change; lanes from NUM_VOICES up stay, but for those of its oscillator 1 when SYNC is on and oscillator 0 wrapped in
this step; the parameter registers, every other slot, every table word and CFG are as before, and STATUS too but for a
fault. -/
def Obligations.VoicestepFrame : Prop :=
  ∀ (s t : State) (sl : BitVec 5) (f0 f1 f2 dt : F64), exec (.voicestep sl f0 f1 f2 dt) s = .next t →
    t.cfg = s.cfg ∧ s.statusKept t (Instr.voicestep sl f0 f1 f2 dt).word ∧ (∀ k, s.tableKept t k) ∧
    (∀ k, k ≠ slotNo sl → t.mix k = s.mix k) ∧
    ∀ (k : SlotNo) (m : OscNo), (∀ g, (t.osc k m).param g = (s.osc k m).param g) ∧
      (∀ i : LaneNo, (s.osc k m).numVoices.toNat ≤ i.val →
        ¬(m = 1 ∧ (s.osc k 1).sync = 1 ∧ (t.osc k 0).cc = true) →
        (t.osc k m).pos[i] = (s.osc k m).pos[i]) ∧
      (k ≠ slotNo sl → t.osc k m = s.osc k m)

/-- The frame of TBLBUILD and TBLLOAD (41 R175, R176): no register of any oscillator, no MIX and no CFG changes, and no
word of any slot but the one named; FAULT, HALTED and FAULTCMD change only by a fault, LOADSTAT and LOADSLOT only by
TBLLOAD. -/
def Obligations.TableCommandFrame : Prop :=
  ∀ (i : Instr) (s t : State) (n : BitVec 12) (len : Word) (data : List Word),
    i = .tblbuild n ∨ i = .tblload n len data → exec i s = .next t →
    t.cfg = s.cfg ∧ t.slots = s.slots ∧ (∀ k : TableNo, k.val ≠ n.toNat → s.tableKept t k) ∧
    ((∃ c, t.status = { s.status with fault := faultByte c, halted := true, faultcmd := i.word }) ∨
      (t.status.fault = s.status.fault ∧ t.status.halted = s.status.halted ∧
        t.status.faultcmd = s.status.faultcmd ∧
        (i = .tblbuild n → t.status = s.status)))

/-! ### The datapath -/

/-- Wrap (42 R214): for every finite x the result lies in [0, P) and is not −0.0; x in [0, P) is kept and not flagged;
any other x is flagged, one at or above P gives the exact remainder, and a negative one the remainder with its sign plus
P, rounded once, or +0.0 when that remainder is zero or the sum rounds to P. -/
def Obligations.WrapReducesPosition : Prop :=
  ∀ (p : Nat) (x : F64), 2 ≤ p → p ≤ 65535 → F64.isFinite x = true →
    let r := wrap p x
    lanePosition p r.1 ∧
    (r.2 = false ↔ F64.le F64.zero x = true ∧ F64.lt x (F64.ofNat p) = true) ∧
    (r.2 = false → F64.toRat r.1 = F64.toRat x) ∧
    (F64.le (F64.ofNat p) x = true → F64.toRat r.1 = F64.toRat x - p * ⌊F64.toRat x / p⌋) ∧
    (F64.lt x F64.zero = true → ∃ q : F64, F64.toRat q = F64.toRat x + p * ⌊-F64.toRat x / p⌋ ∧
      r.1 = if F64.eq q F64.zero || F64.eq (F64.add q (F64.ofNat p)) (F64.ofNat p) then F64.zero
        else F64.add q (F64.ofNat p))

/-- Octave selection (42 R215; 41 R171): the octave chosen for a finite frequency a is the least whose base frequency
F0 * 2^o is at least a, and the top one when there is none. Octave table k has the harmonics 1 to the least of
floor(FS / (2.0 * Fb(k))), one division, and floor((P − 1)/2) (41 R173), where that quotient is finite. -/
def Obligations.OctaveCoversFrequency : Prop :=
  ∀ (c : Config) (a : F64), F64.isFinite a = true →
    let o := octave c a
    o ≤ 10 ∧ (∀ k, k < o → F64.lt (octaveBase c.toParams k) a = true) ∧
    (F64.le a (octaveBase c.toParams o) = true ∨ o = 10) ∧
    (∀ k ≤ 10, F64.isFinite (octaveBase c.toParams k) = true →
      F64.toRat (octaveBase c.toParams k) = F64.toRat c.f0 * 2 ^ k) ∧
    ∀ k, let q := F64.div c.fs (F64.mul F64.two (octaveBase c.toParams k))
      F64.isFinite q = true → (harmonics c.toParams k : ℤ) = min ⌊F64.toRat q⌋ ((c.p - 1) / 2 : ℕ)

/-- Hard sync (43 R252 (b), R255 (d)): after a VOICESTEP with SYNC of oscillator 1 on in which oscillator 0 wrapped,
every active lane of oscillator 1 holds its advance from 0 and every other lane of it +0.0. -/
def Obligations.HardSyncRestartsLanes : Prop :=
  ∀ (s t : State) (sl : BitVec 5) (f0 f1 f2 dt : F64), exec (.voicestep sl f0 f1 f2 dt) s = .next t →
    s.status.halted = false → t.status.halted = false →
    let o := s.osc (slotNo sl) 1
    o.sync = 1 → (t.osc (slotNo sl) 0).cc = true →
    ∀ i : LaneNo, (t.osc (slotNo sl) 1).pos[i] =
      if i.val < o.numVoices.toNat
      then (wrap s.cfg.p (F64.add F64.zero (laneAdvance s.cfg f1 o.voiceSpread dt i.val))).1
      else F64.zero

/-- With hard sync off a VOICESTEP equals three OSCSTEPs followed by the mix (43 R255 (c)): the registers, STATUS and
tables it leaves are those the three OSCSTEPs leave, with MIX then written from the levels and the three outputs. -/
def Obligations.VoicestepIsThreeOscsteps : Prop :=
  ∀ (s t : State) (sl : BitVec 5) (f0 f1 f2 dt : F64), exec (.voicestep sl f0 f1 f2 dt) s = .next t →
    s.status.halted = false → t.status.halted = false →
    let k := slotNo sl
    (s.osc k 1).sync = 0 →
    ∃ t0 t1 t2, exec (.oscstep sl 0 f0 dt) s = .next t0 ∧ exec (.oscstep sl 1 f1 dt) t0 = .next t1 ∧
      exec (.oscstep sl 2 f2 dt) t1 = .next t2 ∧
      (t2.setMix k (mixDown [((s.osc k 0).level, (t2.osc k 0).out), ((s.osc k 1).level, (t2.osc k 1).out),
        ((s.osc k 2).level, (t2.osc k 2).out)])).sameBlock t

/-- OSCSTEP with dt = 0, of either sign, leaves every position unchanged and sets CC to 0 (42 R222, R225 (e)). -/
def Obligations.ZeroDtHoldsPositions : Prop :=
  ∀ (s t : State) (sl : BitVec 5) (j : OscNo) (f dt : F64), s.PositionsLegal → F64.eq dt F64.zero = true →
    exec (.oscstep sl (BitVec.ofNat 2 j) f dt) s = .next t → s.status.halted = false → t.status.halted = false →
    (t.osc (slotNo sl) j).pos = (s.osc (slotNo sl) j).pos ∧ (t.osc (slotNo sl) j).cc = false

/-- Oscillators share nothing but table memory and STATUS (43 R250; 60_exceptions R325): what OSCSTEP answers and leaves
in its oscillator depends on that oscillator's registers, table memory and CFG alone; what PREVIEW answers depends on
NUM_VOICES, VOICE_SPREAD, WAVE_INDEX, WAVETABLE, table memory and CFG alone (43 R253); and what VOICESTEP, which alone
couples oscillators, answers and leaves in its slot depends on the three oscillators of that slot, table memory and CFG
alone (43 R252). -/
def Obligations.OscillatorsAreIndependent : Prop :=
  ∀ (s s' t t' : State) (sl : BitVec 5) (j : OscNo), s'.cfg = s.cfg → s'.tables = s.tables →
    s.status.halted = false → s'.status.halted = false →
    let k := slotNo sl
    let o := s.osc k j
    let o' := s'.osc k j
    let sameAnswer := ∃ header payload, t.port.replies = s.port.replies ++ [⟨s.port.holder, header, payload⟩] ∧
      t'.port.replies = s'.port.replies ++ [⟨s'.port.holder, header, payload⟩]
    (o' = o → ∀ f dt : F64, exec (.oscstep sl (BitVec.ofNat 2 j) f dt) s = .next t →
      exec (.oscstep sl (BitVec.ofNat 2 j) f dt) s' = .next t' →
      sameAnswer ∧ t'.osc k j = t.osc k j) ∧
    (o'.numVoices = o.numVoices → o'.voiceSpread = o.voiceSpread → o'.waveIndex = o.waveIndex →
      o'.wavetable = o.wavetable → ∀ (n : BitVec 12) (f : F64),
      exec (.preview sl (BitVec.ofNat 2 j) n f) s = .next t →
      exec (.preview sl (BitVec.ofNat 2 j) n f) s' = .next t' → sameAnswer) ∧
    ((∀ m, s'.osc k m = s.osc k m) → ∀ f0 f1 f2 dt : F64,
      exec (.voicestep sl f0 f1 f2 dt) s = .next t → exec (.voicestep sl f0 f1 f2 dt) s' = .next t' →
      sameAnswer ∧ (∀ m, t'.osc k m = t.osc k m) ∧ (t.status.halted = false → t'.mix k = t.mix k))

/-- Table resolution (20_memory R79): an id that names a valid slot resolves to it, any other (negative, at least 8, or
an empty slot) to slot 0, which is valid after reset and stays valid in every step, so that the slot read is valid. -/
def Obligations.ResolveNamesValidSlot : Prop :=
  (∀ (s : State) (id : Word), (s.table 0).tvalid = true →
    (s.table (resolve s.tables id)).tvalid = true ∧
    (∀ t : TableNo, id.toInt = t.val → (s.table t).tvalid = true → resolve s.tables id = t) ∧
    ((∀ t : TableNo, id.toInt = t.val → (s.table t).tvalid = false) → resolve s.tables id = 0)) ∧
  (State.reset.table 0).tvalid = true ∧
  (∀ s t : State, (s.table 0).tvalid = true → step s = .next t → (t.table 0).tvalid = true)

/-- What the tolerance of GEN_RAW gives (41 R171, R172, R174, R175, R177): raw samples lie within 1e−9 of the ideal ones,
so that under every configuration whose P is a multiple of 4 every word of every sine table that has a harmonic, the guard
sample n = P among them, is within 2.1e−9 of sin(2πn/P), and its magnitude at most 1.0. -/
def Obligations.SineTableNearIdeal : Prop :=
  ∀ (c : Config) (o n : Nat), 4 ∣ c.p → o < 11 → 1 ≤ harmonics c.toParams o → n ≤ c.p →
    let x := F64.toRat ((TableSlot.holding (defaultSet c.toParams) 4).word c.p 0 o n)
    |(x : ℝ) - Real.sin (2 * Real.pi * n / c.p)| ≤ 21 / 10 ^ 10 ∧ |x| ≤ 1
end

