-- ==== Sys2Proof/Laws/Float.lean ====
section
/-! SUPPORT. The laws of binary64 arithmetic the proofs cite in place of its definitions: the magnitudes are strictly
ordered, rounding is nearest, monotone and exact on representable values, comparison is comparison of exact values. -/

namespace Sys2Proof

/-! ### Magnitudes -/

/-- The magnitude with significand `a` in binade `k`. -/
theorem F64.scale_binade {a k : Nat} (ha : a < 2 ^ 53) (hk : 2 ^ 52 ≤ a ∨ k = 0) :
    F64.scale (k * 2 ^ 52 + a) = a * 2 ^ k := by
  unfold F64.scale
  rcases Nat.lt_or_ge a (2 ^ 52) with h | h
  · have hk0 : k = 0 := by omega
    subst hk0
    rw [if_pos (by omega), pow_zero, Nat.mul_one, Nat.zero_mul, Nat.zero_add]
  · have h1 : ¬ k * 2 ^ 52 + a < 2 ^ 52 := by omega
    have h2 : (k * 2 ^ 52 + a) % 2 ^ 52 = a - 2 ^ 52 := by omega
    have h3 : (k * 2 ^ 52 + a) / 2 ^ 52 = k + 1 := by omega
    have h4 : 2 ^ 52 + (a - 2 ^ 52) = a := by omega
    rw [if_neg h1, h2, h3, h4, Nat.add_sub_cancel]

theorem F64.scale_zero : F64.scale 0 = 0 := by decide

/-- The next magnitude is one unit in the last place away. -/
theorem F64.scale_succ (m : Nat) : F64.scale (m + 1) = F64.scale m + 2 ^ (m / 2 ^ 52 - 1) := by
  obtain ⟨k, a, rfl, ha, hk, hd⟩ : ∃ k a, m = k * 2 ^ 52 + a ∧ a < 2 ^ 53 ∧ (2 ^ 52 ≤ a ∨ k = 0) ∧ m / 2 ^ 52 - 1 = k := by
    rcases Nat.lt_or_ge m (2 ^ 53) with h | h
    · exact ⟨0, m, by omega, h, Or.inr rfl, by omega⟩
    · exact ⟨m / 2 ^ 52 - 1, m % 2 ^ 52 + 2 ^ 52, by omega, by omega, by omega, rfl⟩
  rw [hd, F64.scale_binade ha hk]
  rcases Nat.lt_or_ge (a + 1) (2 ^ 53) with h | h
  · rw [Nat.add_assoc, F64.scale_binade h (by omega)]
    ring
  · have ha' : a = 2 ^ 53 - 1 := by omega
    have : k * 2 ^ 52 + a + 1 = (k + 1) * 2 ^ 52 + 2 ^ 52 := by omega
    rw [this, F64.scale_binade (by decide) (Or.inl (le_refl _)), ha', pow_succ]
    ring

theorem F64.scale_strictMono : StrictMono F64.scale :=
  strictMono_nat_of_lt_succ fun m => by
    rw [F64.scale_succ]
    exact Nat.lt_add_of_pos_right (Nat.two_pow_pos _)

theorem F64.scale_lt {a b : Nat} : F64.scale a < F64.scale b ↔ a < b := F64.scale_strictMono.lt_iff_lt

theorem F64.scale_le {a b : Nat} : F64.scale a ≤ F64.scale b ↔ a ≤ b := F64.scale_strictMono.le_iff_le

theorem F64.scale_inj {a b : Nat} : F64.scale a = F64.scale b ↔ a = b := F64.scale_strictMono.injective.eq_iff

theorem F64.scale_eq_zero {a : Nat} : F64.scale a = 0 ↔ a = 0 := by
  constructor
  · intro h
    exact F64.scale_inj.1 (h.trans F64.scale_zero.symm)
  · rintro rfl
    exact F64.scale_zero

/-- Every number of at most 53 significant bits is a magnitude. -/
theorem F64.exists_scale (k : Nat) : ∀ a, a < 2 ^ 53 → ∃ m, F64.scale m = a * 2 ^ k ∧ m < (k + 2) * 2 ^ 52 := by
  induction k with
  | zero => intro a ha; exact ⟨a, by rw [← F64.scale_binade ha (Or.inr rfl), Nat.zero_mul, Nat.zero_add], by omega⟩
  | succ k ih =>
    intro a ha
    rcases Nat.lt_or_ge a (2 ^ 52) with h | h
    · obtain ⟨m, hm, hlt⟩ := ih (2 * a) (by omega)
      refine ⟨m, ?_, hlt.trans_le (Nat.mul_le_mul_right _ (by omega))⟩
      rw [hm, Nat.mul_comm 2 a, Nat.mul_assoc, ← pow_succ']
    · refine ⟨(k + 1) * 2 ^ 52 + a, F64.scale_binade ha (Or.inl h), ?_⟩
      have : (k + 1 + 2) * 2 ^ 52 = (k + 1) * 2 ^ 52 + 2 ^ 53 := by ring
      omega

/-! ### Rounding -/

/-- What rounding does: the exact value lies in [M, M + 1) in the order of the magnitudes, and the nearer of the two is
taken, the even one at the midpoint. -/
theorem F64.round_spec (num : Nat) {den : Nat} (hden : 0 < den) :
    ∃ M r, F64.scale M * den ≤ num ∧ num < F64.scale (M + 1) * den ∧ F64.round num den = min r F64.infMag ∧
      ((2 * num < (F64.scale M + F64.scale (M + 1)) * den ∧ r = M) ∨
       ((F64.scale M + F64.scale (M + 1)) * den < 2 * num ∧ r = M + 1) ∨
       (2 * num = (F64.scale M + F64.scale (M + 1)) * den ∧ r = M + M % 2)) := by
  obtain ⟨k, hk⟩ : ∃ k, k = Nat.log2 (num / den) - 52 := ⟨_, rfl⟩
  obtain ⟨ulp, hulp⟩ : ∃ u, u = den * 2 ^ k := ⟨_, rfl⟩
  have hupos : 0 < ulp := by rw [hulp]; exact Nat.mul_pos hden (Nat.two_pow_pos _)
  have hm : num / ulp = num / den / 2 ^ k := by rw [hulp, Nat.div_div_eq_div_mul]
  have hrange : num / ulp < 2 ^ 53 ∧ (2 ^ 52 ≤ num / ulp ∨ k = 0) := by
    rw [hm]
    rcases Nat.lt_or_ge (num / den) (2 ^ 53) with hq | hq
    · have hk0 : k = 0 := by
        by_cases h0 : num / den = 0
        · rw [hk, h0]; decide
        · have := (Nat.log2_lt h0).2 hq
          omega
      rw [hk0]
      exact ⟨by simpa using hq, Or.inr rfl⟩
    · have h0 : num / den ≠ 0 := by omega
      have hl : 53 ≤ Nat.log2 (num / den) := (Nat.le_log2 h0).2 hq
      have hlo := Nat.log2_self_le h0
      have hhi := Nat.lt_log2_self (n := num / den)
      have e1 : 2 ^ Nat.log2 (num / den) = 2 ^ 52 * 2 ^ k := by rw [← pow_add]; congr 1; omega
      have e2 : 2 ^ (Nat.log2 (num / den) + 1) = 2 ^ 53 * 2 ^ k := by rw [← pow_add]; congr 1; omega
      refine ⟨?_, Or.inl ?_⟩
      · exact (Nat.div_lt_iff_lt_mul (Nat.two_pow_pos _)).2 (by rw [← e2]; exact hhi)
      · exact (Nat.le_div_iff_mul_le (Nat.two_pow_pos _)).2 (by rw [← e1]; exact hlo)
  obtain ⟨hlt, hbin⟩ := hrange
  have hs : F64.scale (k * 2 ^ 52 + num / ulp) = num / ulp * 2 ^ k := F64.scale_binade hlt hbin
  have hs' : F64.scale (k * 2 ^ 52 + num / ulp + 1) = (num / ulp + 1) * 2 ^ k := by
    rw [F64.scale_succ, hs]
    have : (k * 2 ^ 52 + num / ulp) / 2 ^ 52 - 1 = k := by omega
    rw [this]; ring
  have hdm : ulp * (num / ulp) + num % ulp = num := Nat.div_add_mod num ulp
  have hr : num % ulp < ulp := Nat.mod_lt _ hupos
  have a1 : num / ulp * 2 ^ k * den = ulp * (num / ulp) := by rw [hulp]; ring
  have a2 : (num / ulp + 1) * 2 ^ k * den = ulp * (num / ulp) + ulp := by rw [hulp]; ring
  have hround : F64.round num den =
      min (k * 2 ^ 52 + (if (decide (ulp < 2 * (num % ulp)) ||
        (decide (2 * (num % ulp) = ulp) && decide (num / ulp % 2 = 1))) then num / ulp + 1 else num / ulp)) F64.infMag := by
    subst hk hulp
    rfl
  have hpar : (k * 2 ^ 52 + num / ulp) % 2 = num / ulp % 2 := by omega
  refine ⟨k * 2 ^ 52 + num / ulp, _, ?_, ?_, hround, ?_⟩
  · rw [hs, a1]; omega
  · rw [hs', a2]; omega
  · rw [hs, hs', Nat.add_mul, a1, a2, hpar]
    rcases Nat.lt_trichotomy (2 * (num % ulp)) ulp with h | h | h
    · left
      refine ⟨by omega, ?_⟩
      have h1 : ¬ ulp < 2 * (num % ulp) := by omega
      have h2 : ¬ 2 * (num % ulp) = ulp := by omega
      simp [h1, h2]
    · right; right
      refine ⟨by omega, ?_⟩
      have h1 : ¬ ulp < 2 * (num % ulp) := by omega
      by_cases hp : num / ulp % 2 = 1
      · simp [h, hp, Nat.add_assoc]
      · have hp0 : num / ulp % 2 = 0 := by omega
        simp [h, hp0]
    · right; left
      refine ⟨by omega, ?_⟩
      simp [h, Nat.add_assoc]

theorem F64.round_le_infMag (num den : Nat) : F64.round num den ≤ F64.infMag := by
  unfold F64.round
  exact Nat.min_le_right _ _

/-- Rounding does not pass a magnitude from below. -/
theorem F64.round_le {num den b : Nat} (hden : 0 < den) (h : num ≤ F64.scale b * den) : F64.round num den ≤ b := by
  obtain ⟨M, r, h1, h2, hr, h3⟩ := F64.round_spec num hden
  have hM : M ≤ b := F64.scale_le.1 (Nat.le_of_mul_le_mul_right (h1.trans h) hden)
  have hs : F64.scale M * den < F64.scale (M + 1) * den := Nat.lt_of_le_of_lt h1 h2
  rw [hr]
  refine (Nat.min_le_left _ _).trans ?_
  clear hr
  rcases Nat.lt_or_ge M b with hlt | hge
  · omega
  · obtain rfl : M = b := Nat.le_antisymm hM hge
    rw [Nat.add_mul] at h3
    omega

/-- Rounding does not pass a magnitude from above. -/
theorem F64.le_round {num den b : Nat} (hden : 0 < den) (hb : b ≤ F64.infMag) (h : F64.scale b * den ≤ num) :
    b ≤ F64.round num den := by
  obtain ⟨M, r, -, h2, hr, h3⟩ := F64.round_spec num hden
  have hM : b < M + 1 := F64.scale_lt.1 (Nat.lt_of_mul_lt_mul_right (a := den) (Nat.lt_of_le_of_lt h h2))
  rw [hr]
  exact Nat.le_min.2 ⟨by clear hr; omega, hb⟩

/-- A representable value rounds to itself. -/
theorem F64.round_exact {m den : Nat} (hden : 0 < den) (hm : m ≤ F64.infMag) : F64.round (F64.scale m * den) den = m :=
  Nat.le_antisymm (F64.round_le hden (le_refl _)) (F64.le_round hden hm (le_refl _))

theorem F64.round_scale {m : Nat} (hm : m ≤ F64.infMag) : F64.round (F64.scale m) 1 = m := by
  simpa using F64.round_exact (den := 1) Nat.one_pos hm

theorem F64.round_zero {den : Nat} (hden : 0 < den) : F64.round 0 den = 0 := by
  have := F64.round_exact (m := 0) hden (by decide)
  simpa [F64.scale_zero] using this

/-- Rounding is monotone in the exact value. -/
theorem F64.round_mono {a b den : Nat} (hden : 0 < den) (h : a ≤ b) : F64.round a den ≤ F64.round b den := by
  obtain ⟨M, r, h1, h2, hr, h3⟩ := F64.round_spec a hden
  obtain ⟨N, q, g1, g2, hq, g3⟩ := F64.round_spec b hden
  have hMN : M < N + 1 :=
    F64.scale_lt.1 (Nat.lt_of_mul_lt_mul_right (a := den) (Nat.lt_of_le_of_lt (h1.trans h) g2))
  rw [hr, hq]
  have hrq : r ≤ q := by
    clear hr hq
    rcases Nat.lt_or_ge M N with hlt | hge
    · omega
    · obtain rfl : M = N := by omega
      omega
  exact Nat.le_min.2 ⟨(Nat.min_le_left _ _).trans hrq, Nat.min_le_right _ _⟩

/-- A value below the midpoint of the largest finite magnitude and the next binade does not overflow. -/
theorem F64.round_lt_infMag {num den : Nat} (hden : 0 < den)
    (h : 2 * num < (F64.scale (F64.infMag - 1) + F64.scale F64.infMag) * den) : F64.round num den < F64.infMag := by
  have hinf : F64.infMag - 1 + 1 = F64.infMag := by decide
  obtain ⟨M, r, h1, -, hr, h3⟩ := F64.round_spec num hden
  rw [hr]
  refine Nat.lt_of_le_of_lt (Nat.min_le_left _ _) ?_
  clear hr
  generalize F64.infMag = I at *
  have hM : M < I := by
    by_contra hge
    have l1 : F64.scale I * den ≤ num := (Nat.mul_le_mul_right _ (F64.scale_le.2 (by omega))).trans h1
    have l2 : F64.scale (I - 1) * den ≤ F64.scale I * den := Nat.mul_le_mul_right _ (F64.scale_le.2 (by omega))
    rw [Nat.add_mul] at h
    omega
  rcases Nat.lt_or_ge M (I - 1) with hlt | hge
  · omega
  · obtain rfl : M = I - 1 := by omega
    rw [hinf] at h3
    omega

/-! ### Patterns -/

theorem F64.infMag_lt : F64.infMag < 2 ^ 63 := by decide

theorem F64.mag_lt (x : F64) : F64.mag x < 2 ^ 63 := Nat.mod_lt _ (by decide)

theorem F64.toNat_make {neg : Bool} {m : Nat} (hm : m < 2 ^ 63) :
    (F64.make neg m).toNat = if neg then 2 ^ 63 + m else m := by
  unfold F64.make
  rw [BitVec.toNat_ofNat]
  cases neg <;> simp <;> omega

theorem F64.mag_make {neg : Bool} {m : Nat} (hm : m < 2 ^ 63) : F64.mag (F64.make neg m) = m := by
  unfold F64.mag
  rw [F64.toNat_make hm]
  cases neg <;> simp <;> omega

theorem F64.sign_make {neg : Bool} {m : Nat} (hm : m < 2 ^ 63) : F64.sign (F64.make neg m) = neg := by
  unfold F64.sign
  rw [F64.toNat_make hm]
  cases neg <;> simp <;> omega

/-- A pattern is its sign and its magnitude fields. -/
theorem F64.make_sign_mag (x : F64) : F64.make (F64.sign x) (F64.mag x) = x := by
  apply BitVec.eq_of_toNat_eq
  rw [F64.toNat_make (F64.mag_lt x)]
  unfold F64.sign F64.mag
  have := x.isLt
  simp only [decide_eq_true_eq]
  split <;> omega

theorem F64.ext_sign_mag {x y : F64} (hs : F64.sign x = F64.sign y) (hm : F64.mag x = F64.mag y) : x = y := by
  rw [← F64.make_sign_mag x, ← F64.make_sign_mag y, hs, hm]

theorem F64.scaled_make {neg : Bool} {m : Nat} (hm : m < 2 ^ 63) :
    F64.scaled (F64.make neg m) = if neg then -(F64.scale m : Int) else (F64.scale m : Int) := by
  unfold F64.scaled
  rw [F64.sign_make hm, F64.mag_make hm]

theorem F64.isFinite_iff {x : F64} : F64.isFinite x = true ↔ F64.mag x < F64.infMag := by
  simp [F64.isFinite]

theorem F64.not_isNaN_of_isFinite {x : F64} (h : F64.isFinite x = true) : F64.isNaN x = false := by
  have := F64.isFinite_iff.1 h
  simp [F64.isNaN]
  omega

theorem F64.not_isInf_of_isFinite {x : F64} (h : F64.isFinite x = true) : F64.isInf x = false := by
  have := F64.isFinite_iff.1 h
  simp [F64.isInf]
  omega

theorem F64.natAbs_scaled (x : F64) : (F64.scaled x).natAbs = F64.scale (F64.mag x) := by
  unfold F64.scaled
  split <;> simp

/-- The order of the patterns is the order of the exact values. -/
theorem F64.ord_le_ord (x y : F64) : F64.ord x ≤ F64.ord y ↔ F64.scaled x ≤ F64.scaled y := by
  have hz : ∀ m, F64.scale m = 0 ↔ m = 0 := fun m => F64.scale_eq_zero
  have h1 := F64.scale_le (a := F64.mag x) (b := F64.mag y)
  have h2 := F64.scale_le (a := F64.mag y) (b := F64.mag x)
  have hx := hz (F64.mag x)
  have hy := hz (F64.mag y)
  unfold F64.ord F64.scaled
  split <;> split <;> omega

theorem F64.ord_lt_ord (x y : F64) : F64.ord x < F64.ord y ↔ F64.scaled x < F64.scaled y := by
  rw [← not_le, ← not_le, F64.ord_le_ord]

theorem F64.le_iff {x y : F64} (hx : F64.isFinite x = true) (hy : F64.isFinite y = true) :
    F64.le x y = true ↔ F64.scaled x ≤ F64.scaled y := by
  simp [F64.le, F64.not_isNaN_of_isFinite hx, F64.not_isNaN_of_isFinite hy, F64.ord_le_ord]

theorem F64.lt_iff {x y : F64} (hx : F64.isFinite x = true) (hy : F64.isFinite y = true) :
    F64.lt x y = true ↔ F64.scaled x < F64.scaled y := by
  simp [F64.lt, F64.not_isNaN_of_isFinite hx, F64.not_isNaN_of_isFinite hy, F64.ord_lt_ord]

theorem F64.eq_iff {x y : F64} (hx : F64.isFinite x = true) (hy : F64.isFinite y = true) :
    F64.eq x y = true ↔ F64.scaled x = F64.scaled y := by
  have h1 := F64.ord_le_ord x y
  have h2 := F64.ord_le_ord y x
  simp [F64.eq, F64.not_isNaN_of_isFinite hx, F64.not_isNaN_of_isFinite hy]
  omega

theorem F64.scaled_zero : F64.scaled F64.zero = 0 := by decide

theorem F64.isFinite_zero : F64.isFinite F64.zero = true := by decide

theorem F64.isFinite_make {neg : Bool} {m : Nat} (hm : m < F64.infMag) : F64.isFinite (F64.make neg m) = true := by
  rw [F64.isFinite_iff, F64.mag_make (by have := F64.infMag_lt; omega)]
  exact hm

/-! ### Small integers -/

theorem F64.ofNat_mag {n : Nat} (hn : n < 2 ^ 53) :
    ∃ m, m < F64.infMag ∧ F64.scale m = n * 2 ^ 1074 ∧ F64.ofNat n = F64.make false m := by
  obtain ⟨m, hm, hlt⟩ := F64.exists_scale 1074 n hn
  have hlt' : m < F64.infMag := Nat.lt_of_lt_of_le hlt (by decide)
  refine ⟨m, hlt', hm, ?_⟩
  unfold F64.ofNat
  rw [← hm, F64.round_scale hlt'.le]

theorem F64.isFinite_ofNat {n : Nat} (hn : n < 2 ^ 53) : F64.isFinite (F64.ofNat n) = true := by
  obtain ⟨m, hm, -, h⟩ := F64.ofNat_mag hn
  rw [h]
  exact F64.isFinite_make hm

/-- `f64(i)` of a small integer is exact (00_scope R12). -/
theorem F64.scaled_ofNat {n : Nat} (hn : n < 2 ^ 53) : F64.scaled (F64.ofNat n) = n * 2 ^ 1074 := by
  obtain ⟨m, hm, hs, h⟩ := F64.ofNat_mag hn
  rw [h, F64.scaled_make (by have := F64.infMag_lt; omega), hs, if_neg (by decide)]
  simp only [Nat.cast_mul, Nat.cast_pow, Nat.cast_ofNat]

/-! ### Sums -/

theorem F64.add_eq {x y : F64} (hx : F64.isFinite x = true) (hy : F64.isFinite y = true) :
    F64.add x y =
      if F64.scaled x + F64.scaled y = 0 then F64.make (F64.sign x && F64.sign y) 0
      else F64.make (decide (F64.scaled x + F64.scaled y < 0)) (F64.round (F64.scaled x + F64.scaled y).natAbs 1) := by
  simp [F64.add, F64.not_isNaN_of_isFinite hx, F64.not_isNaN_of_isFinite hy, F64.not_isInf_of_isFinite hx,
    F64.not_isInf_of_isFinite hy]

/-- A sum that is representable is exact. -/
theorem F64.scaled_add_exact {x y : F64} (hx : F64.isFinite x = true) (hy : F64.isFinite y = true) {m : Nat}
    (hm : m < F64.infMag) (h : (F64.scaled x + F64.scaled y).natAbs = F64.scale m) :
    F64.isFinite (F64.add x y) = true ∧ F64.scaled (F64.add x y) = F64.scaled x + F64.scaled y := by
  have h63 : m < 2 ^ 63 := by have := F64.infMag_lt; omega
  rw [F64.add_eq hx hy]
  split
  · next h0 =>
    refine ⟨F64.isFinite_make (by decide), ?_⟩
    rw [F64.scaled_make (by decide), h0, F64.scale_zero]
    simp
  · rw [h, F64.round_scale hm.le]
    refine ⟨F64.isFinite_make hm, ?_⟩
    rw [F64.scaled_make h63, ← h]
    split
    · next hd => simp at hd; omega
    · next hd => simp at hd; omega

theorem F64.scaled_neg (x : F64) : F64.scaled (F64.neg x) = -F64.scaled x := by
  unfold F64.neg
  rw [F64.scaled_make (F64.mag_lt x)]
  unfold F64.scaled
  cases F64.sign x <;> simp

theorem F64.isFinite_neg {x : F64} (hx : F64.isFinite x = true) : F64.isFinite (F64.neg x) = true :=
  F64.isFinite_make (F64.isFinite_iff.1 hx)

end Sys2Proof
end

