-- ==== Sys2Proof/Laws/Numeric.lean ====
section
/-! SUPPORT. What the binary64 operations of Machine/Float.lean give on finite values: the rational value and its order,
floor, fmod, products and quotients, and sums that stay finite. -/

namespace Sys2Proof

/-! ### The rational value -/

theorem F64.toRat_le {x y : F64} : F64.toRat x ≤ F64.toRat y ↔ F64.scaled x ≤ F64.scaled y := by
  unfold F64.toRat
  have h : (0 : ℚ) < 2 ^ 1074 := by positivity
  rw [div_le_div_iff_of_pos_right h, Int.cast_le]

theorem F64.toRat_lt {x y : F64} : F64.toRat x < F64.toRat y ↔ F64.scaled x < F64.scaled y := by
  rw [← not_le, ← not_le, F64.toRat_le]

theorem F64.toRat_inj {x y : F64} : F64.toRat x = F64.toRat y ↔ F64.scaled x = F64.scaled y := by
  rw [le_antisymm_iff, le_antisymm_iff, F64.toRat_le, F64.toRat_le]

theorem F64.toRat_zero : F64.toRat F64.zero = 0 := by
  unfold F64.toRat
  rw [F64.scaled_zero]
  simp

theorem F64.toRat_ofNat {n : Nat} (hn : n < 2 ^ 53) : F64.toRat (F64.ofNat n) = n := by
  unfold F64.toRat
  have h : (2 : ℚ) ^ 1074 ≠ 0 := by positivity
  rw [F64.scaled_ofNat hn, div_eq_iff h, Int.cast_mul, Int.cast_pow, Int.cast_natCast, Int.cast_ofNat]

/-- The floor of a finite value is the floor of its rational value (00_scope R12). -/
theorem F64.floor_eq {x : F64} (hx : F64.isFinite x = true) : F64.floor x = some ⌊F64.toRat x⌋ := by
  unfold F64.floor F64.toRat
  rw [if_pos hx]
  have h : ((2 : ℚ) ^ 1074) = ((2 ^ 1074 : ℕ) : ℚ) := by
    rw [Nat.cast_pow, Nat.cast_ofNat]
  rw [h, Rat.floor_intCast_div_natCast, Nat.cast_pow, Nat.cast_ofNat]

/-- The floor of a value in [0, n). -/
theorem F64.floor_of_range {x : F64} {n : Nat} (hx : F64.isFinite x = true) (h0 : 0 ≤ F64.scaled x)
    (h : F64.scaled x < n * 2 ^ 1074) : ∃ i : Nat, i < n ∧ F64.floor x = some (i : Int) := by
  have hd : (0 : Int) < 2 ^ 1074 := by positivity
  have h1 : 0 ≤ F64.scaled x / 2 ^ 1074 := Int.ediv_nonneg h0 hd.le
  have h2 : F64.scaled x / 2 ^ 1074 < n := Int.ediv_lt_of_lt_mul hd h
  unfold F64.floor
  rw [if_pos hx]
  generalize F64.scaled x / 2 ^ 1074 = q at *
  exact ⟨q.toNat, by omega, by rw [Int.toNat_of_nonneg h1]⟩

/-- The floor of a value in [0, n] is n only at n itself. -/
theorem F64.floor_of_range_top {x : F64} {n : Nat} (hx : F64.isFinite x = true) (h0 : 0 ≤ F64.scaled x)
    (h : F64.scaled x ≤ n * 2 ^ 1074) :
    ∃ i : Nat, i ≤ n ∧ F64.floor x = some (i : Int) ∧ (i = n → F64.scaled x = n * 2 ^ 1074) := by
  have hd : (0 : Int) < 2 ^ 1074 := by positivity
  have h1 : 0 ≤ F64.scaled x / 2 ^ 1074 := Int.ediv_nonneg h0 hd.le
  have h2 : F64.scaled x / 2 ^ 1074 ≤ n := Int.ediv_le_of_le_mul hd h
  have h3 : F64.scaled x / 2 ^ 1074 * 2 ^ 1074 ≤ F64.scaled x := Int.ediv_mul_le _ hd.ne'
  unfold F64.floor
  rw [if_pos hx]
  generalize F64.scaled x / 2 ^ 1074 = q at *
  refine ⟨q.toNat, by omega, by rw [Int.toNat_of_nonneg h1], fun e => le_antisymm h ?_⟩
  have hq : q = n := by omega
  rwa [hq] at h3

/-- A finite value that is not −0.0 is known by its exact value. -/
theorem F64.eq_of_scaled {x y : F64} (hx : x ≠ F64.negZero) (hy : y ≠ F64.negZero)
    (h : F64.scaled x = F64.scaled y) : x = y := by
  have hm : F64.mag x = F64.mag y := by
    have := congrArg Int.natAbs h
    rwa [F64.natAbs_scaled, F64.natAbs_scaled, F64.scale_inj] at this
  have nz : ∀ {z : F64}, F64.sign z = true → F64.mag z = 0 → z = F64.negZero := fun {z} h1 h2 => by
    rw [← F64.make_sign_mag z, h1, h2]; decide
  by_cases h0 : F64.mag x = 0
  · have sx : F64.sign x = false := by
      cases hs : F64.sign x with
      | false => rfl
      | true => exact absurd (nz hs h0) hx
    have sy : F64.sign y = false := by
      cases hs : F64.sign y with
      | false => rfl
      | true => exact absurd (nz hs (hm ▸ h0)) hy
    exact F64.ext_sign_mag (sx.trans sy.symm) hm
  · have h1 : F64.scale (F64.mag x) ≠ 0 := fun e => h0 (F64.scale_eq_zero.1 e)
    refine F64.ext_sign_mag ?_ hm
    unfold F64.scaled at h
    rw [← hm] at h
    cases hs : F64.sign x <;> cases ht : F64.sign y <;> simp only [hs, ht, if_true] at h ⊢ <;>
      simp at h <;> omega

theorem F64.scaled_eq_zero {x : F64} : F64.scaled x = 0 ↔ F64.mag x = 0 := by
  rw [← Int.natAbs_eq_zero, F64.natAbs_scaled, F64.scale_eq_zero]

/-- A value minus the integer it equals is a zero. -/
theorem F64.sub_ofNat_eq_zero {x : F64} {n : Nat} (hx : F64.isFinite x = true) (hn : n < 2 ^ 53)
    (h : F64.scaled x = n * 2 ^ 1074) : F64.eq (F64.sub x (F64.ofNat n)) F64.zero = true := by
  have hs : F64.scaled x + F64.scaled (F64.neg (F64.ofNat n)) = 0 := by
    rw [F64.scaled_neg, F64.scaled_ofNat hn, h, add_neg_cancel]
  obtain ⟨g1, g2⟩ := F64.scaled_add_exact hx (F64.isFinite_neg (F64.isFinite_ofNat hn)) (m := 0) (by decide)
    (by rw [hs, F64.scale_zero]; rfl)
  unfold F64.sub
  rw [F64.eq_iff g1 F64.isFinite_zero, g2, hs, F64.scaled_zero]

/-- A small integer other than 0 as a pattern: positive, finite, its exact magnitude. -/
theorem F64.ofNat_fields {n : Nat} (hn : n < 2 ^ 53) : F64.sign (F64.ofNat n) = false ∧
    F64.scale (F64.mag (F64.ofNat n)) = n * 2 ^ 1074 ∧ (F64.mag (F64.ofNat n) = 0 ↔ n = 0) := by
  obtain ⟨m, hm, hs, h⟩ := F64.ofNat_mag hn
  have h63 : m < 2 ^ 63 := hm.trans F64.infMag_lt
  rw [h, F64.sign_make h63, F64.mag_make h63]
  refine ⟨rfl, hs, ?_⟩
  rw [← F64.scale_eq_zero, hs]
  have hp : 0 < 2 ^ 1074 := Nat.two_pow_pos 1074
  rw [Nat.mul_eq_zero]
  omega

/-- A value between two finite values is finite. -/
theorem F64.isFinite_of_between {lo hi v : F64} (hlo : F64.isFinite lo = true) (hhi : F64.isFinite hi = true)
    (h1 : F64.le lo v = true) (h2 : F64.le v hi = true) : F64.isFinite v = true := by
  simp only [F64.le, Bool.and_eq_true, decide_eq_true_eq] at h1 h2
  have h3 := h1.2
  have h4 := h2.2
  clear h1 h2
  rw [F64.isFinite_iff] at *
  unfold F64.ord at h3 h4
  revert h3 h4
  generalize F64.infMag = I at *
  split <;> split <;> split <;> intro h3 h4 <;> omega

theorem F64.le_of_lt {x y : F64} (h : F64.lt x y = true) : F64.le x y = true := by
  simp only [F64.le, F64.lt, Bool.and_eq_true, decide_eq_true_eq] at h ⊢
  exact ⟨h.1, h.2.le⟩

/-! ### Remainders -/

/-- A magnitude as at most 53 bits at the place of its binade. -/
theorem F64.scale_eq (m : Nat) : ∃ a, a < 2 ^ 53 ∧ F64.scale m = a * 2 ^ (m / 2 ^ 52 - 1) := by
  by_cases h : m < 2 ^ 52
  · refine ⟨m, by omega, ?_⟩
    rw [F64.scale, if_pos h, Nat.div_eq_of_lt h]
    simp
  · refine ⟨2 ^ 52 + m % 2 ^ 52, ?_, ?_⟩
    · have := Nat.mod_lt m (y := 2 ^ 52) (by decide)
      omega
    · rw [F64.scale, if_neg h]

/-- The remainder of two magnitudes is a magnitude (00_scope R12: binary64 represents fmod exactly). -/
theorem F64.scale_mod (a : Nat) {b : Nat} (hb : b ≠ 0) :
    ∃ m, F64.scale m = F64.scale a % F64.scale b ∧ m < b := by
  have hb0 : 0 < F64.scale b := Nat.pos_of_ne_zero fun h => hb (F64.scale_eq_zero.1 h)
  rcases Nat.lt_or_ge a b with h | h
  · exact ⟨a, (Nat.mod_eq_of_lt (F64.scale_lt.2 h)).symm, h⟩
  · obtain ⟨A, -, hA'⟩ := F64.scale_eq a
    obtain ⟨B, hB, hB'⟩ := F64.scale_eq b
    have hk : b / 2 ^ 52 - 1 ≤ a / 2 ^ 52 - 1 := Nat.sub_le_sub_right (Nat.div_le_div_right h) 1
    have e : F64.scale a % F64.scale b =
        (A * 2 ^ (a / 2 ^ 52 - 1 - (b / 2 ^ 52 - 1)) % B) * 2 ^ (b / 2 ^ 52 - 1) := by
      rw [hB', hA', ← Nat.mul_mod_mul_right, Nat.mul_assoc, ← Nat.pow_add, Nat.sub_add_cancel hk]
    have hB0 : 0 < B := Nat.pos_of_ne_zero fun h0 => by rw [hB', h0, Nat.zero_mul] at hb0; exact absurd hb0 (by decide)
    obtain ⟨m, hm, -⟩ := F64.exists_scale (b / 2 ^ 52 - 1)
      (A * 2 ^ (a / 2 ^ 52 - 1 - (b / 2 ^ 52 - 1)) % B) ((Nat.mod_lt _ hB0).trans hB)
    refine ⟨m, hm.trans e.symm, F64.scale_lt.1 ?_⟩
    rw [hm, ← e]
    exact Nat.mod_lt _ hb0

/-- `fmod` is exact: the magnitude is the remainder of the magnitudes, the sign that of the dividend. -/
theorem F64.fmod_spec {x y : F64} (hx : F64.isFinite x = true) (hy : F64.isFinite y = true) (h0 : F64.mag y ≠ 0) :
    ∃ m, m < F64.mag y ∧ F64.scale m = F64.scale (F64.mag x) % F64.scale (F64.mag y) ∧
      F64.fmod x y = F64.make (F64.sign x) m := by
  obtain ⟨m, hm, hlt⟩ := F64.scale_mod (F64.mag x) h0
  refine ⟨m, hlt, hm, ?_⟩
  unfold F64.fmod
  rw [hx, hy, decide_eq_true h0, Bool.and_self, Bool.and_self, if_pos rfl, ← hm, F64.round_scale]
  have := F64.isFinite_iff.1 hy
  omega

/-! ### Sums that stay finite -/

/-- The distance from the largest finite magnitude to the next binade. -/
theorem F64.scale_top : F64.scale F64.infMag = F64.scale (F64.infMag - 1) + 2 ^ 2045 := by
  have h : F64.infMag = (F64.infMag - 1) + 1 := by decide
  have h2 : (F64.infMag - 1) / 2 ^ 52 - 1 = 2045 := by decide
  rw [h, F64.scale_succ, ← h, h2]

/-- A finite value plus one below 2^17 in magnitude does not overflow (42 R220). -/
theorem F64.isFinite_add_small {x y : F64} (hx : F64.isFinite x = true) (hy : F64.isFinite y = true)
    (h : (F64.scaled x).natAbs ≤ 2 ^ 17 * 2 ^ 1074) : F64.isFinite (F64.add x y) = true := by
  rw [F64.add_eq hx hy]
  split
  · exact F64.isFinite_make (by decide)
  · refine F64.isFinite_make (F64.round_lt_infMag Nat.one_pos ?_)
    have hy2 : F64.mag y ≤ F64.infMag - 1 := by have := F64.isFinite_iff.1 hy; omega
    have hy3 : (F64.scaled y).natAbs ≤ F64.scale (F64.infMag - 1) := by
      rw [F64.natAbs_scaled]
      exact F64.scale_le.2 hy2
    have hsum := Int.natAbs_add_le (F64.scaled x) (F64.scaled y)
    have h17 : 2 * (2 ^ 17 * 2 ^ 1074) < 2 ^ 2045 := by
      rw [show 2 * (2 ^ 17 * 2 ^ 1074) = 2 ^ 1092 by rw [← Nat.pow_add, ← Nat.pow_succ']]
      exact Nat.pow_lt_pow_right (by decide) (by decide)
    rw [F64.scale_top]
    generalize F64.scale (F64.infMag - 1) = T at *
    generalize (2 : Nat) ^ 2045 = D at *
    generalize 2 ^ 17 * 2 ^ 1074 = E at *
    clear hy2
    omega

/-! ### Products and quotients -/

/-- A finite value times a zero is a zero. -/
theorem F64.mul_zero {x y : F64} (hx : F64.isFinite x = true) (hy : F64.mag y = 0) :
    F64.mul x y = F64.make (F64.sign x != F64.sign y) 0 := by
  have hyf : F64.isFinite y = true := F64.isFinite_iff.2 (by rw [hy]; decide)
  unfold F64.mul
  simp only [F64.not_isNaN_of_isFinite hx, F64.not_isNaN_of_isFinite hyf, F64.not_isInf_of_isFinite hx,
    F64.not_isInf_of_isFinite hyf, hy, F64.scale_zero, Nat.mul_zero]
  rw [F64.round_zero (Nat.two_pow_pos 1074)]
  simp

/-- An infinity or NaN times a zero is not finite. -/
theorem F64.mul_not_finite_zero {x y : F64} (hx : F64.isFinite x = false) (hy : F64.mag y = 0) :
    F64.isFinite (F64.mul x y) = false := by
  unfold F64.mul
  split
  · decide
  · rename_i h
    simp only [Bool.or_eq_true, not_or, Bool.not_eq_true] at h
    have hi : F64.isInf x = true := by
      simp only [F64.isFinite, F64.isInf, F64.isNaN, decide_eq_false_iff_not, decide_eq_true_eq] at *
      omega
    rw [hi, hy]
    simp only [Bool.true_or, if_true, decide_true, Bool.or_true]
    decide

theorem F64.div_eq {x y : F64} (hx : F64.isFinite x = true) (hy : F64.isFinite y = true) (h0 : F64.mag y ≠ 0) :
    F64.div x y = F64.make (F64.sign x != F64.sign y)
      (F64.round (F64.scale (F64.mag x) * 2 ^ 1074) (F64.scale (F64.mag y))) := by
  unfold F64.div
  simp only [F64.not_isNaN_of_isFinite hx, F64.not_isNaN_of_isFinite hy, F64.not_isInf_of_isFinite hx,
    F64.not_isInf_of_isFinite hy, h0]
  simp

theorem F64.scale_one : F64.scale (F64.mag F64.one) = 2 ^ 1074 := by
  have h : F64.scale (F64.mag F64.one) = 2 ^ 52 * 2 ^ 1022 := by decide +kernel
  rw [h, ← Nat.pow_add]

/-- A finite value divided by one of at least its magnitude has magnitude at most 1, and exactly 1 when the magnitudes
are equal (41 R172). -/
theorem F64.mag_div_le_one {x y : F64} (hx : F64.isFinite x = true) (hy : F64.isFinite y = true) (h0 : F64.mag y ≠ 0)
    (h : F64.mag x ≤ F64.mag y) : F64.mag (F64.div x y) ≤ F64.mag F64.one ∧
      (F64.mag x = F64.mag y → F64.mag (F64.div x y) = F64.mag F64.one) := by
  have hpos : 0 < F64.scale (F64.mag y) := Nat.pos_of_ne_zero fun e => h0 (F64.scale_eq_zero.1 e)
  have h1 : F64.mag F64.one ≤ F64.infMag := by decide
  have hr : F64.round (F64.scale (F64.mag y) * 2 ^ 1074) (F64.scale (F64.mag y)) = F64.mag F64.one := by
    rw [Nat.mul_comm, ← F64.scale_one]
    exact F64.round_exact hpos h1
  have hle : F64.round (F64.scale (F64.mag x) * 2 ^ 1074) (F64.scale (F64.mag y)) ≤ F64.mag F64.one := by
    rw [← hr]
    exact F64.round_mono hpos (Nat.mul_le_mul_right _ (F64.scale_le.2 h))
  rw [F64.div_eq hx hy h0, F64.mag_make (by have := F64.mag_lt F64.one; omega)]
  exact ⟨hle, fun e => by rw [e, hr]⟩

/-- A magnitude is finite where its number is, and not negative. -/
theorem F64.abs_spec {x : F64} (hx : F64.isFinite x = true) :
    F64.isFinite (F64.abs x) = true ∧ F64.scaled (F64.abs x) = F64.scale (F64.mag x) := by
  refine ⟨F64.isFinite_make (F64.isFinite_iff.1 hx), ?_⟩
  rw [F64.abs, F64.scaled_make (F64.mag_lt x), if_neg Bool.false_ne_true]

end Sys2Proof
end

