-- ==== Sys2Proof/Laws/State.lean ====
section
/-! SUPPORT. One lemma per field per update of the state, and reading back what an update wrote. -/

namespace Sys2Proof.Machine

/-! `State.reply`. -/

@[simp] theorem State.reply_cfg (s : State) (h : Word) (p : List Word) : (s.reply h p).cfg = s.cfg := rfl
@[simp] theorem State.reply_slots (s : State) (h : Word) (p : List Word) : (s.reply h p).slots = s.slots := rfl
@[simp] theorem State.reply_status (s : State) (h : Word) (p : List Word) : (s.reply h p).status = s.status := rfl
@[simp] theorem State.reply_tables (s : State) (h : Word) (p : List Word) : (s.reply h p).tables = s.tables := rfl
@[simp] theorem State.reply_holder (s : State) (h : Word) (p : List Word) :
    (s.reply h p).port.holder = s.port.holder := rfl
@[simp] theorem State.reply_current (s : State) (h : Word) (p : List Word) :
    (s.reply h p).port.current = s.port.current := rfl
@[simp] theorem State.reply_render (s : State) (h : Word) (p : List Word) :
    (s.reply h p).port.render = s.port.render := rfl
@[simp] theorem State.reply_control (s : State) (h : Word) (p : List Word) :
    (s.reply h p).port.control = s.port.control := rfl
@[simp] theorem State.reply_grants (s : State) (h : Word) (p : List Word) :
    (s.reply h p).port.grants = s.port.grants := rfl
@[simp] theorem State.reply_replies (s : State) (h : Word) (p : List Word) :
    (s.reply h p).port.replies = s.port.replies ++ [⟨s.port.holder, h, p⟩] := rfl
@[simp] theorem State.reply_osc (s : State) (h : Word) (p : List Word) (sl : SlotNo) (j : OscNo) :
    (s.reply h p).osc sl j = s.osc sl j := rfl
@[simp] theorem State.reply_mix (s : State) (h : Word) (p : List Word) (sl : SlotNo) :
    (s.reply h p).mix sl = s.mix sl := rfl
@[simp] theorem State.reply_table (s : State) (h : Word) (p : List Word) (t : TableNo) :
    (s.reply h p).table t = s.table t := rfl

/-! `State.setOsc`. -/

@[simp] theorem State.setOsc_cfg (s : State) (sl : SlotNo) (j : OscNo) (o : Osc) : (s.setOsc sl j o).cfg = s.cfg := rfl
@[simp] theorem State.setOsc_status (s : State) (sl : SlotNo) (j : OscNo) (o : Osc) :
    (s.setOsc sl j o).status = s.status := rfl
@[simp] theorem State.setOsc_tables (s : State) (sl : SlotNo) (j : OscNo) (o : Osc) :
    (s.setOsc sl j o).tables = s.tables := rfl
@[simp] theorem State.setOsc_port (s : State) (sl : SlotNo) (j : OscNo) (o : Osc) :
    (s.setOsc sl j o).port = s.port := rfl
@[simp] theorem State.setOsc_table (s : State) (sl : SlotNo) (j : OscNo) (o : Osc) (t : TableNo) :
    (s.setOsc sl j o).table t = s.table t := rfl

/-- Reading an oscillator after one was written. -/
theorem State.osc_setOsc (s : State) (sl sl' : SlotNo) (j j' : OscNo) (o : Osc) :
    (s.setOsc sl j o).osc sl' j' = if sl' = sl ∧ j' = j then o else s.osc sl' j' := by
  rcases sl with ⟨a, ha⟩
  rcases sl' with ⟨b, hb⟩
  by_cases h : b = a
  · subst h
    simp [State.osc, State.setOsc, Vector.getElem_set, Fin.ext_iff, eq_comm]
  · simp [State.osc, State.setOsc, Fin.ext_iff, h, eq_comm (a := a)]

@[simp] theorem State.osc_setOsc_self (s : State) (sl : SlotNo) (j : OscNo) (o : Osc) :
    (s.setOsc sl j o).osc sl j = o := by rw [State.osc_setOsc, if_pos ⟨rfl, rfl⟩]

theorem State.osc_setOsc_of_ne (s : State) {sl sl' : SlotNo} {j j' : OscNo} (o : Osc) (h : ¬(sl' = sl ∧ j' = j)) :
    (s.setOsc sl j o).osc sl' j' = s.osc sl' j' := by rw [State.osc_setOsc, if_neg h]

@[simp] theorem State.setOsc_mix (s : State) (sl sl' : SlotNo) (j : OscNo) (o : Osc) :
    (s.setOsc sl j o).mix sl' = s.mix sl' := by
  simp only [State.mix, State.setOsc, Fin.getElem_fin, Vector.getElem_set]
  split
  · rename_i h; simp only [h]
  · rfl

/-! `State.setMix`. -/

@[simp] theorem State.setMix_cfg (s : State) (sl : SlotNo) (m : F64) : (s.setMix sl m).cfg = s.cfg := rfl
@[simp] theorem State.setMix_status (s : State) (sl : SlotNo) (m : F64) : (s.setMix sl m).status = s.status := rfl
@[simp] theorem State.setMix_tables (s : State) (sl : SlotNo) (m : F64) : (s.setMix sl m).tables = s.tables := rfl
@[simp] theorem State.setMix_port (s : State) (sl : SlotNo) (m : F64) : (s.setMix sl m).port = s.port := rfl
@[simp] theorem State.setMix_table (s : State) (sl : SlotNo) (m : F64) (t : TableNo) :
    (s.setMix sl m).table t = s.table t := rfl

theorem State.mix_setMix (s : State) (sl sl' : SlotNo) (m : F64) :
    (s.setMix sl m).mix sl' = if sl' = sl then m else s.mix sl' := by
  simp only [State.mix, State.setMix, Fin.getElem_fin, Vector.getElem_set, Fin.ext_iff, eq_comm]
  split <;> rfl

@[simp] theorem State.setMix_osc (s : State) (sl sl' : SlotNo) (j : OscNo) (m : F64) :
    (s.setMix sl m).osc sl' j = s.osc sl' j := by
  simp only [State.osc, State.setMix, Fin.getElem_fin, Vector.getElem_set]
  split
  · rename_i h; simp only [h]
  · rfl

/-! `State.setStatus`. -/

@[simp] theorem State.setStatus_cfg (s : State) (st : Status) : (s.setStatus st).cfg = s.cfg := rfl
@[simp] theorem State.setStatus_slots (s : State) (st : Status) : (s.setStatus st).slots = s.slots := rfl
@[simp] theorem State.setStatus_status (s : State) (st : Status) : (s.setStatus st).status = st := rfl
@[simp] theorem State.setStatus_tables (s : State) (st : Status) : (s.setStatus st).tables = s.tables := rfl
@[simp] theorem State.setStatus_port (s : State) (st : Status) : (s.setStatus st).port = s.port := rfl
@[simp] theorem State.setStatus_osc (s : State) (st : Status) (sl : SlotNo) (j : OscNo) :
    (s.setStatus st).osc sl j = s.osc sl j := rfl
@[simp] theorem State.setStatus_mix (s : State) (st : Status) (sl : SlotNo) :
    (s.setStatus st).mix sl = s.mix sl := rfl
@[simp] theorem State.setStatus_table (s : State) (st : Status) (t : TableNo) :
    (s.setStatus st).table t = s.table t := rfl

/-! `State.writeSlot`. -/

@[simp] theorem State.writeSlot_cfg (s : State) (t : TableNo) (img : List F64) (k : Nat) :
    (s.writeSlot t img k).cfg = s.cfg := rfl
@[simp] theorem State.writeSlot_slots (s : State) (t : TableNo) (img : List F64) (k : Nat) :
    (s.writeSlot t img k).slots = s.slots := rfl
@[simp] theorem State.writeSlot_status (s : State) (t : TableNo) (img : List F64) (k : Nat) :
    (s.writeSlot t img k).status = s.status := rfl
@[simp] theorem State.writeSlot_port (s : State) (t : TableNo) (img : List F64) (k : Nat) :
    (s.writeSlot t img k).port = s.port := rfl
@[simp] theorem State.writeSlot_osc (s : State) (t : TableNo) (img : List F64) (k : Nat) (sl : SlotNo) (j : OscNo) :
    (s.writeSlot t img k).osc sl j = s.osc sl j := rfl
@[simp] theorem State.writeSlot_mix (s : State) (t : TableNo) (img : List F64) (k : Nat) (sl : SlotNo) :
    (s.writeSlot t img k).mix sl = s.mix sl := rfl

theorem State.table_writeSlot (s : State) (t t' : TableNo) (img : List F64) (k : Nat) :
    (s.writeSlot t img k).table t' = if t' = t then TableSlot.holding img k else s.table t' := by
  simp only [State.table, State.writeSlot, Fin.getElem_fin, Vector.getElem_set, Fin.ext_iff, eq_comm]

@[simp] theorem State.table_writeSlot_self (s : State) (t : TableNo) (img : List F64) (k : Nat) :
    (s.writeSlot t img k).table t = TableSlot.holding img k := by rw [State.table_writeSlot, if_pos rfl]

/-! `State.takeFault`, `State.ignore`, `State.rejectFrame`. -/

@[simp] theorem State.takeFault_cfg (s : State) (c : FaultCode) (cw : CmdWord) : (s.takeFault c cw).cfg = s.cfg := rfl
@[simp] theorem State.takeFault_slots (s : State) (c : FaultCode) (cw : CmdWord) :
    (s.takeFault c cw).slots = s.slots := rfl
@[simp] theorem State.takeFault_status (s : State) (c : FaultCode) (cw : CmdWord) :
    (s.takeFault c cw).status = s.status.withFault c cw := rfl
@[simp] theorem State.takeFault_tables (s : State) (c : FaultCode) (cw : CmdWord) :
    (s.takeFault c cw).tables = s.tables := rfl
@[simp] theorem State.takeFault_port (s : State) (c : FaultCode) (cw : CmdWord) :
    (s.takeFault c cw).port = (s.reply (faultHeader c) []).port := rfl
@[simp] theorem State.takeFault_osc (s : State) (c : FaultCode) (cw : CmdWord) (sl : SlotNo) (j : OscNo) :
    (s.takeFault c cw).osc sl j = s.osc sl j := rfl
@[simp] theorem State.takeFault_mix (s : State) (c : FaultCode) (cw : CmdWord) (sl : SlotNo) :
    (s.takeFault c cw).mix sl = s.mix sl := rfl
@[simp] theorem State.takeFault_table (s : State) (c : FaultCode) (cw : CmdWord) (t : TableNo) :
    (s.takeFault c cw).table t = s.table t := rfl
@[simp] theorem State.ignore_cfg (s : State) : s.ignore.cfg = s.cfg := rfl
@[simp] theorem State.ignore_slots (s : State) : s.ignore.slots = s.slots := rfl
@[simp] theorem State.ignore_status (s : State) : s.ignore.status = s.status := rfl
@[simp] theorem State.ignore_tables (s : State) : s.ignore.tables = s.tables := rfl
@[simp] theorem State.ignore_port (s : State) : s.ignore.port = (s.reply ignoredHeader []).port := rfl
@[simp] theorem State.ignore_osc (s : State) (sl : SlotNo) (j : OscNo) : s.ignore.osc sl j = s.osc sl j := rfl
@[simp] theorem State.ignore_mix (s : State) (sl : SlotNo) : s.ignore.mix sl = s.mix sl := rfl
@[simp] theorem State.ignore_table (s : State) (t : TableNo) : s.ignore.table t = s.table t := rfl

/-! `Status.withFault`, `Status.withLoad`. -/

@[simp] theorem Status.withFault_fault (st : Status) (c : FaultCode) (cw : CmdWord) :
    (st.withFault c cw).fault = faultByte c := rfl
@[simp] theorem Status.withFault_halted (st : Status) (c : FaultCode) (cw : CmdWord) :
    (st.withFault c cw).halted = true := rfl
@[simp] theorem Status.withFault_faultcmd (st : Status) (c : FaultCode) (cw : CmdWord) :
    (st.withFault c cw).faultcmd = cw := rfl
@[simp] theorem Status.withFault_loadstat (st : Status) (c : FaultCode) (cw : CmdWord) :
    (st.withFault c cw).loadstat = st.loadstat := rfl
@[simp] theorem Status.withFault_loadslot (st : Status) (c : FaultCode) (cw : CmdWord) :
    (st.withFault c cw).loadslot = st.loadslot := rfl
@[simp] theorem Status.withLoad_fault (st : Status) (c : BitVec 4) (t : BitVec 12) :
    (st.withLoad c t).fault = st.fault := rfl
@[simp] theorem Status.withLoad_halted (st : Status) (c : BitVec 4) (t : BitVec 12) :
    (st.withLoad c t).halted = st.halted := rfl
@[simp] theorem Status.withLoad_faultcmd (st : Status) (c : BitVec 4) (t : BitVec 12) :
    (st.withLoad c t).faultcmd = st.faultcmd := rfl
@[simp] theorem Status.withLoad_loadstat (st : Status) (c : BitVec 4) (t : BitVec 12) :
    (st.withLoad c t).loadstat = c := rfl
@[simp] theorem Status.withLoad_loadslot (st : Status) (c : BitVec 4) (t : BitVec 12) :
    (st.withLoad c t).loadslot = t := rfl

/-! `State.resetOf`, `State.resetSequence`. -/

@[simp] theorem State.resetOf_cfg (c : Config) : (State.resetOf c).cfg = c := rfl
@[simp] theorem State.resetOf_status (c : Config) : (State.resetOf c).status = Status.reset := rfl
@[simp] theorem State.resetOf_tables (c : Config) : (State.resetOf c).tables = resetTables c := rfl
@[simp] theorem State.resetOf_port (c : Config) : (State.resetOf c).port = Port.idle := rfl
@[simp] theorem State.resetOf_osc (c : Config) (sl : SlotNo) (j : OscNo) : (State.resetOf c).osc sl j = Osc.reset := by
  simp [State.resetOf, State.osc, Slot.reset]
@[simp] theorem State.resetOf_mix (c : Config) (sl : SlotNo) : (State.resetOf c).mix sl = F64.zero := by
  simp [State.resetOf, State.mix, Slot.reset]

/-- Table memory after reset: the built-in set in slot 0, nothing elsewhere. -/
theorem State.resetOf_table (c : Config) (t : TableNo) :
    (State.resetOf c).table t =
      if t = 0 then TableSlot.holding (defaultSet c.toParams) Config.numDefaultWaves else TableSlot.empty := by
  simp only [State.table, State.resetOf, resetTables, Fin.getElem_fin, Vector.getElem_set, Vector.getElem_replicate]
  by_cases h : t = 0
  · subst h; rfl
  · rw [if_neg h, if_neg (fun c => h (Fin.ext c.symm))]

@[simp] theorem State.resetSequence_cfg (s : State) : s.resetSequence.cfg = s.cfg := rfl
@[simp] theorem State.resetSequence_status (s : State) : s.resetSequence.status = Status.reset := rfl
@[simp] theorem State.resetSequence_tables (s : State) : s.resetSequence.tables = resetTables s.cfg := rfl
@[simp] theorem State.resetSequence_port (s : State) : s.resetSequence.port = s.port := rfl
@[simp] theorem State.resetSequence_osc (s : State) (sl : SlotNo) (j : OscNo) :
    s.resetSequence.osc sl j = Osc.reset := State.resetOf_osc s.cfg sl j
@[simp] theorem State.resetSequence_mix (s : State) (sl : SlotNo) : s.resetSequence.mix sl = F64.zero :=
  State.resetOf_mix s.cfg sl
@[simp] theorem State.resetSequence_table (s : State) (t : TableNo) :
    s.resetSequence.table t = (State.resetOf s.cfg).table t := rfl

/-! Oscillator updates. -/

@[simp] theorem Osc.phaseReset_pos (o : Osc) : o.phaseReset.pos = zeroLanes := rfl
@[simp] theorem Osc.phaseReset_cc (o : Osc) : o.phaseReset.cc = o.cc := rfl
@[simp] theorem Osc.phaseReset_out (o : Osc) : o.phaseReset.out = o.out := rfl
@[simp] theorem Osc.phaseReset_param (o : Osc) (f : Param) : o.phaseReset.param f = o.param f := by cases f <;> rfl
@[simp] theorem Osc.stepped_pos (o : Osc) (p : Vector F64 Config.maxUnison) (y : F64) (c : Bool) :
    (o.stepped p y c).pos = p := rfl
@[simp] theorem Osc.stepped_out (o : Osc) (p : Vector F64 Config.maxUnison) (y : F64) (c : Bool) :
    (o.stepped p y c).out = y := rfl
@[simp] theorem Osc.stepped_cc (o : Osc) (p : Vector F64 Config.maxUnison) (y : F64) (c : Bool) :
    (o.stepped p y c).cc = c := rfl
@[simp] theorem Osc.stepped_param (o : Osc) (p : Vector F64 Config.maxUnison) (y : F64) (c : Bool) (f : Param) :
    (o.stepped p y c).param f = o.param f := by cases f <;> rfl
@[simp] theorem Osc.setParam_pos (o : Osc) (f : Param) (v : Word) : (o.setParam f v).pos = o.pos := by cases f <;> rfl
@[simp] theorem Osc.setParam_cc (o : Osc) (f : Param) (v : Word) : (o.setParam f v).cc = o.cc := by cases f <;> rfl
@[simp] theorem Osc.setParam_out (o : Osc) (f : Param) (v : Word) : (o.setParam f v).out = o.out := by cases f <;> rfl

/-- Reading a parameter after one was written. -/
theorem Osc.param_setParam (o : Osc) (f g : Param) (v : Word) :
    (o.setParam f v).param g = if g = f then v else o.param g := by cases f <;> cases g <;> rfl

@[simp] theorem zeroLanes_get (i : LaneNo) : zeroLanes[i] = F64.zero := by simp [zeroLanes]

/-! TRIGGER and VOICESTEP: what each writes, by register (43 R251, R252). -/

@[simp] theorem State.triggerSlot_cfg (s : State) (sl : SlotNo) : (s.triggerSlot sl).cfg = s.cfg := rfl
@[simp] theorem State.triggerSlot_status (s : State) (sl : SlotNo) : (s.triggerSlot sl).status = s.status := rfl
@[simp] theorem State.triggerSlot_tables (s : State) (sl : SlotNo) : (s.triggerSlot sl).tables = s.tables := rfl
@[simp] theorem State.triggerSlot_port (s : State) (sl : SlotNo) : (s.triggerSlot sl).port = s.port := rfl
@[simp] theorem State.triggerSlot_table (s : State) (sl : SlotNo) (t : TableNo) :
    (s.triggerSlot sl).table t = s.table t := rfl

/-- Every oscillator of the slot has its phase reset, every other one is as it was. -/
theorem State.osc_triggerSlot (s : State) (sl k : SlotNo) (j : OscNo) :
    (s.triggerSlot sl).osc k j = if k = sl then (s.osc k j).phaseReset else s.osc k j := by
  by_cases h : k = sl
  · subst h; simp [State.triggerSlot, State.osc]
  · have h' : sl.val ≠ k.val := fun e => h (Fin.ext e.symm)
    simp [State.triggerSlot, State.osc, h, h']

@[simp] theorem State.mix_triggerSlot (s : State) (sl k : SlotNo) : (s.triggerSlot sl).mix k = s.mix k := by
  by_cases h : k = sl
  · subst h; simp [State.triggerSlot, State.mix]
  · have h' : sl.val ≠ k.val := fun e => h (Fin.ext e.symm)
    simp [State.triggerSlot, State.mix, h']

/-- What no write of an oscillator changes, the writes of a VOICESTEP's results do not change. -/
theorem State.voiceFold_keeps {α : Type} (g : State → α) (hg : ∀ t sl j o, g (State.setOsc t sl j o) = g t)
    (sl : SlotNo) (f : OscNo × StepResult → Osc) (rs : List (OscNo × StepResult)) (s : State) :
    g (rs.foldl (fun t r => t.setOsc sl r.1 (f r)) s) = g s := by
  induction rs generalizing s with
  | nil => rfl
  | cons r rest ih => rw [List.foldl_cons, ih, hg]

@[simp] theorem State.voiceWrite_cfg (s : State) (sl : SlotNo) (rs : List (OscNo × StepResult)) (m : F64) :
    (s.voiceWrite sl rs m).cfg = s.cfg := State.voiceFold_keeps State.cfg (fun _ _ _ _ => rfl) ..
@[simp] theorem State.voiceWrite_status (s : State) (sl : SlotNo) (rs : List (OscNo × StepResult)) (m : F64) :
    (s.voiceWrite sl rs m).status = s.status := State.voiceFold_keeps State.status (fun _ _ _ _ => rfl) ..
@[simp] theorem State.voiceWrite_tables (s : State) (sl : SlotNo) (rs : List (OscNo × StepResult)) (m : F64) :
    (s.voiceWrite sl rs m).tables = s.tables := State.voiceFold_keeps State.tables (fun _ _ _ _ => rfl) ..
@[simp] theorem State.voiceWrite_port (s : State) (sl : SlotNo) (rs : List (OscNo × StepResult)) (m : F64) :
    (s.voiceWrite sl rs m).port = s.port := State.voiceFold_keeps State.port (fun _ _ _ _ => rfl) ..
@[simp] theorem State.voiceWrite_table (s : State) (sl : SlotNo) (rs : List (OscNo × StepResult)) (m : F64)
    (t : TableNo) : (s.voiceWrite sl rs m).table t = s.table t :=
  congrArg (fun ts => ts[t]) (State.voiceWrite_tables s sl rs m)

theorem State.mix_voiceWrite (s : State) (sl k : SlotNo) (rs : List (OscNo × StepResult)) (m : F64) :
    (s.voiceWrite sl rs m).mix k = if k = sl then m else s.mix k := by
  unfold State.voiceWrite
  rw [State.mix_setMix, State.voiceFold_keeps (fun t => t.mix k) (fun t sl j o => State.setOsc_mix ..)]

/-- The three oscillators of the slot hold their results, every other one is as it was. -/
theorem State.osc_voiceWrite (s : State) (sl k : SlotNo) (r0 r1 r2 : StepResult) (m : F64) (j : OscNo) :
    (s.voiceWrite sl [(0, r0), (1, r1), (2, r2)] m).osc k j = if k = sl then
      (if j = 0 then (s.osc k j).stepped r0.pos r0.out r0.cc
       else if j = 1 then (s.osc k j).stepped r1.pos r1.out r1.cc
       else if j = 2 then (s.osc k j).stepped r2.pos r2.out r2.cc else s.osc k j) else s.osc k j := by
  simp only [State.voiceWrite, List.foldl_cons, List.foldl_nil, State.setMix_osc, State.osc_setOsc]
  by_cases h : k = sl
  · subst h
    by_cases h2 : j = 2
    · subst h2; simp
    by_cases h1 : j = 1
    · subst h1; simp
    by_cases h0 : j = 0
    · subst h0; simp
    simp [h0, h1, h2]
  · simp [h]

/-! Two states with the same registers, flags and port are the same. -/

/-- The slots of a state are given by its oscillators and mixes. -/
theorem State.slots_ext {s t : State} (ho : ∀ sl j, t.osc sl j = s.osc sl j) (hm : ∀ sl, t.mix sl = s.mix sl) :
    t.slots = s.slots := by
  apply Vector.ext
  intro n hn
  have h1 : t.slots[n].osc = s.slots[n].osc := by
    apply Vector.ext
    intro k hk
    exact ho ⟨n, hn⟩ ⟨k, hk⟩
  have h2 : t.slots[n].mix = s.slots[n].mix := hm ⟨n, hn⟩
  cases hs : s.slots[n]; cases ht : t.slots[n]
  simp_all

end Sys2Proof.Machine
end

