-- ==== Sys2Proof/Laws/Memory.lean ====
section
/-! SUPPORT. Table memory: what a read gives after a buffer was written, the canonical form, and the images of
Machine/Generator.lean read by (waveshape, octave, sample). -/

namespace Sys2Proof.Machine

/-! The canonical form. -/

theorem Memory.wfFrom_mono {lo lo' : Nat} (h : lo' ≤ lo) : ∀ {m : Memory}, m.wfFrom lo = true → m.wfFrom lo' = true
  | [], _ => rfl
  | (b, w) :: rest, hm => by
    simp only [Memory.wfFrom, Bool.and_eq_true, decide_eq_true_eq] at hm ⊢
    exact ⟨⟨by omega, hm.1.2⟩, hm.2⟩

theorem Memory.ofWords_wfFrom : ∀ (k : Nat) (ws : List Word), (Memory.ofWords k ws).wfFrom k = true
  | _, [] => rfl
  | k, w :: ws => by
    simp only [Memory.ofWords]
    split
    · exact Memory.wfFrom_mono (Nat.le_succ k) (Memory.ofWords_wfFrom (k + 1) ws)
    · rename_i h
      simp only [Memory.wfFrom, Bool.and_eq_true, decide_eq_true_eq]
      exact ⟨⟨Nat.le_refl k, h⟩, Memory.ofWords_wfFrom (k + 1) ws⟩

/-- A buffer is stored in canonical form. -/
theorem Memory.ofWords_wf (ws : List Word) : (Memory.ofWords 0 ws).wf = true := Memory.ofWords_wfFrom 0 ws

theorem Memory.read_of_wfFrom_lt : ∀ {m : Memory} {lo a : Nat}, m.wfFrom lo = true → a < lo → m.read a = Memory.unlisted
  | [], _, _, _, _ => rfl
  | (b, w) :: rest, lo, a, hm, ha => by
    simp only [Memory.wfFrom, Bool.and_eq_true, decide_eq_true_eq] at hm
    simp only [Memory.read]
    rw [if_neg (by omega)]
    exact Memory.read_of_wfFrom_lt hm.2 (by omega)

/-- Two canonical memories that read alike are the same list. -/
theorem Memory.ext_read : ∀ {m m' : Memory} {lo : Nat}, m.wfFrom lo = true → m'.wfFrom lo = true →
    (∀ a, m.read a = m'.read a) → m = m'
  | [], [], _, _, _, _ => rfl
  | [], (b, w) :: r, lo, _, h', he => by
    have := he b
    simp only [Memory.wfFrom, Bool.and_eq_true, decide_eq_true_eq] at h'
    simp only [Memory.read, if_true] at this
    exact absurd this.symm h'.1.2
  | (b, w) :: r, [], lo, h, _, he => by
    have := he b
    simp only [Memory.wfFrom, Bool.and_eq_true, decide_eq_true_eq] at h
    simp only [Memory.read, if_true] at this
    exact absurd this h.1.2
  | (b, w) :: r, (b', w') :: r', lo, h, h', he => by
    simp only [Memory.wfFrom, Bool.and_eq_true, decide_eq_true_eq] at h h'
    have hb : b = b' := by
      rcases Nat.lt_trichotomy b b' with hl | hl | hl
      · have := he b
        simp only [Memory.read, if_true] at this
        rw [if_neg (by omega), Memory.read_of_wfFrom_lt h'.2 (by omega)] at this
        exact absurd this h.1.2
      · exact hl
      · have := he b'
        simp only [Memory.read, if_true] at this
        rw [if_neg (by omega), Memory.read_of_wfFrom_lt h.2 (by omega)] at this
        exact absurd this.symm h'.1.2
    subst hb
    have hw : w = w' := by simpa [Memory.read] using he b
    subst hw
    have hr : r = r' := by
      apply Memory.ext_read h.2 h'.2
      intro a
      by_cases ha : a = b
      · subst ha
        rw [Memory.read_of_wfFrom_lt h.2 (by omega), Memory.read_of_wfFrom_lt h'.2 (by omega)]
      · simpa [Memory.read, ha] using he a
    rw [hr]

/-! Reading a written buffer. -/

theorem Memory.read_ofWords : ∀ (ws : List Word) (k n : Nat),
    (Memory.ofWords k ws).read (k + n) = ws.getD n Memory.unlisted
  | [], _, _ => by simp [Memory.ofWords, Memory.read]
  | w :: ws, k, 0 => by
    simp only [Memory.ofWords, Nat.add_zero, List.getD_cons_zero]
    split
    · rename_i h
      rw [Memory.read_of_wfFrom_lt (Memory.ofWords_wfFrom (k + 1) ws) (Nat.lt_succ_self k), h]
    · simp [Memory.read]
  | w :: ws, k, n + 1 => by
    have ih := Memory.read_ofWords ws (k + 1) n
    rw [show k + 1 + n = k + (n + 1) by omega] at ih
    simp only [Memory.ofWords, List.getD_cons_succ]
    split
    · exact ih
    · simp only [Memory.read]
      rw [if_neg (by omega)]
      exact ih

/-- A word of a slot just written is the word of the image at that offset. -/
theorem TableSlot.holding_read (img : List F64) (k a : Nat) :
    (TableSlot.holding img k).words.read a = img.getD a F64.zero := by
  have := Memory.read_ofWords img 0 a
  rwa [Nat.zero_add] at this

@[simp] theorem TableSlot.holding_tvalid (img : List F64) (k : Nat) : (TableSlot.holding img k).tvalid = true := rfl
@[simp] theorem TableSlot.holding_ntab (img : List F64) (k : Nat) : (TableSlot.holding img k).ntab = k := rfl
@[simp] theorem TableSlot.empty_tvalid : TableSlot.empty.tvalid = false := rfl
@[simp] theorem TableSlot.empty_ntab : TableSlot.empty.ntab = 0 := rfl

theorem TableSlot.holding_wf (img : List F64) (k : Nat) : (TableSlot.holding img k).words.wf = true :=
  Memory.ofWords_wf img

theorem TableSlot.empty_wf : TableSlot.empty.words.wf = true := rfl

/-! A list made of blocks of one length, by block and place. -/

theorem getD_flatMap_blocks {α : Type} {f : Nat → List α} {d : α} {len : Nat} (hf : ∀ i, (f i).length = len) :
    ∀ (n start i k : Nat), i < n → k < len →
      ((List.range' start n).flatMap f).getD (i * len + k) d = (f (start + i)).getD k d
  | 0, _, _, _, hi, _ => absurd hi (Nat.not_lt_zero _)
  | n + 1, start, 0, k, _, hk => by
    rw [List.range'_succ, List.flatMap_cons, Nat.zero_mul, Nat.zero_add, Nat.add_zero start,
      List.getD_append _ _ _ _ (by rw [hf]; exact hk)]
  | n + 1, start, i + 1, k, hi, hk => by
    have e : (i + 1) * len + k = len + (i * len + k) := by rw [Nat.succ_mul]; omega
    rw [List.range'_succ, List.flatMap_cons, List.getD_append_right _ _ _ _ (by rw [hf, e]; omega), hf, e,
      Nat.add_sub_cancel_left, getD_flatMap_blocks hf n (start + 1) i k (by omega) hk]
    congr 2
    omega

theorem getD_range_flatMap {α : Type} {f : Nat → List α} {d : α} {len : Nat} (hf : ∀ i, (f i).length = len)
    {n i k : Nat} (hi : i < n) (hk : k < len) :
    ((List.range n).flatMap f).getD (i * len + k) d = (f i).getD k d := by
  have := getD_flatMap_blocks (d := d) hf n 0 i k hi hk
  rwa [Nat.zero_add, ← List.range_eq_range'] at this

theorem length_range_flatMap {α : Type} {f : Nat → List α} {len : Nat} (hf : ∀ i, (f i).length = len) (n : Nat) :
    ((List.range n).flatMap f).length = n * len := by
  rw [List.length_flatMap]
  simp only [hf]
  simp

/-- The flatten of equal blocks is a flatMap over a range. -/
theorem flatten_replicate_eq {α : Type} (n : Nat) (l : List α) :
    (List.replicate n l).flatten = (List.range n).flatMap fun _ => l := by
  induction n with
  | zero => rfl
  | succ n ih => rw [List.replicate_succ', List.flatten_append, ih, List.range_succ, List.flatMap_append]; simp

/-! Octave tables and images. -/

theorem normalize_length (a : List F64) : (normalize a).length = a.length := by
  unfold normalize
  split <;> simp

theorem octaveTable_length {a : List F64} (h : a ≠ []) : (octaveTable a).length = a.length + 1 := by
  unfold octaveTable
  rw [List.length_append, List.length_take, normalize_length]
  have := List.length_pos_iff.mpr h
  omega

/-- Sample n of an octave table, below the guard. -/
theorem octaveTable_getD {a : List F64} {n : Nat} (hn : n < a.length) (d : F64) :
    (octaveTable a).getD n d = (normalize a).getD n d := by
  unfold octaveTable
  rw [List.getD_append _ _ _ _ (by rw [normalize_length]; exact hn)]

/-- The guard sample of an octave table is its sample 0. -/
theorem octaveTable_guard {a : List F64} (h : a ≠ []) (d : F64) :
    (octaveTable a).getD a.length d = (octaveTable a).getD 0 d := by
  have hl := normalize_length a
  have hp := List.length_pos_iff.mpr h
  rw [octaveTable_getD hp]
  unfold octaveTable
  rw [List.getD_append_right _ _ _ _ (by omega), hl, Nat.sub_self]
  cases hn : normalize a with
  | nil => rw [hn] at hl; simp at hl; omega
  | cons x xs => simp

/-- The raw samples of one octave table. -/
def rawTable (c : Params) (w o : Nat) : List F64 := (List.range c.p).map fun n => genRaw c w o n

@[simp] theorem rawTable_length (c : Params) (w o : Nat) : (rawTable c w o).length = c.p := by simp [rawTable]

theorem rawTable_getD {c : Params} {n : Nat} (w o : Nat) (hn : n < c.p) (d : F64) :
    (rawTable c w o).getD n d = genRaw c w o n := by
  simp [rawTable, List.getD_eq_getElem?_getD, hn]

theorem two_le_p (c : Config) : 2 ≤ c.p := by
  have := c.ok
  simp only [Params.valid, Bool.and_eq_true, decide_eq_true_eq] at this
  exact this.1.1.1.1.1.1.1.1.1

theorem p_le (c : Config) : c.p ≤ 65535 := by
  have := c.ok
  simp only [Params.valid, Bool.and_eq_true, decide_eq_true_eq] at this
  exact this.1.1.1.1.1.1.1.1.2

theorem rawTable_ne_nil (c : Config) (w o : Nat) : rawTable c.toParams w o ≠ [] := by
  have := two_le_p c
  intro h
  have hl := rawTable_length c.toParams w o
  rw [h] at hl
  simp at hl
  omega

theorem defaultSet_eq (c : Params) : defaultSet c =
    (List.range Config.numDefaultWaves).flatMap fun w =>
      (List.range Config.numOct).flatMap fun o => octaveTable (rawTable c w o) := rfl

/-- Word (w, o, n) of `DefaultSet()`. -/
theorem defaultSet_getD (c : Config) {w o n : Nat} (hw : w < Config.numDefaultWaves) (ho : o < Config.numOct)
    (hn : n ≤ c.p) (d : F64) :
    (defaultSet c.toParams).getD (wordOffset c.p w o n) d = (octaveTable (rawTable c.toParams w o)).getD n d := by
  have hlen : ∀ w o, (octaveTable (rawTable c.toParams w o)).length = c.p + 1 := fun w o => by
    rw [octaveTable_length (rawTable_ne_nil c w o), rawTable_length]
  have e : wordOffset c.p w o n = w * (Config.numOct * (c.p + 1)) + (o * (c.p + 1) + n) := by
    unfold wordOffset; ring
  have hk : o * (c.p + 1) + n < Config.numOct * (c.p + 1) := by
    calc o * (c.p + 1) + n < o * (c.p + 1) + (c.p + 1) := by omega
      _ = (o + 1) * (c.p + 1) := by ring
      _ ≤ Config.numOct * (c.p + 1) := Nat.mul_le_mul_right _ ho
  rw [defaultSet_eq, e, getD_range_flatMap (fun w => length_range_flatMap (hlen w) _) hw hk,
    getD_range_flatMap (hlen w) ho (by omega)]

/-- The samples of one waveshape of a loaded file. -/
def fileTable (p w : Nat) (v : List F64) : List F64 := (v.drop (w * p)).take p

theorem fileTable_length {p w k : Nat} {v : List F64} (hv : v.length = k * p) (hw : w < k) :
    (fileTable p w v).length = p := by
  have : (w + 1) * p ≤ k * p := Nat.mul_le_mul_right _ hw
  have : (w + 1) * p = w * p + p := Nat.succ_mul w p
  simp [fileTable, hv]
  omega

/-- A list of blocks of one length by block and place, where only the blocks listed have that length. -/
theorem getD_range_flatMap_lt {α : Type} {f : Nat → List α} {d : α} {len n : Nat} (hf : ∀ i < n, (f i).length = len)
    {i k : Nat} (hi : i < n) (hk : k < len) :
    ((List.range n).flatMap f).getD (i * len + k) d = (f i).getD k d := by
  let g : Nat → List α := fun i => if i < n then f i else List.replicate len d
  have hg : ∀ i, (g i).length = len := fun i => by
    by_cases h : i < n
    · simp [g, h, hf i h]
    · simp [g, h]
  have e : (List.range n).flatMap f = (List.range n).flatMap g := by
    simp only [List.flatMap_def]
    congr 1
    apply List.map_congr_left
    intro a ha
    simp [g, List.mem_range.mp ha]
  rw [e, getD_range_flatMap hg hi hk]
  simp [g, hi]

/-- Word (w, o, n) of `LoadedSet(k, v)`: every octave holds the same table. -/
theorem loadedSet_getD {p k : Nat} {v : List F64} (hp : 0 < p) (hv : v.length = k * p) {w o n : Nat} (hw : w < k)
    (ho : o < Config.numOct) (hn : n ≤ p) (d : F64) :
    (loadedSet p k v).getD (wordOffset p w o n) d = (octaveTable (fileTable p w v)).getD n d := by
  have hne : ∀ w < k, fileTable p w v ≠ [] := fun w hw h => by
    have := fileTable_length hv hw
    rw [h] at this
    simp at this
    omega
  have hlen : ∀ w < k, (octaveTable (fileTable p w v)).length = p + 1 := fun w hw => by
    rw [octaveTable_length (hne w hw), fileTable_length hv hw]
  have e : wordOffset p w o n = w * (Config.numOct * (p + 1)) + (o * (p + 1) + n) := by
    unfold wordOffset; ring
  have hk : o * (p + 1) + n < Config.numOct * (p + 1) := by
    calc o * (p + 1) + n < o * (p + 1) + (p + 1) := by omega
      _ = (o + 1) * (p + 1) := by ring
      _ ≤ Config.numOct * (p + 1) := Nat.mul_le_mul_right _ ho
  have e2 : loadedSet p k v = (List.range k).flatMap fun w =>
      (List.range Config.numOct).flatMap fun _ => octaveTable (fileTable p w v) := by
    simp only [loadedSet, flatten_replicate_eq, fileTable]
  rw [e2, e, getD_range_flatMap_lt (fun w hw => length_range_flatMap (fun _ => hlen w hw) _) hw hk,
    getD_range_flatMap (fun _ => hlen w hw) ho (by omega)]

end Sys2Proof.Machine
end

