-- ==== Sys2Proof/Laws/Exec.lean ====
section
/-! SUPPORT. What one command can do: `exec` as one operation over the effect of the command, the inversion of
`settle`, `command`, `exec` and `step`, and of every effect. -/

namespace Sys2Proof.Machine

/-- What a command computes when it is executed: its effect with its payload, or why it does not complete. -/
def effect (i : Instr) (s : State) : Except Stop (State × List Word) :=
  match i with
  | .nop => .ok (s, [])
  | .reset => .ok (s.resetSequence, [])
  | .wrparam sl j fld tag v => wrparamEffect sl j fld tag v s
  | .rdparam sl j fld => rdparamEffect sl j fld s
  | .rdcfg fld => rdcfgEffect fld s
  | .rdstatus => .ok (s, [s.status.word])
  | .rdstate sl j lane => rdstateEffect sl j lane s
  | .rdout sl j => rdoutEffect sl j s
  | .tblbuild t => tblbuildEffect t s
  | .tblload t len data => tblloadEffect t len data s
  | .tblrd t addr => tblrdEffect t addr s
  | .tblinfo t => tblinfoEffect t s
  | .phrst sl j => phrstEffect sl j s
  | .oscstep sl j f dt => oscstepEffect sl j f dt s
  | .trigger sl => triggerEffect sl s
  | .voicestep sl f0 f1 f2 dt => voicestepEffect sl f0 f1 f2 dt s
  | .preview sl j n f => previewEffect sl j n f s

/-- The two commands a halted block executes (60_exceptions R301). -/
def runsHalted (i : Instr) : Bool := i == .reset || i == .rdstatus

/-- `exec` is one operation over the effect of the command. -/
theorem exec_eq (i : Instr) (s : State) :
    exec i s = if runsHalted i then settle i.word s (effect i s) else command i.word s (effect i s) := by
  cases i <;> rfl

theorem effect_of_runsHalted {i : Instr} (h : runsHalted i = true) (s : State) :
    ∃ u p, effect i s = .ok (u, p) := by
  cases i <;> first | exact ⟨_, _, rfl⟩ | exact absurd h (by simp [runsHalted])

theorem settle_next {cw : CmdWord} {s t : State} {r : Except Stop (State × List Word)}
    (h : settle cw s r = .next t) :
    (∃ u p, r = .ok (u, p) ∧ t = u.reply okHeader p) ∨ (∃ c, r = .error (.raise c) ∧ t = s.takeFault c cw) := by
  match r, h with
  | .ok (u, p), h => exact .inl ⟨u, p, rfl, (by simpa [settle] using h.symm)⟩
  | .error (.raise c), h => exact .inr ⟨c, rfl, (by simpa [settle] using h.symm)⟩
  | .error (.stuck f), h => simp [settle] at h

theorem command_of_running {s : State} (h : s.status.halted = false) (cw : CmdWord)
    (r : Except Stop (State × List Word)) : command cw s r = settle cw s r := by simp [command, h]

theorem command_of_halted {s : State} (h : s.status.halted = true) (cw : CmdWord)
    (r : Except Stop (State × List Word)) : command cw s r = .next s.ignore := by simp [command, h]

/-- In a running block, a command is its effect, settled. -/
theorem exec_of_running {s : State} (h : s.status.halted = false) (i : Instr) :
    exec i s = settle i.word s (effect i s) := by
  rw [exec_eq, command_of_running h]
  simp

/-- In a halted block, a command other than RESET and RDSTATUS is ignored. -/
theorem exec_of_halted {s : State} (h : s.status.halted = true) {i : Instr} (hi : runsHalted i = false) :
    exec i s = .next s.ignore := by
  rw [exec_eq, hi, command_of_halted h]
  simp

/-- The three ways a command ends in a next state: ignored, completed, faulted. -/
theorem exec_next {i : Instr} {s t : State} (h : exec i s = .next t) :
    (s.status.halted = true ∧ runsHalted i = false ∧ t = s.ignore) ∨
    (∃ u p, effect i s = .ok (u, p) ∧ t = u.reply okHeader p) ∨
    (∃ c, s.status.halted = false ∧ effect i s = .error (.raise c) ∧ t = s.takeFault c i.word) := by
  cases hi : runsHalted i with
  | true =>
    rw [exec_eq, hi, if_pos rfl] at h
    obtain ⟨u, p, he⟩ := effect_of_runsHalted hi s
    rw [he] at h
    obtain ⟨u', p', h1, h2⟩ | ⟨c, h1, -⟩ := settle_next h
    · exact .inr (.inl ⟨u', p', by rw [he, h1], h2⟩)
    · cases h1
  | false =>
    cases hh : s.status.halted with
    | true =>
      rw [exec_of_halted hh hi] at h
      exact .inl ⟨rfl, rfl, by simpa using h.symm⟩
    | false =>
      rw [exec_of_running hh] at h
      obtain h1 | ⟨c, h1, h2⟩ := settle_next h
      · exact .inr (.inl h1)
      · exact .inr (.inr ⟨c, rfl, h1, h2⟩)

/-- The ways a step ends in a next state: no command, an undecodable frame, a command. -/
theorem step_next {s t : State} (h : step s = .next t) :
    (∃ port, s.port.fetch = (none, port) ∧ t = { s with port := port }) ∨
    (∃ fr port c, s.port.fetch = (some fr, port) ∧ decodeFrame fr = .error c ∧
      t = State.rejectFrame { s with port := port } c fr.word) ∨
    (∃ fr port i, s.port.fetch = (some fr, port) ∧ decodeFrame fr = .ok i ∧
      exec i { s with port := port } = .next t) := by
  unfold step at h
  split at h
  · rename_i port hf
    exact .inl ⟨port, hf, by simpa using h.symm⟩
  · rename_i fr port hf
    split at h
    · rename_i i hd
      exact .inr (.inr ⟨fr, port, i, hf, hd, h⟩)
    · rename_i c hd
      exact .inr (.inl ⟨fr, port, c, hf, hd, by simpa using h.symm⟩)

/-! Operands. -/

theorem oscIndex_of_lt {j : BitVec 2} (h : j.toNat < 3) : oscIndex j = .ok ⟨j.toNat, h⟩ := by simp [oscIndex, h]

theorem oscIndex_of_ge {j : BitVec 2} (h : 3 ≤ j.toNat) : oscIndex j = .error (.raise .badIndex) := by
  simp [oscIndex, Nat.not_lt.mpr h]

/-- At the source's 32 slots every SLOT names its slot (30_encoding R112). -/
theorem slotIndex_eq (sl : BitVec 5) : slotIndex sl = .ok (slotNo sl) := by
  have h : sl.toNat < Config.numSlots := sl.isLt
  simp only [slotIndex, h, dite_true, slotNo, Nat.mod_eq_of_lt]

theorem slotNo_val (sl : BitVec 5) : (slotNo sl).val = sl.toNat := Nat.mod_eq_of_lt sl.isLt

/-- SLOT and OSC name an oscillator exactly when OSC does. -/
theorem oscAt_eq (sl : BitVec 5) (j : BitVec 2) :
    oscAt sl j = match oscIndex j with
      | .error e => .error e
      | .ok j' => .ok (slotNo sl, j') := by
  rw [oscAt, slotIndex_eq]
  cases oscIndex j <;> rfl

theorem oscAt_ok {sl : BitVec 5} {j : BitVec 2} {k : SlotNo} {j' : OscNo} (h : oscAt sl j = .ok (k, j')) :
    k = slotNo sl ∧ oscIndex j = .ok j' := by
  rw [oscAt_eq] at h
  cases hj : oscIndex j with
  | error e => rw [hj] at h; cases h
  | ok j0 => rw [hj] at h; cases h; exact ⟨rfl, rfl⟩

theorem oscAt_of_lt (sl : BitVec 5) {j : BitVec 2} (h : j.toNat < 3) :
    oscAt sl j = .ok (slotNo sl, ⟨j.toNat, h⟩) := by rw [oscAt_eq, oscIndex_of_lt h]

theorem oscAt_of_ge (sl : BitVec 5) {j : BitVec 2} (h : 3 ≤ j.toNat) : oscAt sl j = .error (.raise .badIndex) := by
  rw [oscAt_eq, oscIndex_of_ge h]

theorem laneIndex_of_lt {i : BitVec 4} (h : i.toNat < 7) : laneIndex i = .ok ⟨i.toNat, h⟩ := by simp [laneIndex, h]

theorem laneIndex_of_ge {i : BitVec 4} (h : 7 ≤ i.toNat) : laneIndex i = .error (.raise .badIndex) := by
  simp [laneIndex, Nat.not_lt.mpr h]

theorem tableIndex_of_lt {t : BitVec 12} (h : t.toNat < 8) : tableIndex t = .ok ⟨t.toNat, h⟩ := by
  simp [tableIndex, h]

theorem tableIndex_of_ge {t : BitVec 12} (h : 8 ≤ t.toNat) : tableIndex t = .error (.raise .badIndex) := by
  simp [tableIndex, Nat.not_lt.mpr h]

theorem loadIndex_of_lt {t : BitVec 12} (h0 : t ≠ 0) (h : t.toNat < 8) : loadIndex t = .ok ⟨t.toNat, h⟩ := by
  rw [loadIndex, if_neg h0, tableIndex_of_lt h]

theorem previewLength_eq (n : BitVec 12) : previewLength n = .ok n.toNat := by
  have h : n.toNat ≤ Config.pbMax := Nat.le_of_lt_succ n.isLt
  rw [previewLength, if_pos h]

theorem paramIndex_of_ge {fld : BitVec 4} (h : 6 ≤ fld.toNat) : paramIndex fld = .error (.raise .badIndex) := by
  revert h; revert fld; decide

/-- A parameter value other than a fault is what the register will hold. -/
theorem paramValue_ok {c : Config} {f : Param} {v w : Word} (h : paramValue c f v = .ok w) :
    (f = .level ∧ F64.isFinite v = true ∧ w = clampF v F64.zero F64.one) ∨
    (f = .numVoices ∧ w = clampI v 1 Config.maxUnison) ∨
    (f = .voiceSpread ∧ F64.isFinite v = true ∧ w = clampF v F64.zero c.spreadMax) ∨
    (f = .waveIndex ∧ F64.isFinite v = true ∧ w = clampF v F64.zero Config.waveIndexMax) ∨
    (f = .sync ∧ (v = 0 ∨ v = 1) ∧ w = v) ∨ (f = .wavetable ∧ w = v) := by
  cases f <;> simp only [paramValue] at h
  · split at h <;> simp_all
  · simp_all
  · split at h <;> simp_all
  · split at h <;> simp_all
  · split at h <;> simp_all
  · simp_all

/-! The effects that write. -/

theorem wrparamEffect_ok {sl : BitVec 5} {j : BitVec 2} {fld : BitVec 4} {tag : BitVec 3} {v : Word} {s u : State}
    {p : List Word} (h : wrparamEffect sl j fld tag v s = .ok (u, p)) :
    ∃ j' f w, oscIndex j = .ok j' ∧ paramIndex fld = .ok f ∧ tag = kindTag (kindOf f) ∧
      paramValue s.cfg f v = .ok w ∧ p = [] ∧
      u = s.setOsc (slotNo sl) j' ((s.osc (slotNo sl) j').setParam f w) := by
  unfold wrparamEffect at h
  split at h
  · cases h
  · cases h
  · rename_i k j' f hj hf
    obtain ⟨rfl, ho⟩ := oscAt_ok hj
    split at h
    · rename_i ht
      split at h
      · cases h
      · rename_i w hw
        simp only [Except.ok.injEq, Prod.mk.injEq] at h
        exact ⟨j', f, w, ho, hf, ht, hw, h.2.symm, h.1.symm⟩
    · cases h

theorem tblbuildEffect_ok {t : BitVec 12} {s u : State} {p : List Word} (h : tblbuildEffect t s = .ok (u, p)) :
    ∃ t', tableIndex t = .ok t' ∧ u = s.buildSlot t' ∧ p = [BitVec.ofNat 64 Config.numDefaultWaves] := by
  unfold tblbuildEffect at h
  split at h
  · cases h
  · rename_i t' ht
    simp only [Except.ok.injEq, Prod.mk.injEq] at h
    exact ⟨t', ht, h.1.symm, h.2.symm⟩

theorem tblloadEffect_ok {t : BitVec 12} {len : Word} {data : List Word} {s u : State} {p : List Word}
    (h : tblloadEffect t len data s = .ok (u, p)) :
    ∃ t' r, data.length = loadWords len ∧ loadIndex t = .ok t' ∧ r = parseWaveFile s.cfg.p (loadBytes len data) ∧
      u = (s.loadSlot t' r).setStatus (s.status.withLoad r.code t) ∧ p = [r.code.zeroExtend 64] := by
  unfold tblloadEffect at h
  split at h
  · cases h
  · rename_i hl
    split at h
    · cases h
    · rename_i t' ht
      simp only [Except.ok.injEq, Prod.mk.injEq] at h
      exact ⟨t', _, not_not.mp hl, ht, rfl, h.1.symm, h.2.symm⟩

theorem phrstEffect_ok {sl : BitVec 5} {j : BitVec 2} {s u : State} {p : List Word}
    (h : phrstEffect sl j s = .ok (u, p)) :
    ∃ j', oscIndex j = .ok j' ∧ p = [] ∧ u = s.setOsc (slotNo sl) j' (s.osc (slotNo sl) j').phaseReset := by
  unfold phrstEffect at h
  split at h
  · cases h
  · rename_i k j' hj
    obtain ⟨rfl, ho⟩ := oscAt_ok hj
    simp only [Except.ok.injEq, Prod.mk.injEq] at h
    exact ⟨j', ho, h.2.symm, h.1.symm⟩

theorem oscstepEffect_ok {sl : BitVec 5} {j : BitVec 2} {f dt : Word} {s u : State} {p : List Word}
    (h : oscstepEffect sl j f dt s = .ok (u, p)) :
    ∃ j' r, oscIndex j = .ok j' ∧ F64.isFinite f = true ∧ F64.isFinite dt = true ∧ F64.lt dt F64.zero = false ∧
      oscCore s.cfg s.tables (s.osc (slotNo sl) j') (s.osc (slotNo sl) j').pos f dt = .ok r ∧
      p = [r.out, flagWord r.cc] ∧
      u = s.setOsc (slotNo sl) j' ((s.osc (slotNo sl) j').stepped r.pos r.out r.cc) := by
  unfold oscstepEffect at h
  split at h
  · cases h
  · rename_i k j' hj
    obtain ⟨rfl, ho⟩ := oscAt_ok hj
    split at h
    · cases h
    · rename_i hf
      split at h
      · cases h
      · rename_i hd
        dsimp only at h
        split at h
        · cases h
        · rename_i r hr
          simp only [Except.ok.injEq, Prod.mk.injEq] at h
          simp only [Bool.not_eq_true, Bool.not_eq_false', Bool.and_eq_true] at hf hd
          exact ⟨j', r, ho, hf.1, hf.2, hd, hr, h.2.symm, h.1.symm⟩

theorem triggerEffect_ok {sl : BitVec 5} {s u : State} {p : List Word} (h : triggerEffect sl s = .ok (u, p)) :
    u = s.triggerSlot (slotNo sl) ∧ p = [] := by
  rw [triggerEffect, slotIndex_eq] at h
  simp only [Except.ok.injEq, Prod.mk.injEq] at h
  exact ⟨h.1.symm, h.2.symm⟩

/-- At NUM_OSC = 3 a VOICESTEP steps the three oscillators, each with its frequency. -/
theorem voiceOscs_eq (f0 f1 f2 : F64) : voiceOscs f0 f1 f2 = [(0, f0), (1, f1), (2, f2)] := rfl

@[simp] theorem startLanes_0 (o : Osc) (c0 : Bool) : startLanes 0 o c0 = o.pos := rfl

/-- The slave of a hard sync. -/
theorem startLanes_1 (o : Osc) (c0 : Bool) :
    startLanes 1 o c0 = if o.sync = 1 ∧ c0 = true then zeroLanes else o.pos := by
  simp [startLanes]

@[simp] theorem startLanes_2 (o : Osc) (c0 : Bool) : startLanes 2 o c0 = o.pos := rfl

/-- The mix of the three oscillators, written out (43 R252). -/
theorem mixDown_eq (l0 l1 l2 o0 o1 o2 : F64) : mixDown [(l0, o0), (l1, o1), (l2, o2)] =
    if F64.lt F64.one (F64.add (F64.add l0 l1) l2)
    then F64.div (F64.add (F64.add (F64.mul l0 o0) (F64.mul l1 o1)) (F64.mul l2 o2)) (F64.add (F64.add l0 l1) l2)
    else F64.add (F64.add (F64.mul l0 o0) (F64.mul l1 o1)) (F64.mul l2 o2) := by
  simp only [mixDown, sumLeft, List.map_cons, List.map_nil, List.foldl_cons, List.foldl_nil, Config.mixThreshold]

/-- The flags of the three oscillators, written out (43 R252). -/
theorem flagsWord_eq (c0 c1 c2 : Bool) :
    flagsWord [c0, c1, c2] = flagWord c0 + 2 * flagWord c1 + 4 * flagWord c2 := by
  cases c0 <;> cases c1 <;> cases c2 <;> rfl

/-- A step of a VOICESTEP that completes is a step of the oscillator, and the steps after it. -/
theorem voiceSteps_cons {s : State} {sl : SlotNo} {dt f : F64} {j : OscNo} {rest : List (OscNo × F64)} {c0 : Bool}
    {rs : List (OscNo × StepResult)} (h : voiceSteps s sl dt ((j, f) :: rest) c0 = .ok rs) :
    ∃ r rs', oscCore s.cfg s.tables (s.osc sl j) (startLanes j (s.osc sl j) c0) f dt = .ok r ∧
      voiceSteps s sl dt rest (if j.val = 0 then r.cc else c0) = .ok rs' ∧ rs = (j, r) :: rs' := by
  unfold voiceSteps at h
  split at h
  · cases h
  · rename_i r hr
    split at h
    · cases h
    · rename_i rs' hrs
      simp only [Except.ok.injEq] at h
      exact ⟨r, rs', hr, hrs, h.symm⟩

/-- The steps of a VOICESTEP that completes are one step of each oscillator. -/
theorem voiceCore_ok {s : State} {sl : SlotNo} {f0 f1 f2 dt : F64} {rs : List (OscNo × StepResult)}
    (h : voiceCore s sl f0 f1 f2 dt = .ok rs) :
    ∃ r0 r1 r2, rs = [(0, r0), (1, r1), (2, r2)] ∧
      oscCore s.cfg s.tables (s.osc sl 0) (s.osc sl 0).pos f0 dt = .ok r0 ∧
      oscCore s.cfg s.tables (s.osc sl 1)
        (if (s.osc sl 1).sync = 1 ∧ r0.cc = true then zeroLanes else (s.osc sl 1).pos) f1 dt = .ok r1 ∧
      oscCore s.cfg s.tables (s.osc sl 2) (s.osc sl 2).pos f2 dt = .ok r2 := by
  rw [voiceCore, voiceOscs_eq] at h
  obtain ⟨r0, rs0, h0, t0, rfl⟩ := voiceSteps_cons h
  obtain ⟨r1, rs1, h1, t1, rfl⟩ := voiceSteps_cons t0
  obtain ⟨r2, rs2, h2, t2, rfl⟩ := voiceSteps_cons t1
  simp only [voiceSteps, Except.ok.injEq] at t2
  rw [startLanes_0] at h0
  rw [startLanes_1] at h1
  rw [startLanes_2] at h2
  exact ⟨r0, r1, r2, by rw [t2], h0, h1, h2⟩

theorem voicestepEffect_ok {sl : BitVec 5} {f0 f1 f2 dt : Word} {s u : State} {p : List Word}
    (h : voicestepEffect sl f0 f1 f2 dt s = .ok (u, p)) :
    ∃ r0 r1 r2 m, (F64.isFinite f0 = true ∧ F64.isFinite f1 = true ∧ F64.isFinite f2 = true ∧
        F64.isFinite dt = true) ∧ F64.lt dt F64.zero = false ∧
      voiceCore s (slotNo sl) f0 f1 f2 dt = .ok [(0, r0), (1, r1), (2, r2)] ∧
      m = mixDown [((s.osc (slotNo sl) 0).level, r0.out), ((s.osc (slotNo sl) 1).level, r1.out),
        ((s.osc (slotNo sl) 2).level, r2.out)] ∧
      p = [m, flagsWord [r0.cc, r1.cc, r2.cc]] ∧
      u = s.voiceWrite (slotNo sl) [(0, r0), (1, r1), (2, r2)] m := by
  unfold voicestepEffect at h
  rw [slotIndex_eq] at h
  dsimp only at h
  split at h
  · cases h
  · rename_i hf
    split at h
    · cases h
    · rename_i hd
      split at h
      · cases h
      · rename_i rs hr
        obtain ⟨r0, r1, r2, rfl, -⟩ := voiceCore_ok hr
        simp only [Except.ok.injEq, Prod.mk.injEq] at h
        simp only [Bool.not_eq_true, Bool.not_eq_false', Bool.and_eq_true] at hf hd
        exact ⟨r0, r1, r2, _, ⟨hf.1.1.1, hf.1.1.2, hf.1.2, hf.2⟩, hd, hr, rfl, h.2.symm, h.1.symm⟩

/-! The effects that only read: the state is the one before. -/

theorem rdparamEffect_ok {sl : BitVec 5} {j : BitVec 2} {fld : BitVec 4} {s u : State} {p : List Word}
    (h : rdparamEffect sl j fld s = .ok (u, p)) :
    u = s ∧ ∃ j' f, oscIndex j = .ok j' ∧ paramIndex fld = .ok f ∧
      p = [tagWord (kindOf f), (s.osc (slotNo sl) j').param f] := by
  unfold rdparamEffect at h
  split at h
  · cases h
  · cases h
  · rename_i k j' f hj hf
    obtain ⟨rfl, ho⟩ := oscAt_ok hj
    simp only [Except.ok.injEq, Prod.mk.injEq] at h
    exact ⟨h.1.symm, j', f, ho, hf, h.2.symm⟩

theorem rdcfgEffect_ok {fld : BitVec 4} {s u : State} {p : List Word} (h : rdcfgEffect fld s = .ok (u, p)) :
    u = s ∧ ∃ k v, cfgEntry s.cfg fld = .ok (k, v) ∧ p = [tagWord k, v] := by
  unfold rdcfgEffect at h
  split at h
  · cases h
  · rename_i k v hc
    simp only [Except.ok.injEq, Prod.mk.injEq] at h
    exact ⟨h.1.symm, k, v, hc, h.2.symm⟩

theorem rdstateEffect_ok {sl : BitVec 5} {j : BitVec 2} {lane : BitVec 4} {s u : State} {p : List Word}
    (h : rdstateEffect sl j lane s = .ok (u, p)) :
    u = s ∧ ∃ j' i, oscIndex j = .ok j' ∧ laneIndex lane = .ok i ∧ p = [(s.osc (slotNo sl) j').pos[i]] := by
  unfold rdstateEffect at h
  split at h
  · cases h
  · cases h
  · rename_i k j' i hj hi
    obtain ⟨rfl, ho⟩ := oscAt_ok hj
    simp only [Except.ok.injEq, Prod.mk.injEq] at h
    exact ⟨h.1.symm, j', i, ho, hi, h.2.symm⟩

theorem rdoutEffect_ok {sl : BitVec 5} {j : BitVec 2} {s u : State} {p : List Word}
    (h : rdoutEffect sl j s = .ok (u, p)) :
    u = s ∧ ((j = 3 ∧ p = [s.mix (slotNo sl), 0]) ∨
      ∃ j', oscIndex j = .ok j' ∧ p = [(s.osc (slotNo sl) j').out, flagWord (s.osc (slotNo sl) j').cc]) := by
  unfold rdoutEffect at h
  rw [slotIndex_eq] at h
  split at h
  · rename_i h3
    simp only [Except.ok.injEq, Prod.mk.injEq] at h
    exact ⟨h.1.symm, .inl ⟨h3, h.2.symm⟩⟩
  · split at h
    · cases h
    · rename_i k j' hj
      obtain ⟨rfl, ho⟩ := oscAt_ok hj
      simp only [Except.ok.injEq, Prod.mk.injEq] at h
      exact ⟨h.1.symm, .inr ⟨j', ho, h.2.symm⟩⟩

theorem tblrdEffect_ok {t : BitVec 12} {addr : Word} {s u : State} {p : List Word}
    (h : tblrdEffect t addr s = .ok (u, p)) :
    u = s ∧ ∃ t' w, tableIndex t = .ok t' ∧ addrReserved addr = 0 ∧
      tableRead s.cfg.p (s.table t') (addrWave addr) (addrOctave addr) (addrSample addr) = .ok w ∧ p = [w] := by
  unfold tblrdEffect at h
  split at h
  · cases h
  · rename_i t' ht
    split at h
    · cases h
    · rename_i hr
      dsimp only at h
      split at h
      · cases h
      · split at h
        · cases h
        · rename_i w hw
          simp only [Except.ok.injEq, Prod.mk.injEq] at h
          exact ⟨h.1.symm, t', w, ht, not_not.mp hr, hw, h.2.symm⟩

theorem tblinfoEffect_ok {t : BitVec 12} {s u : State} {p : List Word} (h : tblinfoEffect t s = .ok (u, p)) :
    u = s ∧ ∃ t', tableIndex t = .ok t' ∧
      p = [flagWord (s.table t').tvalid, BitVec.ofNat 64 (s.table t').ntab] := by
  unfold tblinfoEffect at h
  split at h
  · cases h
  · rename_i t' ht
    simp only [Except.ok.injEq, Prod.mk.injEq] at h
    exact ⟨h.1.symm, t', ht, h.2.symm⟩

theorem previewEffect_ok {sl : BitVec 5} {j : BitVec 2} {n : BitVec 12} {f : Word} {s u : State} {p : List Word}
    (h : previewEffect sl j n f s = .ok (u, p)) :
    u = s ∧ ∃ j', oscIndex j = .ok j' ∧ F64.isFinite f = true ∧
      previewFrom s.cfg s.tables (s.osc (slotNo sl) j') f n.toNat zeroLanes = .ok p := by
  unfold previewEffect at h
  rw [previewLength_eq] at h
  split at h
  · cases h
  · cases h
  · rename_i k j' len hj hl
    obtain ⟨rfl, ho⟩ := oscAt_ok hj
    simp only [Except.ok.injEq] at hl
    subst hl
    split at h
    · cases h
    · rename_i hf
      split at h
      · cases h
      · rename_i ys hy
        simp only [Except.ok.injEq, Prod.mk.injEq] at h
        simp only [Bool.not_eq_true, Bool.not_eq_false'] at hf
        exact ⟨h.1.symm, j', ho, hf, by rw [hy, h.2]⟩

/-- Everything the effect of a command can be: nothing, the reset sequence, or a write of one of six forms. -/
theorem effect_ok {i : Instr} {s u : State} {p : List Word} (h : effect i s = .ok (u, p)) :
    u = s ∨ (i = .reset ∧ u = s.resetSequence) ∨
    (∃ sl j f v w, paramValue s.cfg f v = .ok w ∧ u = s.setOsc sl j ((s.osc sl j).setParam f w)) ∨
    (∃ t, u = s.buildSlot t) ∨
    (∃ t t' len data r, i = .tblload t len data ∧ loadIndex t = .ok t' ∧
      r = parseWaveFile s.cfg.p (loadBytes len data) ∧
      u = (s.loadSlot t' r).setStatus (s.status.withLoad r.code t)) ∨
    (∃ sl j, u = s.setOsc sl j (s.osc sl j).phaseReset) ∨
    (∃ sl, u = s.triggerSlot sl) ∨
    (∃ sl j f dt r, oscCore s.cfg s.tables (s.osc sl j) (s.osc sl j).pos f dt = .ok r ∧
      u = s.setOsc sl j ((s.osc sl j).stepped r.pos r.out r.cc)) ∨
    (∃ sl f0 f1 f2 dt r0 r1 r2 m, voiceCore s sl f0 f1 f2 dt = .ok [(0, r0), (1, r1), (2, r2)] ∧
      u = s.voiceWrite sl [(0, r0), (1, r1), (2, r2)] m) := by
  cases i with
  | nop => simp only [effect, Except.ok.injEq, Prod.mk.injEq] at h; exact .inl h.1.symm
  | reset => simp only [effect, Except.ok.injEq, Prod.mk.injEq] at h; exact .inr (.inl ⟨rfl, h.1.symm⟩)
  | wrparam sl j fld tag v =>
    obtain ⟨j', f, w, -, -, -, hw, -, hu⟩ := wrparamEffect_ok h
    exact .inr (.inr (.inl ⟨_, j', f, v, w, hw, hu⟩))
  | rdparam sl j fld => exact .inl (rdparamEffect_ok h).1
  | rdcfg fld => exact .inl (rdcfgEffect_ok h).1
  | rdstatus => simp only [effect, Except.ok.injEq, Prod.mk.injEq] at h; exact .inl h.1.symm
  | rdstate sl j lane => exact .inl (rdstateEffect_ok h).1
  | rdout sl j => exact .inl (rdoutEffect_ok h).1
  | tblbuild t =>
    obtain ⟨t', -, hu, -⟩ := tblbuildEffect_ok h
    exact .inr (.inr (.inr (.inl ⟨t', hu⟩)))
  | tblload t len data =>
    obtain ⟨t', r, -, ht, hr, hu, -⟩ := tblloadEffect_ok h
    exact .inr (.inr (.inr (.inr (.inl ⟨t, t', len, data, r, rfl, ht, hr, hu⟩))))
  | tblrd t addr => exact .inl (tblrdEffect_ok h).1
  | tblinfo t => exact .inl (tblinfoEffect_ok h).1
  | phrst sl j =>
    obtain ⟨j', -, -, hu⟩ := phrstEffect_ok h
    exact .inr (.inr (.inr (.inr (.inr (.inl ⟨_, j', hu⟩)))))
  | oscstep sl j f dt =>
    obtain ⟨j', r, -, -, -, -, hr, -, hu⟩ := oscstepEffect_ok h
    exact .inr (.inr (.inr (.inr (.inr (.inr (.inr (.inl ⟨_, j', f, dt, r, hr, hu⟩)))))))
  | trigger sl =>
    exact .inr (.inr (.inr (.inr (.inr (.inr (.inl ⟨_, (triggerEffect_ok h).1⟩))))))
  | voicestep sl f0 f1 f2 dt =>
    obtain ⟨r0, r1, r2, m, -, -, hr, -, -, hu⟩ := voicestepEffect_ok h
    exact .inr (.inr (.inr (.inr (.inr (.inr (.inr (.inr ⟨_, f0, f1, f2, dt, r0, r1, r2, m, hr, hu⟩)))))))
  | preview sl j n f => exact .inl (previewEffect_ok h).1

end Sys2Proof.Machine
end

