-- ==== Sys2Proof/Laws/Oscillator.lean ====
section
/-! SUPPORT. The oscillator datapath: what one lane and a list of lanes can do, and when a table read, a lookup and a
blend give a value (20_memory R72; 42_oscillator R216, R217, R220). -/

namespace Sys2Proof.Machine

/-! Table reads. -/

theorem tableRead_of_inside {p w o n : Nat} {ts : TableSlot} (hv : ts.tvalid = true) (hw : w < ts.ntab)
    (ho : o < Config.numOct) (hn : n ≤ p) : tableRead p ts w o n = .ok (ts.words.read (wordOffset p w o n)) := by
  simp [tableRead, hv, hw, ho, hn]

theorem tableRead_ok {p w o n : Nat} {ts : TableSlot} {v : Word} (h : tableRead p ts w o n = .ok v) :
    (ts.tvalid = true ∧ w < ts.ntab ∧ o < Config.numOct ∧ n ≤ p) ∧ v = ts.words.read (wordOffset p w o n) := by
  unfold tableRead at h
  split at h
  · rename_i hc
    simp only [Bool.and_eq_true, decide_eq_true_eq] at hc
    simp only [Except.ok.injEq] at h
    exact ⟨⟨hc.1.1.1, hc.1.1.2, hc.1.2, hc.2⟩, h.symm⟩
  · cases h

/-- A lookup inside a valid slot gives the interpolation of the two adjacent samples. -/
theorem lookup_of_inside {p w o : Nat} {ts : TableSlot} {x : F64} {i : Nat} (hv : ts.tvalid = true)
    (hw : w < ts.ntab) (ho : o < Config.numOct) (hx : F64.floor x = some (i : Int)) (hi : i + 1 ≤ p) :
    lookup p ts w o x = .ok (interpolate (F64.sub x (F64.ofNat i)) (ts.words.read (wordOffset p w o i))
      (ts.words.read (wordOffset p w o (i + 1)))) := by
  unfold lookup
  rw [hx]
  simp only [Int.toNat_natCast]
  rw [if_neg (by omega), tableRead_of_inside hv hw ho (by omega), tableRead_of_inside hv hw ho hi]

/-- A blend of two waveshapes that both exist gives a value wherever each lookup does. -/
theorem blend_of_lookups {p wi o : Nat} {ts : TableSlot} {b x v v' : F64} (h : lookup p ts wi o x = .ok v)
    (h' : F64.eq b F64.zero = false → lookup p ts (wi + 1) o x = .ok v') :
    blend p ts wi b o x = .ok (if F64.eq b F64.zero then v else mixWaves b v v') := by
  unfold blend
  rw [h]
  cases hb : F64.eq b F64.zero with
  | true => simp
  | false => simp [h' hb]

theorem octaveFrom_lt (c : Config) (a : F64) : ∀ {l : List Nat}, (∀ o ∈ l, o < Config.numOct) →
    octaveFrom c a l < Config.numOct
  | [], _ => by simp [octaveFrom, Config.numOct]
  | o :: rest, h => by
    unfold octaveFrom
    split
    · exact h o (by simp)
    · exact octaveFrom_lt c a fun _ ho => h _ (by simp [ho])

/-- Every octave chosen is one of the eleven. -/
theorem octave_lt (c : Config) (a : F64) : octave c a < Config.numOct :=
  octaveFrom_lt c a fun _ ho => List.mem_range.mp ho

/-! Lanes. -/

theorem activeLanes_nodup (n : Nat) : (activeLanes n).Nodup :=
  List.Nodup.sublist (List.take_sublist _ _) (List.nodup_finRange _)

theorem activeLanes_length (n : Nat) : (activeLanes n).length = min n Config.maxUnison := by
  simp [activeLanes, List.length_take]

theorem activeLanes_get {n k : Nat} (hk : k < (activeLanes n).length) : ((activeLanes n)[k]).val = k := by
  simp [activeLanes, List.getElem_take]

theorem mem_activeLanes {n : Nat} {i : LaneNo} : i ∈ activeLanes n ↔ i.val < n := by
  constructor
  · intro h
    obtain ⟨k, hk, rfl⟩ := List.mem_iff_getElem.mp h
    rw [activeLanes_get hk]
    rw [activeLanes_length] at hk
    exact lt_of_lt_of_le hk (min_le_left _ _)
  · intro h
    have hk : i.val < (activeLanes n).length := by rw [activeLanes_length]; exact lt_min h i.isLt
    have e : (activeLanes n)[i.val] = i := Fin.ext (activeLanes_get hk)
    rw [← e]
    exact List.getElem_mem hk

theorem orCycle_eq (c w : Bool) : orCycle c w = (c || w) := by cases c <;> cases w <;> rfl

theorem getElem_set_lane {pos : Vector F64 Config.maxUnison} {i k : LaneNo} {v : F64} :
    (pos.set i.val v i.isLt)[k] = if k = i then v else pos[k] := by
  simp [Vector.getElem_set, Fin.ext_iff, eq_comm]

/-- One lane, for any test of its advance, move of its position and sample at the new position. -/
def laneWith (finite : LaneNo → Bool) (move : LaneNo → F64 → F64 × Bool) (sample : LaneNo → F64 → Except Stop F64)
    (i : LaneNo) (a : Lanes) : Except Stop Lanes :=
  if finite i then
    match sample i (move i a.pos[i]).1 with
    | .error e => .error e
    | .ok y => .ok ⟨a.pos.set i.val (move i a.pos[i]).1 i.isLt, F64.add a.acc y, orCycle a.cc (move i a.pos[i]).2⟩
  else .error (.raise .numeric)

/-- Several different lanes that complete: each lane listed moves from where it was, the others stay, the flag is the
OR, and the sum runs over one sample per lane, in order. -/
theorem runLanes_ok {finite : LaneNo → Bool} {move : LaneNo → F64 → F64 × Bool}
    {sample : LaneNo → F64 → Except Stop F64} {l : List LaneNo} {a a' : Lanes} (hn : l.Nodup)
    (h : runLanes (laneWith finite move sample) l a = .ok a') :
    (∀ i ∈ l, finite i = true ∧ a'.pos[i] = (move i a.pos[i]).1) ∧ (∀ i, i ∉ l → a'.pos[i] = a.pos[i]) ∧
    a'.cc = (a.cc || l.any fun i => (move i a.pos[i]).2) ∧
    ∃ ys : List F64, l.mapM (fun i => sample i a'.pos[i]) = .ok ys ∧ a'.acc = ys.foldl F64.add a.acc := by
  induction l generalizing a with
  | nil =>
    simp only [runLanes, Except.ok.injEq] at h
    subst h
    simp [pure, Except.pure]
  | cons i rest ih =>
    rw [List.nodup_cons] at hn
    unfold runLanes laneWith at h
    split at h
    · cases h
    · rename_i a1 h1
      split at h1
      · rename_i hf
        split at h1
        · cases h1
        rename_i y hy
        simp only [Except.ok.injEq] at h1
        subst h1
        obtain ⟨hin, hout, hcc, ys, hys, hacc⟩ := ih hn.2 h
        have hi : a'.pos[i] = (move i a.pos[i]).1 := by
          rw [hout i hn.1, getElem_set_lane, if_pos rfl]
        have hne : ∀ k ∈ rest, k ≠ i := fun k hk e => hn.1 (e ▸ hk)
        refine ⟨?_, ?_, ?_, y :: ys, ?_, ?_⟩
        · intro k hk
          rcases List.mem_cons.mp hk with rfl | hk
          · exact ⟨hf, hi⟩
          · obtain ⟨h2, h3⟩ := hin k hk
            refine ⟨h2, ?_⟩
            rw [h3, getElem_set_lane, if_neg (hne k hk)]
        · intro k hk
          rw [List.mem_cons, not_or] at hk
          rw [hout k hk.2, getElem_set_lane, if_neg hk.1]
        · rw [hcc, orCycle_eq, List.any_cons, ← Bool.or_assoc]
          congr 1
          rw [Bool.eq_iff_iff, List.any_eq_true, List.any_eq_true]
          constructor <;> rintro ⟨k, hk, h2⟩ <;> refine ⟨k, hk, ?_⟩
          · rwa [getElem_set_lane, if_neg (hne k hk)] at h2
          · rwa [getElem_set_lane, if_neg (hne k hk)]
        · rw [List.mapM_cons, hi, hy, hys]
          rfl
        · rw [hacc]
          rfl
      · cases h1

/-- Lanes whose advances are finite and whose samples exist complete. -/
theorem runLanes_of_finite {finite : LaneNo → Bool} {move : LaneNo → F64 → F64 × Bool}
    {sample : LaneNo → F64 → Except Stop F64} {l : List LaneNo} {a : Lanes} (hn : l.Nodup)
    (hf : ∀ i ∈ l, finite i = true) (hy : ∀ i ∈ l, ∃ y, sample i (move i a.pos[i]).1 = .ok y) :
    ∃ a', runLanes (laneWith finite move sample) l a = .ok a' := by
  induction l generalizing a with
  | nil => exact ⟨a, rfl⟩
  | cons i rest ih =>
    rw [List.nodup_cons] at hn
    obtain ⟨y, hy1⟩ := hy i (by simp)
    unfold runLanes laneWith
    rw [if_pos (hf i (by simp)), hy1]
    apply ih hn.2 (fun k hk => hf k (by simp [hk]))
    intro k hk
    rw [getElem_set_lane, if_neg (fun e : k = i => hn.1 (e ▸ hk))]
    exact hy k (by simp [hk])

/-- Lanes whose samples exist, one of them with an advance that is not finite, raise fault 0x05. -/
theorem runLanes_of_overflow {finite : LaneNo → Bool} {move : LaneNo → F64 → F64 × Bool}
    {sample : LaneNo → F64 → Except Stop F64} {l : List LaneNo} {a : Lanes} (hn : l.Nodup)
    (hf : ∃ i ∈ l, finite i = false)
    (hy : ∀ i ∈ l, finite i = true → ∃ y, sample i (move i a.pos[i]).1 = .ok y) :
    runLanes (laneWith finite move sample) l a = .error (.raise .numeric) := by
  induction l generalizing a with
  | nil => obtain ⟨i, hi, -⟩ := hf; simp at hi
  | cons i rest ih =>
    rw [List.nodup_cons] at hn
    unfold runLanes laneWith
    cases hi : finite i with
    | false => simp
    | true =>
      obtain ⟨y, hy1⟩ := hy i (by simp) hi
      rw [if_pos rfl, hy1]
      apply ih hn.2
      · obtain ⟨k, hk, hk2⟩ := hf
        rcases List.mem_cons.mp hk with rfl | hk
        · rw [hi] at hk2; cases hk2
        · exact ⟨k, hk, hk2⟩
      · intro k hk hk2
        rw [getElem_set_lane, if_neg (fun e : k = i => hn.1 (e ▸ hk))]
        exact hy k (by simp [hk]) hk2

/-- The lanes of a step are such lanes. -/
theorem stepLanes_eq (c : Config) (ts : TableSlot) (wi : Nat) (b spread f dt : F64) (l : List LaneNo) (a : Lanes) :
    stepLanes c ts wi b spread f dt l a =
      runLanes (laneWith (fun i => F64.isFinite (advance c (laneFreq f spread i.val) dt))
        (fun i x => wrap c.p (F64.add x (advance c (laneFreq f spread i.val) dt)))
        (fun i x => blend c.p ts wi b (octave c (F64.abs (laneFreq f spread i.val))) x)) l a := by
  unfold stepLanes
  congr 1

/-- What a step of an oscillator that completes does. -/
theorem oscCore_ok {c : Config} {tables : Vector TableSlot Config.numTbl} {o : Osc}
    {posin : Vector F64 Config.maxUnison} {f dt : F64} {r : StepResult} (h : oscCore c tables o posin f dt = .ok r) :
    ∃ wi b a, select tables[resolve tables o.wavetable] o.waveIndex = .ok (wi, b) ∧
      stepLanes c tables[resolve tables o.wavetable] wi b o.voiceSpread f dt (activeLanes o.numVoices.toNat)
        ⟨posin, F64.zero, false⟩ = .ok a ∧
      r = ⟨F64.div a.acc (F64.ofNat o.numVoices.toNat), a.cc, a.pos⟩ := by
  unfold oscCore at h
  dsimp only at h
  split at h
  · cases h
  · rename_i wi b hs
    split at h
    · cases h
    · rename_i a ha
      simp only [Except.ok.injEq] at h
      exact ⟨wi, b, a, hs, ha, h.symm⟩

/-- A slot that an id resolves to is valid whenever slot 0 is (20_memory R79). -/
theorem resolve_spec (tables : Vector TableSlot Config.numTbl) (id : Word) :
    ((resolve tables id).val = id.toNat ∧ tables[resolve tables id].tvalid = true) ∨ resolve tables id = 0 := by
  unfold resolve
  split
  · rename_i h
    split
    · rename_i hv
      exact .inl ⟨rfl, hv⟩
    · exact .inr rfl
  · exact .inr rfl

end Sys2Proof.Machine
end

