-- ==== Sys2Proof/Laws/Datapath.lean ====
section
/-! SUPPORT. When the datapath's reads are defined (20_memory R72; 42_oscillator R216, R217): legal positions, clamped
selectors, resolved slots; and that a step which completes (R211 to R220) and peak normalisation (41_wavetable R172)
give what the rules write. -/

namespace Sys2Proof.Machine

/-- A legal lane position is a finite value in [0, P). -/
theorem lanePosition_finite {p : Nat} {x : F64} (hp : p ≤ 65535) (h : lanePosition p x) :
    F64.isFinite x = true ∧ 0 ≤ F64.scaled x ∧ F64.scaled x < p * 2 ^ 1074 := by
  have hP : F64.isFinite (F64.ofNat p) = true := F64.isFinite_ofNat (by omega)
  have hf := F64.isFinite_of_between F64.isFinite_zero hP h.1 (F64.le_of_lt h.2.1)
  refine ⟨hf, ?_, ?_⟩
  · have := (F64.le_iff F64.isFinite_zero hf).1 h.1
    rwa [F64.scaled_zero] at this
  · have := (F64.lt_iff hf hP).1 h.2.1
    rwa [F64.scaled_ofNat (by omega)] at this

/-- A legal lane position selects samples i and i + 1 of the period with its guard. -/
theorem lanePosition_floor {p : Nat} {x : F64} (hp : p ≤ 65535) (h : lanePosition p x) :
    ∃ i : Nat, i + 1 ≤ p ∧ F64.floor x = some (i : Int) := by
  obtain ⟨hf, h0, h1⟩ := lanePosition_finite hp h
  obtain ⟨i, hi, hfl⟩ := F64.floor_of_range hf h0 h1
  exact ⟨i, hi, hfl⟩

/-- A clamped finite value is finite and within the bounds (40 R144). -/
theorem clampF_range {v lo hi : F64} (hv : F64.isFinite v = true) (hlo : F64.isFinite lo = true)
    (hhi : F64.isFinite hi = true) (h : F64.scaled lo ≤ F64.scaled hi) :
    F64.isFinite (clampF v lo hi) = true ∧ F64.scaled lo ≤ F64.scaled (clampF v lo hi) ∧
      F64.scaled (clampF v lo hi) ≤ F64.scaled hi := by
  unfold clampF
  split
  · exact ⟨hlo, le_refl _, h⟩
  · rename_i h1
    rw [F64.le_iff hv hlo, not_le] at h1
    split
    · exact ⟨hhi, h, le_refl _⟩
    · rename_i h2
      rw [F64.lt_iff hhi hv, not_lt] at h2
      exact ⟨hv, h1.le, h2⟩

/-- The waveshape selected exists, and the next one too where the blend weight is not zero (42 R217). -/
theorem select_of_finite {ts : TableSlot} {x : F64} (hx : F64.isFinite x = true) (h1 : 1 ≤ ts.ntab)
    (h2 : ts.ntab ≤ Config.maxWaves) :
    ∃ wi b, select ts x = .ok (wi, b) ∧ wi < ts.ntab ∧ (F64.eq b F64.zero = false → wi + 1 < ts.ntab) := by
  have h64 : ts.ntab ≤ 64 := h2
  have hn : ts.ntab - 1 < 2 ^ 53 := by omega
  have hs := F64.scaled_ofNat hn
  obtain ⟨hf, hlo, hhi⟩ := clampF_range (v := x) hx F64.isFinite_zero (F64.isFinite_ofNat hn)
    (by rw [F64.scaled_zero, hs]; exact mul_nonneg (Int.natCast_nonneg _) (pow_nonneg (by decide) _))
  unfold select
  dsimp only
  generalize clampF x F64.zero (F64.ofNat (ts.ntab - 1)) = wv at *
  rw [F64.scaled_zero] at hlo
  rw [hs] at hhi
  obtain ⟨i, hi, hfl, htop⟩ := F64.floor_of_range_top hf hlo hhi
  rw [hfl]
  refine ⟨i, F64.sub wv (F64.ofNat i), rfl, by omega, fun hb => ?_⟩
  by_contra hc
  have hi' : i = ts.ntab - 1 := by omega
  have := F64.sub_ofNat_eq_zero hf (n := i) (by omega) (by rw [htop hi', hi'])
  rw [this] at hb
  cases hb

/-- The slot an oscillator reads is valid and holds 1 to MAX_WAVES waveshapes (20_memory R79; 10_state R48). -/
theorem resolve_valid {s : State} (h : s.BookkeepingLegal) (id : Word) :
    s.tables[resolve s.tables id].tvalid = true ∧ 1 ≤ s.tables[resolve s.tables id].ntab ∧
      s.tables[resolve s.tables id].ntab ≤ Config.maxWaves := by
  have hv : (s.table (resolve s.tables id)).tvalid = true := by
    rcases resolve_spec s.tables id with h1 | h1
    · exact h1.2
    · rw [h1]
      exact h.2
  exact ⟨hv, (h.1 _).1.1 hv, (h.1 _).2⟩

/-- A blend at a legal position of waveshapes that exist gives a value (42 R216, R217). -/
theorem blend_of_legal {p wi o : Nat} {ts : TableSlot} {b x : F64} (hp : p ≤ 65535) (hv : ts.tvalid = true)
    (hw : wi < ts.ntab) (hw' : F64.eq b F64.zero = false → wi + 1 < ts.ntab) (ho : o < Config.numOct)
    (hx : lanePosition p x) : ∃ y, blend p ts wi b o x = .ok y := by
  obtain ⟨i, hi, hfl⟩ := lanePosition_floor hp hx
  exact ⟨_, blend_of_lookups (lookup_of_inside hv hw ho hfl hi) fun hb => lookup_of_inside hv (hw' hb) ho hfl hi⟩

/-- A legal position plus a finite advance is finite (42 R220). -/
theorem isFinite_add_advance {p : Nat} {x adv : F64} (hp : p ≤ 65535) (hx : lanePosition p x)
    (ha : F64.isFinite adv = true) : F64.isFinite (F64.add x adv) = true := by
  obtain ⟨hf, h0, h1⟩ := lanePosition_finite hp hx
  refine F64.isFinite_add_small hf ha ?_
  have h2 : (p : Int) * 2 ^ 1074 ≤ 2 ^ 17 * 2 ^ 1074 :=
    mul_le_mul_of_nonneg_right (by norm_cast; omega) (by positivity)
  have h3 : ((F64.scaled x).natAbs : Int) ≤ ((2 ^ 17 * 2 ^ 1074 : ℕ) : Int) := by
    rw [Int.natAbs_of_nonneg h0]
    push_cast
    exact h1.le.trans h2
  exact_mod_cast h3

/-! What the datapath computes, as the rules write it (Sys2Proof/Safety.lean). -/

/-- A clamped finite value is what the rule's minimum and maximum give (40 R144). -/
theorem clampF_clampedTo {v lo hi : F64} (hv : F64.isFinite v = true) (hlo : F64.isFinite lo = true)
    (hhi : F64.isFinite hi = true) (h : F64.scaled lo ≤ F64.scaled hi) : clampedTo lo hi v (clampF v lo hi) := by
  have hr : F64.toRat lo ≤ F64.toRat hi := F64.toRat_le.2 h
  have h1 : F64.le v lo = true ↔ F64.toRat v ≤ F64.toRat lo := by rw [F64.le_iff hv hlo, F64.toRat_le]
  have h2 : F64.lt hi v = true ↔ F64.toRat hi < F64.toRat v := by rw [F64.lt_iff hhi hv, F64.toRat_lt]
  unfold clampF
  simp only [h1, h2]
  split
  · rename_i hc
    exact ⟨by rw [max_eq_right hc, min_eq_left hr], fun _ => rfl, fun a _ => absurd hc a.not_ge,
      fun _ a => absurd hc a.not_ge⟩
  · rename_i hc
    rw [not_le] at hc
    split
    · rename_i hd
      exact ⟨by rw [max_eq_left hc.le, min_eq_right hd.le], fun a => absurd hc a.not_gt, fun _ a => absurd hd a.not_gt,
        fun _ _ => rfl⟩
    · rename_i hd
      rw [not_lt] at hd
      exact ⟨by rw [max_eq_left hc.le, min_eq_left hd], fun a => absurd hc a.not_gt, fun _ _ => rfl,
        fun a _ => absurd hd a.not_ge⟩

/-- A lookup that gives a value gives the sample of the rule (42 R216). -/
theorem lookup_sampledAt {c : Config} {ts : TableSlot} {w o : Nat} {x y : F64} (h : lookup c.p ts w o x = .ok y) :
    sampledAt c ts w o x y := by
  unfold lookup at h
  split at h
  · cases h
  rename_i i hf
  have hx : F64.isFinite x = true := by
    by_contra hc
    simp [F64.floor, hc] at hf
  rw [F64.floor_eq hx, Option.some.injEq] at hf
  split at h
  · cases h
  rename_i h0
  split at h
  · cases h
  rename_i s0 h1
  split at h
  · cases h
  rename_i s1 h2
  rw [Except.ok.injEq] at h
  rw [← h, (tableRead_ok h1).2, (tableRead_ok h2).2]
  exact ⟨i.toNat, by rw [hf]; omega, rfl⟩

/-- A selection and blend that give a value give the sample of the rule (42 R217). -/
theorem blend_blendedAt {c : Config} {ts : TableSlot} {wave b x y : F64} {wi o : Nat}
    (hw : F64.isFinite wave = true) (hn : ts.ntab ≤ Config.maxWaves) (hs : select ts wave = .ok (wi, b))
    (h : blend c.p ts wi b o x = .ok y) : blendedAt c ts wave o x y := by
  have h64 : ts.ntab ≤ 64 := hn
  have hn' : ts.ntab - 1 < 2 ^ 53 := by omega
  have hle : F64.scaled F64.zero ≤ F64.scaled (F64.ofNat (ts.ntab - 1)) := by
    rw [F64.scaled_zero, F64.scaled_ofNat hn']
    exact mul_nonneg (Int.natCast_nonneg _) (pow_nonneg (by decide) _)
  have hc := clampF_clampedTo hw F64.isFinite_zero (F64.isFinite_ofNat hn') hle
  have hr := clampF_range hw F64.isFinite_zero (F64.isFinite_ofNat hn') hle
  unfold select at hs
  dsimp only at hs
  rw [F64.floor_eq hr.1] at hs
  simp only [Except.ok.injEq, Prod.mk.injEq] at hs
  have h0 : 0 ≤ ⌊F64.toRat (clampF wave F64.zero (F64.ofNat (ts.ntab - 1)))⌋ :=
    Int.floor_nonneg.2 (F64.toRat_zero ▸ F64.toRat_le.2 hr.2.1)
  refine ⟨_, wi, hc, by rw [← hs.1, Int.toNat_of_nonneg h0], ?_⟩
  rw [← hs.1] at h ⊢
  rw [hs.2]
  unfold blend at h
  split at h
  · cases h
  rename_i v hv
  split at h
  · rename_i hb
    rw [Except.ok.injEq] at h
    exact ⟨fun _ => h ▸ lookup_sampledAt hv, fun h => absurd hb (by simp [h])⟩
  · rename_i hb
    split at h
    · cases h
    rename_i v' hv'
    rw [Except.ok.injEq] at h
    exact ⟨fun h => absurd h hb, fun _ => ⟨v, v', lookup_sampledAt hv, lookup_sampledAt hv', h.symm⟩⟩

/-- A list of computations that all give a value gives the list of the values. -/
theorem mapM_ok {α β ε : Type} {g : α → Except ε β} : ∀ {l : List α} {ys : List β}, l.mapM g = .ok ys →
    ys.length = l.length ∧ ∀ (k : Nat) (h : k < l.length) (h' : k < ys.length), g l[k] = .ok ys[k]
  | [], ys, h => by
    cases h
    exact ⟨rfl, fun k h => absurd h (Nat.not_lt_zero k)⟩
  | a :: l, ys, h => by
    rw [List.mapM_cons] at h
    cases ha : g a with
    | error e => rw [ha] at h; cases h
    | ok y =>
      cases hl : l.mapM g with
      | error e => rw [ha, hl] at h; cases h
      | ok zs =>
        rw [ha, hl] at h
        cases h
        obtain ⟨h1, h2⟩ := mapM_ok hl
        refine ⟨by simp [h1], fun k hk hk' => ?_⟩
        cases k with
        | zero => exact ha
        | succ k => exact h2 k (by simpa using hk) (by simpa using hk')

/-- A step of an oscillator that completes gives what the rule gives (42 R220). -/
theorem oscCore_steppedTo {s : State} {o : Osc} {pos : Vector F64 Config.maxUnison} {f dt : F64} {r : StepResult}
    (hw : F64.isFinite o.waveIndex = true) (hn : o.numVoices.toNat ≤ Config.maxUnison)
    (hb : s.BookkeepingLegal) (h : oscCore s.cfg s.tables o pos f dt = .ok r) : steppedTo s o pos f dt r := by
  obtain ⟨wi, b, a, hs, ha, rfl⟩ := oscCore_ok h
  rw [stepLanes_eq] at ha
  obtain ⟨hin, hout, hcc, ys, hys, hacc⟩ := runLanes_ok (activeLanes_nodup _) ha
  obtain ⟨hlen, hget⟩ := mapM_ok hys
  have hl : (activeLanes o.numVoices.toNat).length = o.numVoices.toNat := by
    rw [activeLanes_length, min_eq_left hn]
  refine ⟨fun i => ?_, ?_, ys, hlen.trans hl, fun i hi => ?_, ?_⟩
  · split
    · rename_i hi
      exact (hin i (mem_activeLanes.2 hi)).2
    · rename_i hi
      exact hout i (fun hm => hi (mem_activeLanes.1 hm))
  · rw [hcc, Bool.false_or, List.any_eq_true]
    simp only [mem_activeLanes]
    rfl
  · have hi' : i.val < (activeLanes o.numVoices.toNat).length := hlen ▸ hi
    have hg := hget i.val hi' hi
    rw [show (activeLanes o.numVoices.toNat)[i.val] = i from Fin.ext (activeLanes_get hi')] at hg
    exact blend_blendedAt hw (resolve_valid hb _).2.2 hs hg
  · rw [hacc]

/-! Peak normalisation. -/

/-- The peak is the largest of the magnitudes of finite samples, and one of them (41_wavetable R172). -/
theorem peak_spec {a : List F64} (hf : ∀ x ∈ a, F64.isFinite x = true) :
    F64.isFinite (peak a) = true ∧ (∀ x ∈ a, F64.le (F64.abs x) (peak a) = true) ∧
      (a ≠ [] → ∃ x ∈ a, F64.abs x = peak a) := by
  induction a with
  | nil => exact ⟨F64.isFinite_zero, by simp, by simp⟩
  | cons x rest ih =>
    obtain ⟨hp, hle, hmem⟩ := ih fun y hy => hf y (by simp [hy])
    obtain ⟨hx, hs⟩ := F64.abs_spec (hf x (by simp))
    unfold peak
    split
    · rename_i h
      refine ⟨hx, fun y hy => ?_, fun _ => ⟨x, by simp, rfl⟩⟩
      rcases List.mem_cons.mp hy with rfl | hy
      · exact (F64.le_iff hx hx).2 (le_refl _)
      · have hy' := (F64.abs_spec (hf y (by simp [hy]))).1
        exact (F64.le_iff hy' hx).2 (((F64.le_iff hy' hp).1 (hle y hy)).trans ((F64.lt_iff hp hx).1 h).le)
    · rename_i h
      rw [F64.lt_iff hp hx, not_lt] at h
      refine ⟨hp, fun y hy => ?_, fun _ => ?_⟩
      · rcases List.mem_cons.mp hy with rfl | hy
        · exact (F64.le_iff hx hp).2 h
        · exact hle y hy
      · by_cases hr : rest = []
        · subst hr
          rw [peak, F64.scaled_zero, hs] at h
          have hm : F64.mag x = 0 := F64.scale_eq_zero.1 (by omega)
          exact ⟨x, by simp, by rw [F64.abs, hm]; decide⟩
        · obtain ⟨y, hy, e⟩ := hmem hr
          exact ⟨y, by simp [hy], e⟩

/-- Peak normalisation gives what the rule gives (41_wavetable R172). -/
theorem normalize_normalizedTo {a : List F64} (hf : ∀ x ∈ a, F64.isFinite x = true) (h : a ≠ []) (d : F64) :
    normalizedTo a.length (fun n => a.getD n d) (fun n => (normalize a).getD n d) := by
  obtain ⟨-, hle, hmem⟩ := peak_spec hf
  obtain ⟨x, hx, e⟩ := hmem h
  obtain ⟨n, hn, rfl⟩ := List.mem_iff_getElem.mp hx
  refine ⟨peak a, fun n hn => ?_, ⟨n, hn, ?_⟩, fun n hn => ?_⟩
  · simp only [List.getD_eq_getElem _ _ hn]
    exact hle _ (List.getElem_mem hn)
  · simpa only [List.getD_eq_getElem _ _ hn] using e
  · simp only [normalize]
    split <;> simp [List.getD_eq_getElem?_getD, hn]

end Sys2Proof.Machine
end

