-- ==== Sys2Proof/Laws/PerInstr.lean ====
section
/-! SUPPORT. Statements about every instruction as syntax, one lemma per constructor. -/

namespace Sys2Proof.Laws.WordFields

/-- The command word of an instruction carries its opcode in bits 31:26 and zero in every field the command does not
use (30_encoding R111, R113, R114, R124). -/
def Statement (i : Instr) : Prop :=
  opcodeOf (opField i.word) = some i.op ∧ i.word &&& zeroMask i.op = 0

/-- A word packed from its fields gives its opcode field back. -/
theorem opField_packWord (op : BitVec 6) (sl : BitVec 5) (j : BitVec 2) (fld : BitVec 4) (tag : BitVec 3)
    (imm : BitVec 12) : opField (packWord op sl j fld tag imm) = op := by
  ext k hk
  simp only [opField, packWord, BitVec.getElem_extractLsb', BitVec.getLsbD_append]
  have h : ¬(26 + k < 12) ∧ ¬(26 + k - 12 < 3) ∧ ¬(26 + k - 12 - 3 < 4) ∧ ¬(26 + k - 12 - 3 - 4 < 2) ∧
      ¬(26 + k - 12 - 3 - 4 - 2 < 5) ∧ 26 + k - 12 - 3 - 4 - 2 - 5 = k := by omega
  simp only [h.1, h.2.1, h.2.2.1, h.2.2.2.1, h.2.2.2.2.1, h.2.2.2.2.2, if_false]
  simp [BitVec.getLsbD_eq_getElem hk]

theorem opcodeOf_code (op : Op) : opcodeOf op.code = some op := by cases op <;> decide

/-- The fields of a packed word and those of a mask, field by field. -/
theorem packWord_and (op op' : BitVec 6) (sl sl' : BitVec 5) (j j' : BitVec 2) (fld fld' : BitVec 4)
    (tag tag' : BitVec 3) (imm imm' : BitVec 12) :
    packWord op sl j fld tag imm &&& packWord op' sl' j' fld' tag' imm' =
      packWord (op &&& op') (sl &&& sl') (j &&& j') (fld &&& fld') (tag &&& tag') (imm &&& imm') := by
  have h : ((op ++ sl ++ j ++ fld ++ tag ++ imm : BitVec (6 + 5 + 2 + 4 + 3 + 12)) &&&
      (op' ++ sl' ++ j' ++ fld' ++ tag' ++ imm')) =
      (op &&& op') ++ (sl &&& sl') ++ (j &&& j') ++ (fld &&& fld') ++ (tag &&& tag') ++ (imm &&& imm') := by
    simp only [BitVec.and_append]
  exact h

/-- The zero mask of an opcode, by fields. -/
theorem zeroMask_eq (op : Op) : zeroMask op =
    match op with
    | .nop | .reset | .rdstatus => packWord 0 31 3 15 7 4095
    | .wrparam => packWord 0 0 0 0 0 4095
    | .rdparam | .rdstate => packWord 0 0 0 0 7 4095
    | .rdcfg => packWord 0 31 3 0 7 4095
    | .rdout | .phrst | .oscstep => packWord 0 0 0 15 7 4095
    | .tblbuild | .tblload | .tblrd | .tblinfo => packWord 0 31 3 15 7 0
    | .trigger | .voicestep => packWord 0 0 3 15 7 4095
    | .preview => packWord 0 0 0 15 7 0 := by
  cases op <;> decide

theorem word_zero : packWord 0 0 0 0 0 0 = 0 := by decide

theorem and_zero_lit {n : Nat} (x : BitVec n) : x &&& 0 = 0 := BitVec.and_zero

theorem zero_lit_and {n : Nat} (x : BitVec n) : 0 &&& x = 0 := BitVec.zero_and

theorem nop : Statement (.nop) := by
  constructor
  · simp only [Instr.word, Instr.op, opField_packWord, opcodeOf_code]
  · simp only [Instr.word, Instr.op, zeroMask_eq, packWord_and, and_zero_lit, zero_lit_and, word_zero]

theorem reset : Statement (.reset) := by
  constructor
  · simp only [Instr.word, Instr.op, opField_packWord, opcodeOf_code]
  · simp only [Instr.word, Instr.op, zeroMask_eq, packWord_and, and_zero_lit, zero_lit_and, word_zero]

theorem wrparam (sl : BitVec 5) (j : BitVec 2) (fld : BitVec 4) (tag : BitVec 3) (v : Word) : Statement (.wrparam sl j fld tag v) := by
  constructor
  · simp only [Instr.word, Instr.op, opField_packWord, opcodeOf_code]
  · simp only [Instr.word, Instr.op, zeroMask_eq, packWord_and, and_zero_lit, zero_lit_and, word_zero]

theorem rdparam (sl : BitVec 5) (j : BitVec 2) (fld : BitVec 4) : Statement (.rdparam sl j fld) := by
  constructor
  · simp only [Instr.word, Instr.op, opField_packWord, opcodeOf_code]
  · simp only [Instr.word, Instr.op, zeroMask_eq, packWord_and, and_zero_lit, zero_lit_and, word_zero]

theorem rdcfg (fld : BitVec 4) : Statement (.rdcfg fld) := by
  constructor
  · simp only [Instr.word, Instr.op, opField_packWord, opcodeOf_code]
  · simp only [Instr.word, Instr.op, zeroMask_eq, packWord_and, and_zero_lit, zero_lit_and, word_zero]

theorem rdstatus : Statement (.rdstatus) := by
  constructor
  · simp only [Instr.word, Instr.op, opField_packWord, opcodeOf_code]
  · simp only [Instr.word, Instr.op, zeroMask_eq, packWord_and, and_zero_lit, zero_lit_and, word_zero]

theorem rdstate (sl : BitVec 5) (j : BitVec 2) (lane : BitVec 4) : Statement (.rdstate sl j lane) := by
  constructor
  · simp only [Instr.word, Instr.op, opField_packWord, opcodeOf_code]
  · simp only [Instr.word, Instr.op, zeroMask_eq, packWord_and, and_zero_lit, zero_lit_and, word_zero]

theorem rdout (sl : BitVec 5) (j : BitVec 2) : Statement (.rdout sl j) := by
  constructor
  · simp only [Instr.word, Instr.op, opField_packWord, opcodeOf_code]
  · simp only [Instr.word, Instr.op, zeroMask_eq, packWord_and, and_zero_lit, zero_lit_and, word_zero]

theorem tblbuild (t : BitVec 12) : Statement (.tblbuild t) := by
  constructor
  · simp only [Instr.word, Instr.op, opField_packWord, opcodeOf_code]
  · simp only [Instr.word, Instr.op, zeroMask_eq, packWord_and, and_zero_lit, zero_lit_and, word_zero]

theorem tblload (t : BitVec 12) (len : Word) (data : List Word) : Statement (.tblload t len data) := by
  constructor
  · simp only [Instr.word, Instr.op, opField_packWord, opcodeOf_code]
  · simp only [Instr.word, Instr.op, zeroMask_eq, packWord_and, and_zero_lit, zero_lit_and, word_zero]

theorem tblrd (t : BitVec 12) (addr : Word) : Statement (.tblrd t addr) := by
  constructor
  · simp only [Instr.word, Instr.op, opField_packWord, opcodeOf_code]
  · simp only [Instr.word, Instr.op, zeroMask_eq, packWord_and, and_zero_lit, zero_lit_and, word_zero]

theorem tblinfo (t : BitVec 12) : Statement (.tblinfo t) := by
  constructor
  · simp only [Instr.word, Instr.op, opField_packWord, opcodeOf_code]
  · simp only [Instr.word, Instr.op, zeroMask_eq, packWord_and, and_zero_lit, zero_lit_and, word_zero]

theorem phrst (sl : BitVec 5) (j : BitVec 2) : Statement (.phrst sl j) := by
  constructor
  · simp only [Instr.word, Instr.op, opField_packWord, opcodeOf_code]
  · simp only [Instr.word, Instr.op, zeroMask_eq, packWord_and, and_zero_lit, zero_lit_and, word_zero]

theorem oscstep (sl : BitVec 5) (j : BitVec 2) (f : Word) (dt : Word) : Statement (.oscstep sl j f dt) := by
  constructor
  · simp only [Instr.word, Instr.op, opField_packWord, opcodeOf_code]
  · simp only [Instr.word, Instr.op, zeroMask_eq, packWord_and, and_zero_lit, zero_lit_and, word_zero]

theorem trigger (sl : BitVec 5) : Statement (.trigger sl) := by
  constructor
  · simp only [Instr.word, Instr.op, opField_packWord, opcodeOf_code]
  · simp only [Instr.word, Instr.op, zeroMask_eq, packWord_and, and_zero_lit, zero_lit_and, word_zero]

theorem voicestep (sl : BitVec 5) (f0 : Word) (f1 : Word) (f2 : Word) (dt : Word) : Statement (.voicestep sl f0 f1 f2 dt) := by
  constructor
  · simp only [Instr.word, Instr.op, opField_packWord, opcodeOf_code]
  · simp only [Instr.word, Instr.op, zeroMask_eq, packWord_and, and_zero_lit, zero_lit_and, word_zero]

theorem preview (sl : BitVec 5) (j : BitVec 2) (n : BitVec 12) (f : Word) : Statement (.preview sl j n f) := by
  constructor
  · simp only [Instr.word, Instr.op, opField_packWord, opcodeOf_code]
  · simp only [Instr.word, Instr.op, zeroMask_eq, packWord_and, and_zero_lit, zero_lit_and, word_zero]

end Sys2Proof.Laws.WordFields
end

