-- ==== Sys2Proof/Laws/Encoding.lean ====
section
/-! SUPPORT. The fields of a packed command word, a word rebuilt from its fields, and little-endian bytes. -/

namespace Sys2Proof

theorem slotField_packWord (op : BitVec 6) (sl : BitVec 5) (j : BitVec 2) (fld : BitVec 4) (tag : BitVec 3)
    (imm : BitVec 12) : slotField (packWord op sl j fld tag imm) = sl := by
  ext k hk
  simp only [slotField, packWord, BitVec.getElem_extractLsb', BitVec.getLsbD_append]
  rw [if_neg (by omega), if_neg (by omega), if_neg (by omega), if_neg (by omega), if_pos (by omega),
    show 21 + k - 12 - 3 - 4 - 2 = k by omega, BitVec.getLsbD_eq_getElem hk]

theorem oscField_packWord (op : BitVec 6) (sl : BitVec 5) (j : BitVec 2) (fld : BitVec 4) (tag : BitVec 3)
    (imm : BitVec 12) : oscField (packWord op sl j fld tag imm) = j := by
  ext k hk
  simp only [oscField, packWord, BitVec.getElem_extractLsb', BitVec.getLsbD_append]
  rw [if_neg (by omega), if_neg (by omega), if_neg (by omega), if_pos (by omega),
    show 19 + k - 12 - 3 - 4 = k by omega, BitVec.getLsbD_eq_getElem hk]

theorem fieldField_packWord (op : BitVec 6) (sl : BitVec 5) (j : BitVec 2) (fld : BitVec 4) (tag : BitVec 3)
    (imm : BitVec 12) : fieldField (packWord op sl j fld tag imm) = fld := by
  ext k hk
  simp only [fieldField, packWord, BitVec.getElem_extractLsb', BitVec.getLsbD_append]
  rw [if_neg (by omega), if_neg (by omega), if_pos (by omega), show 15 + k - 12 - 3 = k by omega,
    BitVec.getLsbD_eq_getElem hk]

theorem tagField_packWord (op : BitVec 6) (sl : BitVec 5) (j : BitVec 2) (fld : BitVec 4) (tag : BitVec 3)
    (imm : BitVec 12) : tagField (packWord op sl j fld tag imm) = tag := by
  ext k hk
  simp only [tagField, packWord, BitVec.getElem_extractLsb', BitVec.getLsbD_append]
  rw [if_neg (by omega), if_pos (by omega), show 12 + k - 12 = k by omega, BitVec.getLsbD_eq_getElem hk]

theorem immField_packWord (op : BitVec 6) (sl : BitVec 5) (j : BitVec 2) (fld : BitVec 4) (tag : BitVec 3)
    (imm : BitVec 12) : immField (packWord op sl j fld tag imm) = imm := by
  ext k hk
  simp only [immField, packWord, BitVec.getElem_extractLsb', BitVec.getLsbD_append]
  rw [if_pos (by omega), Nat.zero_add, BitVec.getLsbD_eq_getElem hk]

/-- A command word is packed from its six fields. -/
theorem packWord_fields (w : CmdWord) :
    packWord (opField w) (slotField w) (oscField w) (fieldField w) (tagField w) (immField w) = w := by
  apply BitVec.eq_of_getLsbD_eq
  intro k hk
  simp only [packWord, BitVec.getLsbD_append, opField, slotField, oscField, fieldField, tagField, immField,
    BitVec.getLsbD_extractLsb']
  split
  · simp [*]
  · split
    · simp only [*, decide_true, Bool.true_and]; congr 1; omega
    · split
      · simp only [*, decide_true, Bool.true_and]; congr 1; omega
      · split
        · simp only [*, decide_true, Bool.true_and]; congr 1; omega
        · split
          · simp only [*, decide_true, Bool.true_and]; congr 1; omega
          · have h : k - 12 - 3 - 4 - 2 - 5 < 6 := by omega
            simp only [h, decide_true, Bool.true_and]; congr 1; omega

/-- Two command words with the same fields are the same word. -/
theorem word_ext {a b : CmdWord} (h1 : opField a = opField b) (h2 : slotField a = slotField b)
    (h3 : oscField a = oscField b) (h4 : fieldField a = fieldField b) (h5 : tagField a = tagField b)
    (h6 : immField a = immField b) : a = b := by
  rw [← packWord_fields a, ← packWord_fields b, h1, h2, h3, h4, h5, h6]

/-- Where the mask of a word has a field of ones, a word that is zero under the mask has that field zero. -/
theorem fields_of_and_packWord {w : CmdWord} {op : BitVec 6} {sl : BitVec 5} {j : BitVec 2} {fld : BitVec 4}
    {tag : BitVec 3} {imm : BitVec 12} (h : w &&& packWord op sl j fld tag imm = 0) :
    slotField w &&& sl = 0 ∧ oscField w &&& j = 0 ∧ fieldField w &&& fld = 0 ∧ tagField w &&& tag = 0 ∧
      immField w &&& imm = 0 := by
  rw [← packWord_fields w, Laws.WordFields.packWord_and] at h
  have e : ∀ {α : Type} (g : CmdWord → α), g (packWord (opField w &&& op) (slotField w &&& sl) (oscField w &&& j)
      (fieldField w &&& fld) (tagField w &&& tag) (immField w &&& imm)) = g 0 := fun g => by rw [h]
  have h2 := e slotField
  have h3 := e oscField
  have h4 := e fieldField
  have h5 := e tagField
  have h6 := e immField
  rw [slotField_packWord] at h2
  rw [oscField_packWord] at h3
  rw [fieldField_packWord] at h4
  rw [tagField_packWord] at h5
  rw [immField_packWord] at h6
  exact ⟨h2, h3, h4, h5, h6⟩

/-- An opcode is the one its code selects. -/
theorem opcodeOf_eq_some {code : BitVec 6} {op : Op} : opcodeOf code = some op ↔ code = op.code := by
  constructor
  · intro h
    revert h
    cases op <;> revert code <;> decide
  · rintro rfl
    exact Laws.WordFields.opcodeOf_code op

/-! Little-endian bytes. -/

@[simp] theorem leBytes_length (n v : Nat) : (leBytes n v).length = n := by
  induction n generalizing v with
  | zero => rfl
  | succ n ih => simp [leBytes, ih]

theorem leNat_leBytes (n v : Nat) : leNat (leBytes n v) = v % 256 ^ n := by
  induction n generalizing v with
  | zero => simp [leBytes, leNat, Nat.mod_one]
  | succ n ih =>
    simp only [leBytes, leNat, ih, BitVec.toNat_ofNat]
    rw [show 256 ^ (n + 1) = 256 * 256 ^ n by rw [Nat.pow_succ, Nat.mul_comm], Nat.mod_mul]

theorem leNat_lt : ∀ bs : List Byte, leNat bs < 256 ^ bs.length
  | [] => by simp [leNat]
  | b :: bs => by
    have h1 := leNat_lt bs
    have h2 := b.isLt
    simp only [leNat, List.length_cons, Nat.pow_succ]
    omega

/-- The bytes of a 64-bit word give it back. -/
theorem ofNat_leNat_leBytes_8 (w : Word) : BitVec.ofNat 64 (leNat (leBytes 8 w.toNat)) = w := by
  rw [leNat_leBytes]
  apply BitVec.eq_of_toNat_eq
  have := w.isLt
  rw [BitVec.toNat_ofNat]
  omega

/-- The bytes of a command word give it back. -/
theorem ofNat_leNat_leBytes_4 (w : CmdWord) : BitVec.ofNat 32 (leNat (leBytes 4 w.toNat)) = w := by
  rw [leNat_leBytes]
  apply BitVec.eq_of_toNat_eq
  have := w.isLt
  rw [BitVec.toNat_ofNat]
  omega

/-- Words sent byte by byte are taken back as words, with the rest of the stream. -/
theorem takeWords_leBytes (ws : List Word) (rest : List Byte) :
    takeWords ws.length ((ws.flatMap fun w => leBytes 8 w.toNat) ++ rest) = some (ws, rest) := by
  induction ws with
  | nil => simp [takeWords]
  | cons w ws ih =>
    simp only [List.length_cons, List.flatMap_cons, List.append_assoc, takeWords]
    have h8 : (leBytes 8 w.toNat).length = 8 := leBytes_length 8 _
    rw [if_neg (by simp only [List.length_append, h8]; omega), List.drop_left' h8, ih, List.take_left' h8,
      ofNat_leNat_leBytes_8]

end Sys2Proof
end

