-- ==== Sys2Proof/Tests/Slice0.lean ====
section
/-! SUPPORT. The model's own tests: well-formedness, decoding of words written out from the encoding, single steps with
results from the spec's worked cases, and for each statement with hypotheses a state and operands that meet them. -/

namespace Sys2Proof.Tests

open Sys2Proof.Machine

-- One theorem after another: evaluations that wait for one another would each hold a thread.
set_option Elab.async false

/-! ### Well-formedness: one ill-formed term for each check -/

theorem test_wf_wrparam_osc : (Instr.wrparam 0 3 0 1 0).wellFormed = false := by decide
theorem test_wf_wrparam_field : (Instr.wrparam 0 0 6 1 0).wellFormed = false := by decide
theorem test_wf_rdparam_osc : (Instr.rdparam 0 3 0).wellFormed = false := by decide
theorem test_wf_rdparam_field : (Instr.rdparam 0 0 6).wellFormed = false := by decide
theorem test_wf_rdcfg_field : (Instr.rdcfg 15).wellFormed = false := by decide
theorem test_wf_rdstate_osc : (Instr.rdstate 0 3 0).wellFormed = false := by decide
theorem test_wf_rdstate_lane : (Instr.rdstate 0 0 7).wellFormed = false := by decide
theorem test_wf_tblbuild_slot : (Instr.tblbuild 8).wellFormed = false := by decide
theorem test_wf_tblload_slot0 : (Instr.tblload 0 0 []).wellFormed = false := by decide
theorem test_wf_tblload_slot8 : (Instr.tblload 8 0 []).wellFormed = false := by decide
theorem test_wf_tblload_length : (Instr.tblload 1 9 [0]).wellFormed = false := by decide
theorem test_wf_tblrd_slot : (Instr.tblrd 8 0).wellFormed = false := by decide
theorem test_wf_tblinfo_slot : (Instr.tblinfo 8).wellFormed = false := by decide
theorem test_wf_phrst_osc : (Instr.phrst 0 3).wellFormed = false := by decide
theorem test_wf_oscstep_osc : (Instr.oscstep 0 3 0 0).wellFormed = false := by decide
theorem test_wf_preview_osc : (Instr.preview 0 3 0 0).wellFormed = false := by decide
/-- Every 12-bit length is a legal preview length (30_encoding R117), so that this check refuses nothing. -/
theorem test_wf_preview_length : (Instr.preview 0 0 0xFFF 0).wellFormed = true := by decide
theorem test_wf_accepts : (Instr.wrparam 31 2 5 7 0).wellFormed = true ∧ (Instr.tblload 7 9 [0, 0]).wellFormed = true ∧
    (Instr.rdstate 31 2 6).wellFormed = true ∧ (Instr.rdcfg 14).wellFormed = true := by decide

/-! ### Decoding: each constructor from its word, OP SLOT OSC FIELD TAG IMM written bit by bit (30_encoding R111, R123) -/

theorem test_decode_nop : decodeFrame ⟨0b00000000000000000000000000000000, []⟩ = .ok .nop := by decide
theorem test_decode_reset : decodeFrame ⟨0b00000100000000000000000000000000, []⟩ = .ok .reset := by decide
theorem test_decode_wrparam : decodeFrame ⟨0b00001000011010000001000000000000, [5]⟩ = .ok (.wrparam 3 1 0 1 5) := by decide
theorem test_decode_rdparam : decodeFrame ⟨0b00001111111100101000000000000000, []⟩ = .ok (.rdparam 31 2 5) := by decide
theorem test_decode_rdcfg : decodeFrame ⟨0b00010000000001110000000000000000, []⟩ = .ok (.rdcfg 14) := by decide
theorem test_decode_rdstatus : decodeFrame ⟨0b00010100000000000000000000000000, []⟩ = .ok .rdstatus := by decide
theorem test_decode_rdstate : decodeFrame ⟨0b00011011111100110000000000000000, []⟩ = .ok (.rdstate 31 2 6) := by decide
theorem test_decode_rdout : decodeFrame ⟨0b00011100101110000000000000000000, []⟩ = .ok (.rdout 5 3) := by decide
theorem test_decode_tblbuild : decodeFrame ⟨0b00100000000000000000000000000111, []⟩ = .ok (.tblbuild 7) := by decide
theorem test_decode_tblload :
    decodeFrame ⟨0b00100100000000000000000000000001, [9, 1, 2]⟩ = .ok (.tblload 1 9 [1, 2]) := by decide
theorem test_decode_tblrd : decodeFrame ⟨0b00101000000000000000000000000011, [2]⟩ = .ok (.tblrd 3 2) := by decide
theorem test_decode_tblinfo : decodeFrame ⟨0b00101100000000000000000000000010, []⟩ = .ok (.tblinfo 2) := by decide
theorem test_decode_phrst : decodeFrame ⟨0b01000000010010000000000000000000, []⟩ = .ok (.phrst 2 1) := by decide
theorem test_decode_oscstep : decodeFrame ⟨0b01000111111100000000000000000000, [1, 2]⟩ = .ok (.oscstep 31 2 1 2) := by decide
theorem test_decode_trigger : decodeFrame ⟨0b01100000001000000000000000000000, []⟩ = .ok (.trigger 1) := by decide
theorem test_decode_voicestep :
    decodeFrame ⟨0b01100111111000000000000000000000, [1, 2, 3, 4]⟩ = .ok (.voicestep 31 1 2 3 4) := by decide
theorem test_decode_preview : decodeFrame ⟨0b01101000010010000000000000010000, [7]⟩ = .ok (.preview 2 1 16 7) := by decide

/-- The pseudo-commands of 30_encoding R134, by their words. -/
theorem test_pseudo_words :
    encode (Pseudo.syncon 0).expand = ⟨0x080A2000, [1]⟩ ∧ encode (Pseudo.setvoices 0 0 3).expand = ⟨0x08008000, [3]⟩ ∧
    encode (Pseudo.setspread 0 0 0x406F400000000000).expand = ⟨0x08011000, [0x406F400000000000]⟩ ∧
    encode (Pseudo.setwave 0 0 0x3FD0000000000000).expand = ⟨0x08019000, [0x3FD0000000000000]⟩ ∧
    encode (Pseudo.settable 0 0 1).expand = ⟨0x0802B000, [1]⟩ ∧
    encode (Pseudo.setlevel 0 0 0x3FE0000000000000).expand = ⟨0x08001000, [0x3FE0000000000000]⟩ ∧
    encode (Pseudo.rdmix 5).expand = ⟨0x1CB80000, []⟩ := by decide

/-- The decode faults of 95 section 2.1, first cause first. -/
theorem test_decode_faults :
    decodeFrame ⟨0x30000000, []⟩ = .error .illegalOpcode ∧ decodeFrame ⟨0xFC000000, [0, 0]⟩ = .error .illegalOpcode ∧
    decodeFrame ⟨0x00000001, []⟩ = .error .reservedBits ∧ decodeFrame ⟨0x08000001, [1]⟩ = .error .reservedBits ∧
    decodeFrame ⟨0x08001000, []⟩ = .error .frameLength ∧ decodeFrame ⟨0x24000001, [9, 0]⟩ = .error .frameLength ∧
    decodeFrame ⟨0x1C008000, []⟩ = .error .reservedBits ∧ decodeFrame ⟨0x60080000, []⟩ = .error .reservedBits := by decide

/-- The byte transport of 20_memory R80 and 30_encoding R126: a TBLLOAD of 9 bytes takes two words after its length. -/
theorem test_decode_bytes :
    decodeBytes [0x01, 0x00, 0x00, 0x24, 9, 0, 0, 0, 0, 0, 0, 0, 1, 2, 0, 0, 0, 0, 0, 0, 3, 0, 0, 0, 0, 0, 0, 0, 0xAA] =
      .ok (.tblload 1 9 [0x201, 3], [0xAA]) ∧
    decodeBytes [0x00, 0x00, 0x00] = .error .truncated ∧
    decodeBytes [0x00, 0x00, 0x00, 0x30] = .error (.fault .illegalOpcode) := by decide

/-- An instruction of the opcode table with no bits given for its operands has operand words of zeros. -/
theorem test_table_word :
    decodeTableWord 32 0x44000000 = some (.oscstep 0 0 0 0) ∧ decodeTableWord 32 0x24000001 = some (.tblload 1 0 []) ∧
    decodeTableWord 32 0x30000000 = none := by decide

/-! ### The states the tests start from -/

/-- The reset state at TC (95 section 0). -/
def tc : State := State.resetOf Config.tc

/-- Table A, the normalised samples of the file FA with the guard sample (95 section 1.2). -/
def tableA : List F64 :=
  [0, 0x3FE0000000000000, 0x3FF0000000000000, 0x3FE0000000000000, 0, 0xBFE0000000000000, 0xBFF0000000000000,
    0xBFE0000000000000, 0]

/-- The start state of 42_oscillator.md: table A in slot 1, which every oscillator reads, STATUS 0x11000. -/
def ready : State :=
  { tc with
    slots := Vector.replicate Config.numSlots ⟨Vector.replicate Config.numOsc { Osc.reset with wavetable := 1 }, 0⟩
    status := ⟨0, false, 1, 1, 0⟩
    tables := (resetTables Config.tc).set 1 (TableSlot.holding (List.replicate 11 tableA).flatten 1) }

/-- `s` with one frame at the port, from the control agent. -/
def deliver (s : State) (fr : Frame) : State := { s with port := { Port.idle with current := [fr] } }

/-- The state an outcome gives; the reset state of TC when it gives none. -/
def nextOf : Host.Outcome State Fault Refusal → State
  | .next t => t
  | .fault _ => tc
  | .refused _ => tc

/-- The outcome is a next state. -/
def isNext : Host.Outcome State Fault Refusal → Bool
  | .next _ => true
  | .fault _ => false
  | .refused _ => false

theorem nextOf_eq {o : Host.Outcome State Fault Refusal} (h : isNext o = true) : o = .next (nextOf o) := by
  cases o <;> first | rfl | exact absurd h (by simp [isNext])

/-- The response to one frame: header and payload. -/
def answer (s : State) (fr : Frame) : List Word :=
  match (nextOf (step (deliver s fr))).port.replies with
  | [r] => r.header :: r.payload
  | _ => [0xDEAD]

/-- The state after one frame. -/
def after (s : State) (fr : Frame) : State := nextOf (step (deliver s fr))

/-- The operand words of TBLLOAD of the file FA (95 section 3.3). -/
def fileFA : List Word :=
  [0x2C, 0x6174616454564157, 0x20, 0x3F0000003E800000, 0x3E800000, 0xBF000000BE800000, 0xBE800000]

/-- A block halted by the first fault of 95 section 2.3. -/
def halted : State := tc.takeFault .tagMismatch 0x08000000

/-- A slot in which oscillator 1 follows oscillator 0, which stands one sample before its wrap (43 R254). -/
def syncing : State :=
  (ready.setOsc 0 0 { ready.osc 0 0 with pos := (ready.osc 0 0).pos.set 0 0x4018000000000000 }).setOsc 0 1
    { ready.osc 0 1 with level := F64.one, sync := 1, pos := (ready.osc 0 1).pos.set 0 F64.two }

/-! ### Single steps, with results from 95_test_vectors.md and the worked cases of 42 and 43 -/

theorem test_nop : answer tc ⟨0x00000000, []⟩ = [0] := by decide +kernel
theorem test_nop_halted : answer halted ⟨0x00000000, []⟩ = [0xFF] := by decide +kernel
theorem test_reset_recovers : answer halted ⟨0x04000000, []⟩ = [0] ∧
    (after halted ⟨0x04000000, []⟩).status.word = 0 := by decide +kernel
theorem test_reset_inexact_ignored : answer halted ⟨0x04000001, []⟩ = [0xFF] := by decide +kernel
/-- LEVEL −0.0 stores +0.0 (95 section 2.2). -/
theorem test_wrparam_negative_zero :
    ((after tc ⟨0x08481000, [0x8000000000000000]⟩).osc 2 1).level = 0 := by decide +kernel
/-- NUM_VOICES −5 stores 1 (95 section 2.2). -/
theorem test_wrparam_clamps_int :
    ((after tc ⟨0x08488000, [0xFFFFFFFFFFFFFFFB]⟩).osc 2 1).numVoices = 1 := by decide +kernel
theorem test_rdparam : answer tc ⟨0x0C008000, []⟩ = [0, 0, 1] := by decide +kernel
theorem test_rdcfg_p : answer tc ⟨0x10008000, []⟩ = [0, 0, 8] := by decide +kernel
theorem test_rdcfg_15 : (after tc ⟨0x10078000, []⟩).status.word = 0x1007800000000103 := by decide +kernel
theorem test_rdstatus_halted : answer halted ⟨0x14000000, []⟩ = [0, 0x0800000000000104] := by decide +kernel
theorem test_rdstate : answer syncing ⟨0x18000000, []⟩ = [0, 0x4018000000000000] := by decide +kernel
theorem test_rdstate_lane7 : (after tc ⟨0x18038000, []⟩).status.word = 0x1803800000000103 := by decide +kernel
theorem test_rdout_mix : answer tc ⟨0x1CB80000, []⟩ = [0, 0, 0] := by decide +kernel
theorem test_tblbuild : answer tc ⟨0x20000007, []⟩ = [0, 4] := by decide +kernel
theorem test_tblbuild_8 : (after tc ⟨0x20000008, []⟩).status.word = 0x2000000800000103 := by decide +kernel
/-- FA loads as table A with code 1 (95 section 2.6). -/
theorem test_tblload_fa : answer tc ⟨0x24000001, fileFA⟩ = [0, 1] ∧
    ((List.range 9).map fun n => ((after tc ⟨0x24000001, fileFA⟩).table 1).word 8 0 10 n) = tableA := by decide +kernel
/-- A missing file is no fault: code 2 and the built-in set (95 section 2.6). -/
theorem test_tblload_missing : answer tc ⟨0x24000003, [0]⟩ = [0, 2] ∧
    (after tc ⟨0x24000003, [0]⟩).status.word = 0x32000 ∧ ((after tc ⟨0x24000003, [0]⟩).table 3).ntab = 4 := by
  decide +kernel
theorem test_tblrd : answer ready ⟨0x28000001, [0x00050006]⟩ = [0, 0xBFF0000000000000] := by decide +kernel
theorem test_tblrd_reserved : (after tc ⟨0x28000000, [0x10000000]⟩).status.word = 0x2800000000000102 := by decide +kernel
theorem test_tblinfo : answer tc ⟨0x2C000000, []⟩ = [0, 1, 4] := by decide +kernel
theorem test_tblinfo_slot_bits : (after tc ⟨0x2C200000, []⟩).status.word = 0x2C20000000000102 := by decide +kernel
theorem test_phrst : ((after syncing ⟨0x40000000, []⟩).osc 0 0).pos = Vector.replicate Config.maxUnison 0 := by decide +kernel
/-- "linear" of 42 R223: f 1250 gives 0.625. -/
theorem test_oscstep_linear :
    answer ready ⟨0x44000000, [0x4093880000000000, 0x3FF0000000000000]⟩ = [0, 0x3FE4000000000000, 0] := by decide +kernel
/-- "negative f" of 42 R223: f −1000 wraps to 7.0 and gives −0.5. -/
theorem test_oscstep_negative :
    answer ready ⟨0x44000000, [0xC08F400000000000, 0x3FF0000000000000]⟩ = [0, 0xBFE0000000000000, 1] ∧
    ((after ready ⟨0x44000000, [0xC08F400000000000, 0x3FF0000000000000]⟩).osc 0 0).pos[0] = 0x401C000000000000 := by
  decide +kernel
theorem test_trigger : ∀ j : OscNo, ((after syncing ⟨0x60000000, []⟩).osc 0 j).pos = Vector.replicate Config.maxUnison 0 := by
  decide +kernel
/-- "sync on, step 3" of 43 R254: (0.5, 1), positions 1.0, 1.0, +0.0. -/
theorem test_voicestep_sync :
    answer syncing ⟨0x64000000, [0x40A7700000000000, 0x408F400000000000, 0, 0x3FF0000000000000]⟩ =
      [0, 0x3FE0000000000000, 1] ∧
    ((after syncing ⟨0x64000000, [0x40A7700000000000, 0x408F400000000000, 0, 0x3FF0000000000000]⟩).osc 0 1).pos[0] =
      0x3FF0000000000000 := by decide +kernel
/-- "renormalised, step 1" of 43 R254: levels 0.5, 0.5, 0.5 give 0.6666666666666666. -/
theorem test_voicestep_renormalised :
    answer { ready with slots := Vector.replicate Config.numSlots ⟨Vector.replicate Config.numOsc
        { Osc.reset with wavetable := 1, level := 0x3FE0000000000000 }, 0⟩ }
      ⟨0x64000000, [0x408F400000000000, 0x409F400000000000, 0x40A7700000000000, 0x3FF0000000000000]⟩ =
      [0, 0x3FE5555555555555, 0] := by decide +kernel
/-- The first three samples of 43 R253's example. -/
theorem test_preview : answer ready ⟨0x68000003, [0x408F400000000000]⟩ =
    [0, 0x3FE0000000000000, 0x3FF0000000000000, 0x3FE0000000000000] := by decide +kernel

/-! The corners of 42 R224. -/

theorem test_wrap_tiny_negative : wrap 8 0x81A56E1FC2F8F359 = (F64.zero, true) := by decide +kernel
theorem test_wrap_minus_p : wrap 8 0xC020000000000000 = (F64.zero, true) := by decide +kernel
theorem test_wrap_p : wrap 8 0x4020000000000000 = (F64.zero, true) ∧ wrap 8 0x4021000000000000 = (0x3FE0000000000000, true)
    ∧ wrap 8 0x401FFFFFFFFFFFFF = (0x401FFFFFFFFFFFFF, false) ∧ wrap 8 F64.zero = (F64.zero, false) := by decide +kernel
/-- 1000.0, 1000.5, 2000.0, 2000.5, 1024000.0 and 1e9 Hz. -/
theorem test_octave : [0, 0x408F400000000000, 0x408F440000000000, 0x409F400000000000, 0x409F420000000000,
    0x412F400000000000, 0x41CDCD6500000000].map (octave Config.tc) = [0, 0, 1, 1, 2, 10, 10] := by decide +kernel

/-- Detune, advance and snap (42 R211, R212, R216, R223): the lanes of "unison 3", at 1000, 1250 and 500 Hz; fractions
0.0625 and 0.9375 snap to the samples 0.5 and 1.0, the fraction 0.1 between 0 and 0.5 gives 0.05. -/
theorem test_datapath :
    ([0, 1, 2].map fun i => laneFreq 0x408F400000000000 0x406F400000000000 i) =
      [0x408F400000000000, 0x4093880000000000, 0x407F400000000000] ∧
    advance Config.tc 0x4093880000000000 F64.one = 0x3FF4000000000000 ∧
    interpolate 0x3FB0000000000000 0x3FE0000000000000 F64.one = 0x3FE0000000000000 ∧
    interpolate 0x3FEE000000000000 0x3FE0000000000000 F64.one = F64.one ∧
    interpolate 0x3FB999999999999A F64.zero 0x3FE0000000000000 = 0x3FA999999999999A := by decide +kernel

/-- A saw table of the built-in set at TC (95 section 2.8): octave 0, n = 0 to 8, in bits; and the square's peak. -/
theorem test_built_in_set :
    ((List.range 9).map fun n => (tc.table 0).word 8 2 0 n) =
      [0xBCB2593E0ED76867, 0x3FF0000000000000, 0x3FDD926ADA6D2BF9, 0x3FD3A45FB85C3E10, 0x3CA876FD691F35DF,
        0xBFD3A45FB85C3E10, 0xBFDD926ADA6D2BF1, 0xBFEFFFFFFFFFFFFF, 0xBCB2593E0ED76867] ∧
    (tc.table 0).word 8 3 0 5 = 0xBFF0000000000000 := by decide +kernel

/-- H(o) at TC and RC (95 section 2.7). -/
theorem test_harmonics : (List.range 11).map (harmonics Config.tc.toParams) = [3, 2, 1, 0, 0, 0, 0, 0, 0, 0, 0] ∧
    (List.range 11).map (harmonics (Params.rc [])) = [1023, 551, 275, 137, 68, 34, 17, 8, 4, 2, 1] := by decide +kernel

/-! binary64 corners (00_scope R12): ties to even, a subnormal sum, overflow, 0.1 + 0.2. -/

theorem test_float_add : F64.add 0x3FB999999999999A 0x3FC999999999999A = 0x3FD3333333333334 ∧
    F64.add 0x7FEFFFFFFFFFFFFF 0x7FEFFFFFFFFFFFFF = 0x7FF0000000000000 ∧
    F64.add F64.one 0x3CA0000000000000 = F64.one ∧ F64.add 0x3FF0000000000001 0x3CA0000000000000 = 0x3FF0000000000002 ∧
    F64.add 1 1 = 2 ∧ F64.add F64.zero F64.negZero = F64.zero := by decide +kernel
theorem test_float_div : F64.div F64.one 0x4008000000000000 = 0x3FD5555555555555 ∧
    F64.div 0x4000000000000000 0x4008000000000000 = 0x3FE5555555555555 ∧
    F64.div 1 F64.two = 0 ∧ F64.div 3 F64.two = 2 ∧ F64.div F64.one F64.zero = 0x7FF0000000000000 := by decide +kernel
/-- 20_memory R87: the binary32 subnormal 0x000116C2 is exact; 0.25, −0.5 and +∞. -/
theorem test_binary32 : F64.ofBinary32 0x3E800000 = 0x3FD0000000000000 ∧ F64.ofBinary32 0xBF000000 = 0xBFE0000000000000 ∧
    F64.toRat (F64.ofBinary32 0x000116C2) = 71362 / 2 ^ 149 ∧ F64.ofBinary32 0x7F800000 = 0x7FF0000000000000 := by
  decide +kernel

/-! ### Witnesses: for each statement with hypotheses, values that meet all of them -/

theorem test_tc_positions : tc.PositionsLegal := by decide +kernel
theorem test_tc_params : tc.ParamsLegal := by decide +kernel
theorem test_tc_bookkeeping : tc.BookkeepingLegal := by decide +kernel
theorem test_tc_guards : tc.GuardsLegal := by decide +kernel
theorem test_tc_normal : tc.TablesNormal := by decide +kernel
theorem test_tc_canonical : tc.MemoryCanonical := by decide +kernel
theorem test_tc_status : tc.StatusLegal := by decide +kernel
theorem test_ready_legal : ready.Legal := ⟨by decide +kernel, by decide +kernel, by decide +kernel⟩
theorem test_ready_guards : ready.GuardsLegal := by decide +kernel
theorem test_ready_normal : ready.TablesNormal := by decide +kernel
theorem test_ready_canonical : ready.MemoryCanonical := by decide +kernel
theorem test_ready_status : ready.StatusLegal := by decide +kernel
theorem test_syncing_legal : syncing.Legal := ⟨by decide +kernel, by decide +kernel, by decide +kernel⟩
theorem test_halted_status : halted.StatusLegal := by decide +kernel

/-- A state with an OSCSTEP at the port that completes and moves lane 0. -/
def stepping : State := deliver ready ⟨0x44000000, [0x4093880000000000, 0x3FF0000000000000]⟩

theorem test_stepping_next : step stepping = .next (nextOf (step stepping)) := nextOf_eq (by decide +kernel)
theorem test_stepping_moves : ((nextOf (step stepping)).osc 0 0).pos ≠ (stepping.osc 0 0).pos := by decide +kernel

/-- EncodeThenDecode: a TBLLOAD of nine bytes and one of none, and an instruction that is no TBLLOAD. -/
theorem test_witness_EncodeThenDecode :
    (∀ t len data, Instr.tblload 1 9 [3, 4] = .tblload t len data → data.length = (len.toNat + 7) / 8) ∧
    (∀ t len data, Instr.tblload 7 0 [] = .tblload t len data → data.length = (len.toNat + 7) / 8) ∧
    (∀ t len data, Instr.nop = .tblload t len data → data.length = (len.toNat + 7) / 8) := by
  refine ⟨?_, ?_, ?_⟩ <;> intro t len data h <;> simp at h
  · obtain ⟨-, rfl, rfl⟩ := h; rfl
  · obtain ⟨-, rfl, rfl⟩ := h; rfl

theorem test_witness_DecodeThenEncode : decodeFrame ⟨0x68480010, [7]⟩ = .ok (.preview 2 1 16 7) := by decide

/-- ByteTransportRoundTrip: no operands, an unassigned OP, four operands, a TBLLOAD of nine bytes. -/
theorem test_witness_ByteTransportRoundTrip :
    lengthRight ⟨0x00000000, []⟩ ∧ lengthRight ⟨0x30000000, []⟩ ∧ lengthRight ⟨0x64000000, [1, 2, 3, 4]⟩ ∧
    lengthRight ⟨0x24000001, [9, 1, 2]⟩ :=
  ⟨rfl, rfl, rfl, ⟨9, [1, 2], rfl, rfl⟩⟩

/-- DecodeFaultOrder: a running block with a frame at the port, and for each clause a frame that meets it. -/
theorem test_witness_DecodeFaultOrder :
    (∀ fr, (deliver tc fr).status.halted = false ∧ (deliver tc fr).port.fetch = (some fr, Port.idle)) ∧
    opcodeOf (opField 0x30000000) = none ∧
    (opcodeOf (opField 0x08001001) = some .wrparam ∧ ¬ lengthRight ⟨0x08001001, []⟩) ∧
    (lengthRight ⟨0x08001001, [0]⟩ ∧ (0x08001001 : CmdWord) &&& zeroMask .wrparam ≠ 0) ∧
    (lengthRight ⟨0x08001000, [0]⟩ ∧ (0x08001000 : CmdWord) &&& zeroMask .wrparam = 0) := by
  refine ⟨fun fr => ⟨rfl, rfl⟩, by decide, ⟨by decide, ?_⟩, ⟨rfl, by decide⟩, ⟨rfl, by decide⟩⟩
  show ¬ (0 = 1)
  decide

/-- StepRunsDecodedCommand: a frame of the block in progress, one that decodes, one that does not. -/
theorem test_witness_StepRunsDecodedCommand :
    (deliver tc ⟨0, []⟩).port.current = ⟨0, []⟩ :: [] ∧
    (deliver tc ⟨0, []⟩).port.fetch = (some ⟨0, []⟩, Port.idle) ∧ decodeFrame ⟨0, []⟩ = .ok .nop ∧
    (deliver tc ⟨1, []⟩).port.fetch = (some ⟨1, []⟩, Port.idle) ∧ decodeFrame ⟨1, []⟩ = .error .reservedBits :=
  ⟨rfl, rfl, by decide, rfl, by decide⟩

theorem test_witness_TableWordRunsNext : decodeTableWord 32 0x40000000 = some (.phrst 0 0) := by decide

/-- OneResponsePerCommand: a command that completes, one that faults, one that is ignored. -/
theorem test_witness_OneResponsePerCommand :
    (∃ port t, (deliver tc ⟨0, []⟩).port.fetch = (some ⟨0, []⟩, port) ∧ step (deliver tc ⟨0, []⟩) = .next t) ∧
    (∃ port t, (deliver tc ⟨1, []⟩).port.fetch = (some ⟨1, []⟩, port) ∧ step (deliver tc ⟨1, []⟩) = .next t) ∧
    (∃ port t, (deliver halted ⟨0, []⟩).port.fetch = (some ⟨0, []⟩, port) ∧
      step (deliver halted ⟨0, []⟩) = .next t) :=
  ⟨⟨_, _, rfl, nextOf_eq (by decide +kernel)⟩, ⟨_, _, rfl, nextOf_eq (by decide +kernel)⟩,
    ⟨_, _, rfl, nextOf_eq (by decide +kernel)⟩⟩

/-- Two agents with a block each, and no block in progress. -/
def contended : State := { tc with port := { Port.idle with render := [[⟨0, []⟩]], control := [[⟨0, []⟩, ⟨0, []⟩]] } }

/-- BlocksNeverInterleave: a block in progress; none, with one agent waiting; none, with nothing waiting. With both
waiting the step's choice is a free value, and either choice gives a next state. -/
theorem test_witness_BlocksNeverInterleave :
    (∃ t, (deliver tc ⟨0, []⟩).port.current = ⟨0, []⟩ :: [] ∧ step (deliver tc ⟨0, []⟩) = .next t) ∧
    (∃ t, tc.port.current = [] ∧ step tc = .next t) ∧
    (∃ t, contended.port.current = [] ∧ step contended = .next t) := by
  refine ⟨⟨_, rfl, nextOf_eq (by decide +kernel)⟩, ⟨_, rfl, nextOf_eq (by decide +kernel)⟩, ?_⟩
  cases h : Config.grant 0 with
  | render =>
    have hf : contended.port.fetch =
        (some ⟨0, []⟩, { Port.idle with holder := .render, render := [], control := [[⟨0, []⟩, ⟨0, []⟩]], grants := 1 }) := by
      simp [contended, Port.fetch, Port.acquire, Port.idle, h]
    exact ⟨_, rfl, by rw [step, hf]; rfl⟩
  | control =>
    have hf : contended.port.fetch =
        (some ⟨0, []⟩, { Port.idle with current := [⟨0, []⟩], render := [[⟨0, []⟩]], grants := 1 }) := by
      simp [contended, Port.fetch, Port.acquire, Port.idle, h]
    exact ⟨_, rfl, by rw [step, hf]; rfl⟩

/-- IdlePortKeepsBlock: an empty block that is acquired, and a port with nothing at all. -/
theorem test_witness_IdlePortKeepsBlock :
    ({ Port.idle with render := [[]] } : Port).fetch = (none, { Port.idle with holder := .render }) ∧
    tc.port.current = [] ∧ tc.port.render = [] ∧ tc.port.control = [] := by decide

theorem test_witness_FaultsArePrecise :
    (deliver tc ⟨1, []⟩).status.halted = false ∧
    step (deliver tc ⟨1, []⟩) = .next (after tc ⟨1, []⟩) ∧ (after tc ⟨1, []⟩).status.halted = true :=
  ⟨rfl, nextOf_eq (by decide +kernel), by decide +kernel⟩

/-- HaltedBlockIsQuiescent: RESET, RDSTATUS and another frame; and a step without the RESET frame. -/
theorem test_witness_HaltedBlockIsQuiescent :
    (∀ fr, (deliver halted fr).status.halted = true ∧ (deliver halted fr).port.fetch = (some fr, Port.idle)) ∧
    step (deliver halted ⟨0, []⟩) = .next (after halted ⟨0, []⟩) ∧
    (∀ port, (deliver halted ⟨0, []⟩).port.fetch ≠ (some ⟨0x04000000, []⟩, port)) := by
  refine ⟨fun fr => ⟨rfl, rfl⟩, nextOf_eq (by decide +kernel), fun port h => ?_⟩
  have : (some (⟨0, []⟩ : Frame)) = some ⟨0x04000000, []⟩ := congrArg Prod.fst h
  exact absurd this (by decide)

/-- ReadsChangeNoState: each of the nine commands completes without a halt. -/
theorem test_witness_ReadsChangeNoState :
    ∀ i ∈ [Instr.rdparam 0 0 0, .rdcfg 1, .rdstatus, .rdstate 0 0 0, .rdout 0 3, .tblrd 1 2, .tblinfo 1, .nop,
        .preview 0 0 2 0x408F400000000000],
      i.op ∈ [Op.rdparam, .rdcfg, .rdstatus, .rdstate, .rdout, .tblrd, .tblinfo, .nop, .preview] ∧
      exec i ready = .next (nextOf (exec i ready)) ∧ (nextOf (exec i ready)).status.halted = ready.status.halted := by
  have h : ∀ i ∈ [Instr.rdparam 0 0 0, .rdcfg 1, .rdstatus, .rdstate 0 0 0, .rdout 0 3, .tblrd 1 2, .tblinfo 1, .nop,
        .preview 0 0 2 0x408F400000000000],
      i.op ∈ [Op.rdparam, .rdcfg, .rdstatus, .rdstate, .rdout, .tblrd, .tblinfo, .nop, .preview] ∧
      isNext (exec i ready) = true ∧ (nextOf (exec i ready)).status.halted = ready.status.halted := by decide +kernel
  exact fun i hi => ⟨(h i hi).1, nextOf_eq (h i hi).2.1, (h i hi).2.2⟩

/-- LegalBlockNeverStops, LanePositionsKept, ParametersKept, BookkeepingKept, GuardSamplesKept, TablesStayNormalised,
TableMemoryStaysCanonical, StatusStaysConsistent, ConfigurationNeverChanges: a legal state and a step of it. -/
theorem test_witness_invariants :
    stepping.Legal ∧ stepping.GuardsLegal ∧ stepping.TablesNormal ∧ stepping.MemoryCanonical ∧ stepping.StatusLegal ∧
    step stepping = .next (nextOf (step stepping)) :=
  ⟨test_ready_legal, test_ready_guards, test_ready_normal, test_ready_canonical, test_ready_status, test_stepping_next⟩

/-- The same with a TBLLOAD at the port, which writes a table. -/
theorem test_witness_invariants_load :
    step (deliver ready ⟨0x24000002, fileFA⟩) = .next (after ready ⟨0x24000002, fileFA⟩) ∧
    (after ready ⟨0x24000002, fileFA⟩).tables ≠ ready.tables := ⟨nextOf_eq (by decide +kernel), by decide +kernel⟩

/-- LegalBlockNeverStops: runs to their end (70 R355). One OSCSTEP succeeds; a fault and the RESET after it do not
(60_exceptions R302). -/
theorem test_witness_runs :
    stepping.runSucceeded [nextOf (step stepping)] ∧
    (let s : State := { tc with port := { Port.idle with current := [⟨1, []⟩, ⟨0x04000000, []⟩] } }
     let ts := [nextOf (step s), nextOf (step (nextOf (step s)))]
     s.runEnded ts ∧ (s.lastOf ts).safe ∧ s.runFaulted ts ∧ ¬ s.runSucceeded ts) := by
  have faulted : ∀ s : State, ∀ t u, t.status.halted = true → s.runFaulted [t, u] := fun s t u h =>
    ⟨t, by simp, h⟩
  refine ⟨⟨⟨⟨test_stepping_next, trivial⟩, by decide +kernel⟩, by decide +kernel, ?_⟩, ?_⟩
  · rintro ⟨t, ht, h⟩
    rcases List.mem_pair.mp ht with e | e
    · exact absurd (e ▸ h) (show ¬ stepping.status.halted = true by decide +kernel)
    · exact absurd (e ▸ h) (show ¬ (nextOf (step stepping)).status.halted = true by decide +kernel)
  · have hf := faulted { tc with port := { Port.idle with current := [⟨1, []⟩, ⟨0x04000000, []⟩] } } _
      (nextOf (step (nextOf (step { tc with port := { Port.idle with current := [⟨1, []⟩, ⟨0x04000000, []⟩] } }))))
      (show (nextOf (step { tc with port := { Port.idle with current := [⟨1, []⟩, ⟨0x04000000, []⟩] } })).status.halted
        = true by decide +kernel)
    exact ⟨⟨⟨nextOf_eq (by decide +kernel), nextOf_eq (by decide +kernel), trivial⟩, by decide +kernel⟩,
      by decide +kernel, hf, fun h => h.2.2 hf⟩

/-- ResetValues, third clause: P = 1, an FS of zero, an infinite F0, a negative SPREAD_MAX, a raw sample that is no
number; and valid parameters whose raw samples, all zero, lie outside the tolerance. -/
theorem test_witness_ResetValues :
    (∀ c ∈ [{ Params.tc [] with p := 1 }, { Params.tc [] with p := 65536 }, { Params.tc [] with fs := 0 },
      { Params.tc [] with f0 := 0x7FF0000000000000 }, { Params.tc [] with spreadMax := 0xBFF0000000000000 },
      Params.tc [F64.nan]], ¬ c.legal) ∧
    (Params.tc []).valid = true ∧ ¬ (Params.tc []).legal := by
  have h : ∀ c ∈ [{ Params.tc [] with p := 1 }, { Params.tc [] with p := 65536 }, { Params.tc [] with fs := 0 },
      { Params.tc [] with f0 := 0x7FF0000000000000 }, { Params.tc [] with spreadMax := 0xBFF0000000000000 },
      Params.tc [F64.nan]], c.valid = false := by decide +kernel
  refine ⟨fun c hc hl => absurd hl.1 (by rw [h c hc]; exact Bool.false_ne_true), by decide +kernel, fun hl => ?_⟩
  have hn := hl.2 0 0 2 (by decide) (by decide) (by decide)
  rw [show F64.toRat (genRaw (Params.tc []) 0 0 2) = 0 by decide +kernel,
    show harmonics (Params.tc []) 0 = 3 by decide +kernel] at hn
  have hs : Real.sin (((1 : ℕ) : ℝ) * (2 * Real.pi * ((2 : ℕ) : ℝ) / ((Params.tc []).p : ℕ))) = 1 := by
    rw [show ((1 : ℕ) : ℝ) * (2 * Real.pi * ((2 : ℕ) : ℝ) / ((Params.tc []).p : ℕ)) = Real.pi / 2 by
      norm_num [Params.tc]; ring, Real.sin_pi_div_two]
  simp only [idealSum, hs] at hn
  norm_num at hn

/-- WrparamClampsFloats: a running block; values below, at, inside and beyond the bounds; what each clause then says. -/
theorem test_witness_WrparamClampsFloats :
    tc.status.halted = false ∧ F64.isFinite 0xBFD0000000000000 = true ∧ F64.isFinite F64.negZero = true ∧
    F64.isFinite 0x3FD3333333333333 = true ∧ F64.isFinite F64.one = true ∧ F64.isFinite 0x3FF8000000000000 = true ∧
    clampedTo F64.zero F64.one 0xBFD0000000000000 F64.zero ∧ clampedTo F64.zero F64.one F64.negZero F64.zero ∧
    clampedTo F64.zero F64.one 0x3FD3333333333333 0x3FD3333333333333 ∧ clampedTo F64.zero F64.one F64.one F64.one ∧
    clampedTo F64.zero F64.one 0x3FF8000000000000 F64.one :=
  ⟨rfl, by decide, by decide, by decide, by decide, by decide, by decide +kernel, by decide +kernel, by decide +kernel,
    by decide +kernel, by decide +kernel⟩

/-- A running block, which is all that WrparamStoresIntegers, RdparamReadsRegister, RdcfgReadsConstants,
RdstateReadsLane, RdoutReadsOutputOrMix, TblbuildWritesBuiltInSet, TblinfoReadsBookkeeping and PhaseResetsComplete ask. -/
theorem test_witness_running : tc.status.halted = false ∧ ready.status.halted = false ∧ syncing.status.halted = false :=
  ⟨rfl, rfl, rfl⟩

/-- WrparamFaults: FIELD 0 with tag 0; FIELD 5 with tag 4; FIELD 0 with its tag and an infinity. -/
theorem test_witness_WrparamFaults :
    tc.status.halted = false ∧ (0 : BitVec 4).toNat ≤ 5 ∧ (0 : BitVec 3) ≠ 1 ∧ (5 : BitVec 4).toNat ≤ 5 ∧
    (4 : BitVec 3) ≠ 3 ∧ F64.isFinite 0x7FF0000000000000 = false := by decide

/-- TblloadStoresAcceptedFile: FA into slot 1 at TC. -/
theorem test_witness_TblloadStoresAcceptedFile :
    tc.status.halted = false ∧ (1 : TableNo) ≠ 0 ∧ fileFA.tail.length = ((0x2C : Word).toNat + 7) / 8 ∧
    parseWaveFile tc.cfg.p (loadBytes 0x2C fileFA.tail) = .accept 1 [0, 0x3FD0000000000000, 0x3FE0000000000000,
      0x3FD0000000000000, 0, 0xBFD0000000000000, 0xBFE0000000000000, 0xBFD0000000000000] := by decide +kernel

/-- A file with one "data" chunk of `n` zero words at TC. -/
def zeroFile (n : Nat) : List Word := 0x6174616454564157 :: BitVec.ofNat 64 (8 * n) :: List.replicate n 0

/-- TblloadFallsBack: a file for each of the six causes (95 section 2.6). -/
theorem test_witness_TblloadFallsBack :
    parseWaveFile tc.cfg.p (loadBytes 0 []) = .missing ∧
    parseWaveFile tc.cfg.p (loadBytes 3 [0x0000000000564157]) = .truncated ∧
    parseWaveFile tc.cfg.p (loadBytes 4 [0x0000000054564157]) = .noData ∧
    parseWaveFile tc.cfg.p (loadBytes 18 [0x6174616454564157, 0x6, 0x0]) = .badCount ∧
    parseWaveFile tc.cfg.p (loadBytes 2092 (zeroFile 260)) = .tooMany ∧
    parseWaveFile tc.cfg.p (loadBytes 44 [0x6174616454564157, 0x20, 0x3F0000003E800000, 0x7FC00000,
      0xBF000000BE800000, 0xBE800000]) = .badSample ∧
    (zeroFile 260).length = ((2092 : Word).toNat + 7) / 8 := by decide +kernel

/-- SampleFileParses: P = 2, the empty file, three bytes, a bare header, a header with seven bytes, an unknown chunk
"LIST" of three bytes and one cut short; "data" chunks of 0, 6 and 12 bytes, of 65 waveshapes, of 64 and of one with a
sample that is not finite, and of one waveshape of two samples 1.0 and −1.0. -/
theorem test_witness_SampleFileParses :
    parseWaveFile 2 [] = .missing ∧ parseWaveFile 2 [1, 2, 3] = .truncated ∧ parseWaveFile 2 [1, 2, 3, 4] = .noData ∧
    parseWaveFile 2 [1, 2, 3, 4, 0, 0, 0, 0, 0, 0, 0] = .truncated ∧
    parseWaveFile 2 ([1, 2, 3, 4] ++ [0x4C, 0x49, 0x53, 0x54] ++ leBytes 4 3 ++ [1, 2]) = .truncated ∧
    parseWaveFile 2 ([1, 2, 3, 4] ++ [0x4C, 0x49, 0x53, 0x54] ++ leBytes 4 3 ++ [1, 2, 3] ++ []) = .noData ∧
    (∀ n ∈ [0, 6, 12], parseWaveFile 2 ([1, 2, 3, 4] ++ [0x64, 0x61, 0x74, 0x61] ++ leBytes 4 n ++
      List.replicate n 0 ++ []) = .badCount) ∧
    520 = 4 * (65 * 2) ∧ parseWaveFile 2 ([1, 2, 3, 4] ++ [0x64, 0x61, 0x74, 0x61] ++ leBytes 4 520 ++
      List.replicate 520 0xFF ++ []) = .tooMany ∧
    512 = 4 * (64 * 2) ∧ parseWaveFile 2 ([1, 2, 3, 4] ++ [0x64, 0x61, 0x74, 0x61] ++ leBytes 4 512 ++
      List.replicate 512 0xFF ++ []) = .badSample ∧
    8 = 4 * (1 * 2) ∧ parseWaveFile 2 ([1, 2, 3, 4] ++ [0x64, 0x61, 0x74, 0x61] ++ leBytes 4 8 ++
      [0, 0, 0x80, 0x3F, 0, 0, 0x80, 0x7F] ++ []) = .badSample ∧
    parseWaveFile 2 ([1, 2, 3, 4] ++ [0x64, 0x61, 0x74, 0x61] ++ leBytes 4 8 ++ [0, 0, 0x80, 0x3F, 0, 0, 0x80, 0xBF]
      ++ [0xFF, 0xFF]) = .accept 1 [F64.one, 0xBFF0000000000000] := by decide +kernel

/-- The TBLRD address of its four parts (30_encoding R119). -/
def addr (r : BitVec 36) (w : BitVec 8) (o : BitVec 4) (n : BitVec 16) : Word := r ++ w ++ o ++ n

/-- TblrdReadsOrFaults: the last word of table A, for each way outside the slot an address, and a reserved bit. -/
theorem test_witness_TblrdReadsOrFaults :
    ready.status.halted = false ∧ (ready.table 1).tvalid = true ∧ (ready.table 1).ntab = 1 ∧ ready.cfg.p = 8 ∧
    (ready.table 2).tvalid = false ∧
    answer ready ⟨0x28000001, [addr 0 0 10 8]⟩ = [0, 0] ∧ answer ready ⟨0x28000001, [addr 0 1 0 0]⟩ = [3] ∧
    answer ready ⟨0x28000001, [addr 0 0 11 0]⟩ = [3] ∧ answer ready ⟨0x28000001, [addr 0 0 0 9]⟩ = [3] ∧
    answer ready ⟨0x28000002, [addr 0 0 0 0]⟩ = [3] ∧ answer ready ⟨0x28000001, [addr 1 1 0 0]⟩ = [2] := by
  refine ⟨rfl, ?_⟩
  decide +kernel

/-- OscstepCompletes: a legal running block, f 1250, dt 1, and a finite advance in every active lane. -/
theorem test_witness_OscstepCompletes :
    ready.status.halted = false ∧ ready.Legal ∧ F64.isFinite 0x4093880000000000 = true ∧ F64.isFinite F64.one = true ∧
    F64.lt F64.one F64.zero = false ∧
    (∀ i : LaneNo, i.val < (ready.osc 0 0).numVoices.toNat → F64.isFinite
      (laneAdvance ready.cfg 0x4093880000000000 (ready.osc 0 0).voiceSpread F64.one i.val) = true) :=
  ⟨rfl, test_ready_legal, by decide, by decide, by decide, by decide +kernel⟩

/-- VoicestepCompletes: the state before step 3 of 43 R254, where hard sync restarts oscillator 1. -/
theorem test_witness_VoicestepCompletes :
    syncing.status.halted = false ∧ syncing.Legal ∧
    (∀ j : OscNo, F64.isFinite (#v[0x40A7700000000000, 0x408F400000000000, 0][j]) = true) ∧
    F64.isFinite F64.one = true ∧ F64.lt F64.one F64.zero = false ∧
    (∀ (j : OscNo) (i : LaneNo), i.val < (syncing.osc 0 j).numVoices.toNat → F64.isFinite
      (laneAdvance syncing.cfg (#v[0x40A7700000000000, 0x408F400000000000, 0][j]) (syncing.osc 0 j).voiceSpread F64.one
        i.val) = true) :=
  ⟨rfl, test_syncing_legal, by decide, by decide, by decide, by decide +kernel⟩

theorem test_witness_PreviewCompletes :
    ready.status.halted = false ∧ ready.Legal ∧ F64.isFinite 0x408F400000000000 = true ∧
    (∀ i : LaneNo, i.val < (ready.osc 0 0).numVoices.toNat → F64.isFinite
      (laneAdvance ready.cfg 0x408F400000000000 (ready.osc 0 0).voiceSpread F64.one i.val) = true) :=
  ⟨rfl, test_ready_legal, by decide, by decide +kernel⟩

/-- OutOfRangeIndexFaults: an index out of range for every command that has one, and a TBLLOAD of the wrong length. -/
theorem test_witness_OutOfRangeIndexFaults :
    tc.status.halted = false ∧
    ∀ i ∈ [Instr.wrparam 0 3 0 1 0, .wrparam 0 0 6 1 0, .rdparam 0 3 0, .rdparam 0 0 6, .rdcfg 15, .rdstate 0 3 0,
      .rdstate 0 0 7, .tblbuild 8, .tblload 0 0 [], .tblload 8 0 [], .tblload 0 9 [0], .tblrd 8 0, .tblinfo 8, .phrst 0 3,
      .oscstep 0 3 0 0, .preview 0 3 0 0], i.wellFormed = false := by decide

/-- StepOperandFaults: an operand that is not finite, and a negative dt. −0.0 is not negative. -/
theorem test_witness_StepOperandFaults :
    ready.status.halted = false ∧ F64.isFinite F64.nan = false ∧ F64.isFinite 0x7FF0000000000000 = false ∧
    F64.isFinite 0xBFF0000000000000 = true ∧ F64.lt 0xBFF0000000000000 F64.zero = true ∧
    F64.lt F64.negZero F64.zero = false := by decide

/-- OverflowFaults: f 1e308 with dt 1e10, and with the dt 1.0 of a PREVIEW. -/
theorem test_witness_OverflowFaults :
    ready.status.halted = false ∧ ready.Legal ∧ F64.isFinite 0x7FE1CCF385EBC8A0 = true ∧
    F64.isFinite 0x4202A05F20000000 = true ∧ F64.lt 0x4202A05F20000000 F64.zero = false ∧
    (0 : LaneNo).val < (ready.osc 0 0).numVoices.toNat ∧
    F64.isFinite (laneAdvance ready.cfg 0x7FE1CCF385EBC8A0 (ready.osc 0 0).voiceSpread 0x4202A05F20000000 0) = false ∧
    F64.isFinite (laneAdvance ready.cfg 0x7FE1CCF385EBC8A0 (ready.osc 0 0).voiceSpread F64.one 0) = false ∧
    (1 : BitVec 12) ≠ 0 :=
  ⟨rfl, test_ready_legal, by decide, by decide, by decide, by decide +kernel, by decide +kernel, by decide +kernel,
    by decide⟩

/-- WrparamFrame, PhaseResetFrame, OscstepFrame, VoicestepFrame, TableCommandFrame: a next state for each command. -/
theorem test_witness_frames :
    ∀ i ∈ [Instr.wrparam 0 0 0 1 F64.one, .phrst 0 0, .trigger 0, .oscstep 0 0 0x4093880000000000 F64.one,
        .voicestep 0 0x40A7700000000000 0x408F400000000000 0 F64.one, .tblbuild 7, .tblload 2 0 []],
      exec i ready = .next (nextOf (exec i ready)) ∧ (nextOf (exec i ready)).status.halted = false := by
  have h : ∀ i ∈ [Instr.wrparam 0 0 0 1 F64.one, .phrst 0 0, .trigger 0, .oscstep 0 0 0x4093880000000000 F64.one,
        .voicestep 0 0x40A7700000000000 0x408F400000000000 0 F64.one, .tblbuild 7, .tblload 2 0 []],
      isNext (exec i ready) = true ∧ (nextOf (exec i ready)).status.halted = false := by decide +kernel
  exact fun i hi => ⟨nextOf_eq (h i hi).1, (h i hi).2⟩

/-- WrapReducesPosition: P = 8 with a position inside, at P, above, and below zero. -/
theorem test_witness_WrapReducesPosition :
    2 ≤ 8 ∧ 8 ≤ 65535 ∧
    F64.isFinite 0x3FE0000000000000 = true ∧ F64.isFinite 0x4020000000000000 = true ∧
    F64.isFinite 0xBFE0000000000000 = true ∧
    F64.le (F64.ofNat 8) 0x4020000000000000 = true ∧ F64.lt 0xBFE0000000000000 F64.zero = true ∧
    wrap 8 0x3FE0000000000000 = (0x3FE0000000000000, false) ∧
    wrap 8 0xBFE0000000000000 = (0x401E000000000000, true) := by decide +kernel

theorem test_witness_OctaveCoversFrequency :
    F64.isFinite 0x409F420000000000 = true ∧ octave Config.tc 0x409F420000000000 = 2 ∧
    (∀ k ≤ 10, F64.isFinite (octaveBase Config.tc.toParams k) = true) := by decide +kernel

/-- HardSyncRestartsLanes: step 3 of "sync on" in 43 R254. -/
theorem test_witness_HardSyncRestartsLanes :
    exec (.voicestep 0 0x40A7700000000000 0x408F400000000000 0 F64.one) syncing =
      .next (nextOf (exec (.voicestep 0 0x40A7700000000000 0x408F400000000000 0 F64.one) syncing)) ∧
    syncing.status.halted = false ∧
    (nextOf (exec (.voicestep 0 0x40A7700000000000 0x408F400000000000 0 F64.one) syncing)).status.halted = false ∧
    (syncing.osc 0 1).sync = 1 ∧
    ((nextOf (exec (.voicestep 0 0x40A7700000000000 0x408F400000000000 0 F64.one) syncing)).osc 0 0).cc = true :=
  ⟨nextOf_eq (by decide +kernel), rfl, by decide +kernel, by decide +kernel, by decide +kernel⟩

/-- VoicestepFrame: with SYNC on, lane 6 of oscillator 1, which is not active, stays in a step in which oscillator 0 does
not wrap and goes to +0.0 in one in which it does. -/
theorem test_witness_VoicestepFrame :
    let s : State := ready.setOsc 0 1 { ready.osc 0 1 with sync := 1, pos := (ready.osc 0 1).pos.set 6 F64.two }
    let t := fun f0 : F64 => nextOf (exec (.voicestep 0 f0 0 0 F64.one) s)
    (∀ f0 : F64, f0 = 0x408F400000000000 ∨ f0 = 0x40C1940000000000 → isNext (exec (.voicestep 0 f0 0 0 F64.one) s) = true) ∧
    ((t 0x408F400000000000).osc 0 0).cc = false ∧ ((t 0x408F400000000000).osc 0 1).pos[6] = F64.two ∧
    ((t 0x40C1940000000000).osc 0 0).cc = true ∧ ((t 0x40C1940000000000).osc 0 1).pos[6] = F64.zero := by
  refine ⟨?_, by decide +kernel⟩
  rintro f0 (rfl | rfl) <;> decide +kernel

theorem test_witness_VoicestepIsThreeOscsteps :
    exec (.voicestep 0 0x408F400000000000 0x4093880000000000 0 F64.one) ready =
      .next (nextOf (exec (.voicestep 0 0x408F400000000000 0x4093880000000000 0 F64.one) ready)) ∧
    ready.status.halted = false ∧
    (nextOf (exec (.voicestep 0 0x408F400000000000 0x4093880000000000 0 F64.one) ready)).status.halted = false ∧
    (ready.osc 0 1).sync = 0 :=
  ⟨nextOf_eq (by decide +kernel), rfl, by decide +kernel, by decide +kernel⟩

/-- ZeroDtHoldsPositions: dt = −0.0 on a lane that is not at zero. -/
theorem test_witness_ZeroDtHoldsPositions :
    syncing.PositionsLegal ∧ F64.eq F64.negZero F64.zero = true ∧
    exec (.oscstep 0 0 0x408F400000000000 F64.negZero) syncing =
      .next (nextOf (exec (.oscstep 0 0 0x408F400000000000 F64.negZero) syncing)) ∧
    syncing.status.halted = false ∧
    (nextOf (exec (.oscstep 0 0 0x408F400000000000 F64.negZero) syncing)).status.halted = false ∧
    (syncing.osc 0 0).pos[0] = 0x4018000000000000 :=
  ⟨test_syncing_legal.1, by decide, nextOf_eq (by decide +kernel), rfl, by decide +kernel, by decide +kernel⟩

/-- OscillatorsAreIndependent: oscillator 2 of slot 0 is the same in two states that differ in oscillators 0 and 1; and
oscillator 0 differs there only in what a PREVIEW does not read; slot 1 is the same in both. -/
theorem test_witness_OscillatorsAreIndependent :
    syncing.cfg = ready.cfg ∧ syncing.tables = ready.tables ∧ ready.status.halted = false ∧
    syncing.status.halted = false ∧ syncing.osc 0 2 = ready.osc 0 2 ∧ syncing.osc 0 0 ≠ ready.osc 0 0 ∧
    (syncing.osc 0 0).numVoices = (ready.osc 0 0).numVoices ∧
    (syncing.osc 0 0).voiceSpread = (ready.osc 0 0).voiceSpread ∧
    (syncing.osc 0 0).waveIndex = (ready.osc 0 0).waveIndex ∧
    (syncing.osc 0 0).wavetable = (ready.osc 0 0).wavetable ∧
    (∀ m, syncing.osc 1 m = ready.osc 1 m) ∧
    (∀ s ∈ [ready, syncing], ∀ i ∈ [Instr.oscstep 0 2 0x408F400000000000 F64.one, .preview 0 0 2 0x408F400000000000,
        .voicestep 1 0x408F400000000000 0 0 F64.one],
      isNext (exec i s) = true ∧ (nextOf (exec i s)).status.halted = false) := by
  refine ⟨rfl, rfl, rfl, rfl, ?_⟩
  decide +kernel

/-- ResolveNamesValidSlot: ids that name a valid slot, an empty slot, no slot; and a step from a state with slot 0 valid. -/
theorem test_witness_ResolveNamesValidSlot :
    (ready.table 0).tvalid = true ∧ (1 : Word).toInt = (1 : TableNo).val ∧ (ready.table 1).tvalid = true ∧
    (ready.table 7).tvalid = false ∧ resolve ready.tables 1 = 1 ∧ resolve ready.tables 7 = 0 ∧
    resolve ready.tables 8 = 0 ∧ resolve ready.tables 0xFFFFFFFFFFFFFFFD = 0 ∧
    (stepping.table 0).tvalid = true ∧ isNext (step stepping) = true := by decide +kernel

/-- SineTableNearIdeal: 4 divides the P of TC, its octave tables 0 to 2 have harmonics, n from 0 to the guard. -/
theorem test_witness_SineTableNearIdeal :
    4 ∣ Config.tc.p ∧ 0 < 11 ∧ 1 ≤ harmonics Config.tc.toParams 0 ∧ 1 ≤ harmonics Config.tc.toParams 2 ∧
    0 ≤ Config.tc.p ∧ 8 ≤ Config.tc.p := by decide +kernel

end Sys2Proof.Tests
end

section
/-! PROOFS. What one step can do, said once for the invariants: the induction rule of a step, and what the effect of a
command can do to an oscillator, to a table slot, to STATUS and to the configuration. -/

namespace Sys2Proof.Machine

/-- Rule of a step: what a change of the port, the recording of a fault and the effect of every command keep, every step
keeps. -/
theorem step_keeps {I : State → Prop} (hport : ∀ (s : State) (port : Port), I s → I { s with port := port })
    (hfault : ∀ (s : State) (c : FaultCode) (cw : CmdWord), I s → I (s.setStatus (s.status.withFault c cw)))
    (heffect : ∀ (i : Instr) (s u : State) (p : List Word), effect i s = .ok (u, p) → I s → I u)
    {s t : State} (hs : I s) (h : step s = .next t) : I t := by
  have hreply : ∀ (s : State) (w : Word) (p : List Word), I s → I (s.reply w p) := fun s _ _ => hport s _
  have htake : ∀ (s : State) (c : FaultCode) (cw : CmdWord), I s → I (s.takeFault c cw) :=
    fun s c cw hs => hreply _ _ _ (hfault s c cw hs)
  obtain ⟨port, -, rfl⟩ | ⟨fr, port, c, -, -, rfl⟩ | ⟨fr, port, i, -, -, h⟩ := step_next h
  · exact hport s port hs
  · unfold State.rejectFrame
    split
    · exact hreply _ _ _ (hport s port hs)
    · exact htake _ _ _ (hport s port hs)
  · obtain ⟨-, -, rfl⟩ | ⟨u, p, hu, rfl⟩ | ⟨c, -, -, rfl⟩ := exec_next h
    · exact hreply _ _ _ (hport s port hs)
    · exact hreply _ _ _ (heffect i _ u p hu (hport s port hs))
    · exact htake _ _ _ (hport s port hs)

/-! Table memory after TBLBUILD and TBLLOAD. -/

@[simp] theorem State.buildSlot_cfg (s : State) (t : TableNo) : (s.buildSlot t).cfg = s.cfg := rfl
@[simp] theorem State.buildSlot_status (s : State) (t : TableNo) : (s.buildSlot t).status = s.status := rfl
@[simp] theorem State.buildSlot_osc (s : State) (t : TableNo) (sl : SlotNo) (j : OscNo) :
    (s.buildSlot t).osc sl j = s.osc sl j := rfl
@[simp] theorem State.loadSlot_cfg (s : State) (t : TableNo) (r : FileResult) : (s.loadSlot t r).cfg = s.cfg := by
  cases r <;> rfl
@[simp] theorem State.loadSlot_osc (s : State) (t : TableNo) (r : FileResult) (sl : SlotNo) (j : OscNo) :
    (s.loadSlot t r).osc sl j = s.osc sl j := by cases r <;> rfl

/-- A table slot after TBLBUILD: the one built holds the built-in set, the others are as they were (41 R175). -/
theorem State.table_buildSlot (s : State) (t t' : TableNo) : (s.buildSlot t).table t' =
    if t' = t then TableSlot.holding (defaultSet s.cfg.toParams) Config.numDefaultWaves else s.table t' :=
  State.table_writeSlot ..

/-- A table slot after TBLLOAD: as it was, or the one loaded with the built-in set or the waveshapes of the file
(41 R176). -/
theorem State.table_loadSlot (s : State) (t t' : TableNo) (r : FileResult) :
    (s.loadSlot t r).table t' = s.table t' ∨
    (s.loadSlot t r).table t' = TableSlot.holding (defaultSet s.cfg.toParams) Config.numDefaultWaves ∨
    ∃ k v, r = .accept k v ∧ (s.loadSlot t r).table t' = TableSlot.holding (loadedSet s.cfg.p k v) k := by
  by_cases h : t' = t
  · subst h
    cases r with
    | accept k v => exact .inr (.inr ⟨k, v, rfl, State.table_writeSlot_self ..⟩)
    | _ => exact .inr (.inl (State.table_writeSlot_self ..))
  · left
    cases r <;> exact (State.table_writeSlot ..).trans (if_neg h)

/-! What the effect of a command can do, part by part of the state. -/

/-- No command changes the configuration (10_state R47). -/
theorem effect_cfg {i : Instr} {s u : State} {p : List Word} (h : effect i s = .ok (u, p)) : u.cfg = s.cfg := by
  obtain rfl | ⟨-, rfl⟩ | ⟨sl, j, f, v, w, -, rfl⟩ | ⟨t, rfl⟩ | ⟨t, t', len, data, r, -, -, -, rfl⟩ | ⟨sl, j, rfl⟩ |
    ⟨sl, rfl⟩ | ⟨sl, j, f, dt, r, -, rfl⟩ | ⟨sl, f0, f1, f2, dt, r0, r1, r2, m, -, rfl⟩ := effect_ok h <;> simp

/-- STATUS after a command that completes: as it was, at reset, or with the two load fields written: the code of a file
and the table slot it was for (40 R141; 41 R176). -/
theorem effect_status {i : Instr} {s u : State} {p : List Word} (h : effect i s = .ok (u, p)) :
    u.status = s.status ∨ u.status = Status.reset ∨
    ∃ (t : BitVec 12) (t' : TableNo) (r : FileResult), loadIndex t = .ok t' ∧
      u.status = s.status.withLoad r.code t := by
  obtain rfl | ⟨-, rfl⟩ | ⟨sl, j, f, v, w, -, rfl⟩ | ⟨t, rfl⟩ | ⟨t, t', len, data, r, -, ht, -, rfl⟩ | ⟨sl, j, rfl⟩ |
    ⟨sl, rfl⟩ | ⟨sl, j, f, dt, r, -, rfl⟩ | ⟨sl, f0, f1, f2, dt, r0, r1, r2, m, -, rfl⟩ := effect_ok h
  case inr.inl => exact .inr (.inl rfl)
  case inr.inr.inr.inr.inl => exact .inr (.inr ⟨t, t', r, ht, rfl⟩)
  all_goals exact .inl (by simp)

/-- A table slot after a command that completes: as it was, at reset, or written with the built-in set or the waveshapes
of an accepted file (40 R141; 41 R175, R176). -/
theorem effect_table {i : Instr} {s u : State} {p : List Word} (h : effect i s = .ok (u, p)) (t : TableNo) :
    u.table t = s.table t ∨ u.table t = (State.resetOf s.cfg).table t ∨
    u.table t = TableSlot.holding (defaultSet s.cfg.toParams) Config.numDefaultWaves ∨
    ∃ bytes k v, parseWaveFile s.cfg.p bytes = .accept k v ∧
      u.table t = TableSlot.holding (loadedSet s.cfg.p k v) k := by
  obtain rfl | ⟨-, rfl⟩ | ⟨sl, j, f, v, w, -, rfl⟩ | ⟨t', rfl⟩ | ⟨imm, t', len, data, r, -, -, hr, rfl⟩ | ⟨sl, j, rfl⟩ |
    ⟨sl, rfl⟩ | ⟨sl, j, f, dt, r, -, rfl⟩ | ⟨sl, f0, f1, f2, dt, r0, r1, r2, m, -, rfl⟩ := effect_ok h
  case inr.inl => exact .inr (.inl rfl)
  case inr.inr.inr.inl =>
    rw [State.table_buildSlot]
    split
    · exact .inr (.inr (.inl rfl))
    · exact .inl rfl
  case inr.inr.inr.inr.inl =>
    rw [State.setStatus_table]
    obtain h1 | h1 | ⟨k, v, hk, h1⟩ := s.table_loadSlot t' t r
    · exact .inl h1
    · exact .inr (.inr (.inl h1))
    · exact .inr (.inr (.inr ⟨_, k, v, hr.symm.trans hk, h1⟩))
  all_goals exact .inl (by simp)

/-- What the effect of a command can do to the registers `o` of an oscillator of a block with configuration `c` and
tables `tables`: nothing, the reset values, one parameter written, a phase reset, or a step from its own lanes or, by a
hard sync, from lanes at zero. -/
inductive OscEffect (c : Config) (tables : Vector TableSlot Config.numTbl) (o : Osc) : Osc → Prop
  | kept : OscEffect c tables o o
  | reset : OscEffect c tables o Osc.reset
  | param {f : Param} {v w : Word} (h : paramValue c f v = .ok w) : OscEffect c tables o (o.setParam f w)
  | phaseReset : OscEffect c tables o o.phaseReset
  | stepped {posin : Vector F64 Config.maxUnison} {f dt : F64} {r : StepResult} (hp : posin = o.pos ∨ posin = zeroLanes)
      (h : oscCore c tables o posin f dt = .ok r) : OscEffect c tables o (o.stepped r.pos r.out r.cc)

/-- A write of one oscillator is an effect on every oscillator when it is one on that one. -/
theorem OscEffect.setOsc {s : State} {sl : SlotNo} {j : OscNo} {o : Osc}
    (h : OscEffect s.cfg s.tables (s.osc sl j) o) (k : SlotNo) (j' : OscNo) :
    OscEffect s.cfg s.tables (s.osc k j') ((s.setOsc sl j o).osc k j') := by
  rw [State.osc_setOsc]
  split
  · rename_i e
    obtain ⟨rfl, rfl⟩ := e
    exact h
  · exact .kept

/-- The results of a VOICESTEP are a step of each oscillator of the slot. -/
theorem OscEffect.voiceWrite {s : State} {sl : SlotNo} {f0 f1 f2 dt m : F64} {r0 r1 r2 : StepResult}
    (h : voiceCore s sl f0 f1 f2 dt = .ok [(0, r0), (1, r1), (2, r2)]) (k : SlotNo) (j : OscNo) :
    OscEffect s.cfg s.tables (s.osc k j) ((s.voiceWrite sl [(0, r0), (1, r1), (2, r2)] m).osc k j) := by
  obtain ⟨_, _, _, e, h0, h1, h2⟩ := voiceCore_ok h
  simp only [List.cons.injEq, Prod.mk.injEq, true_and, and_true] at e
  obtain ⟨rfl, rfl, rfl⟩ := e
  rw [State.osc_voiceWrite]
  by_cases hk : k = sl
  · subst hk
    rw [if_pos rfl]
    fin_cases j
    · exact .stepped (.inl rfl) h0
    · refine .stepped ?_ h1
      split
      · exact .inr rfl
      · exact .inl rfl
    · exact .stepped (.inl rfl) h2
  · rw [if_neg hk]
    exact .kept

/-- Every oscillator after a command that completes. -/
theorem effect_osc {i : Instr} {s u : State} {p : List Word} (h : effect i s = .ok (u, p)) (k : SlotNo) (j : OscNo) :
    OscEffect s.cfg s.tables (s.osc k j) (u.osc k j) := by
  obtain rfl | ⟨-, rfl⟩ | ⟨sl, j', f, v, w, hw, rfl⟩ | ⟨t, rfl⟩ | ⟨t, t', len, data, r, -, -, -, rfl⟩ | ⟨sl, j', rfl⟩ |
    ⟨sl, rfl⟩ | ⟨sl, j', f, dt, r, hr, rfl⟩ | ⟨sl, f0, f1, f2, dt, r0, r1, r2, m, hr, rfl⟩ := effect_ok h
  · exact .kept
  · rw [State.resetSequence_osc]
    exact .reset
  · exact (OscEffect.param hw).setOsc k j
  · exact .kept
  · rw [State.setStatus_osc, State.loadSlot_osc]
    exact .kept
  · exact OscEffect.phaseReset.setOsc k j
  · rw [State.osc_triggerSlot]
    split
    · exact .phaseReset
    · exact .kept
  · exact (OscEffect.stepped (.inl rfl) hr).setOsc k j
  · exact .voiceWrite hr k j

/-- Rule of a step for a property `J` of the registers of one oscillator under the configuration: what every effect on an
oscillator keeps, every step keeps of all of them. -/
theorem step_keeps_osc {J : Config → Osc → Prop}
    (heffect : ∀ (c : Config) (tables : Vector TableSlot Config.numTbl) (o o' : Osc), OscEffect c tables o o' →
      J c o → J c o')
    {s t : State} (hs : ∀ sl j, J s.cfg (s.osc sl j)) (h : step s = .next t) : ∀ sl j, J t.cfg (t.osc sl j) :=
  step_keeps (I := fun s => ∀ sl j, J s.cfg (s.osc sl j)) (fun _ _ hs => hs) (fun _ _ _ hs => hs)
    (fun _ _ _ _ hu hs sl j => effect_cfg hu ▸ heffect _ _ _ _ (effect_osc hu sl j) (hs sl j)) hs h

end Sys2Proof.Machine
end

section
/-! PROOFS. O15: Wrap gives a legal lane position (42 R214), so that a step of an oscillator keeps its lanes legal. -/

namespace Sys2Proof

/-- A value that is not positive plus one that outweighs it lies between 0 and the second, rounding included. -/
theorem F64.add_between {x y : F64} (hx : F64.isFinite x = true) (hy : F64.isFinite y = true)
    (h0 : F64.scaled x ≤ 0) (h : 0 ≤ F64.scaled x + F64.scaled y) :
    F64.isFinite (F64.add x y) = true ∧ 0 ≤ F64.scaled (F64.add x y) ∧ F64.scaled (F64.add x y) ≤ F64.scaled y := by
  rw [F64.add_eq hx hy]
  split
  · refine ⟨F64.isFinite_make (by decide), ?_⟩
    rw [F64.scaled_make (by decide), F64.scale_zero]
    simp
    omega
  · have hy0 : F64.scaled y = F64.scale (F64.mag y) := by rw [← F64.natAbs_scaled]; omega
    have hr : F64.round (F64.scaled x + F64.scaled y).natAbs 1 ≤ F64.mag y := F64.round_le Nat.one_pos (by omega)
    have hs := F64.scale_le.2 hr
    refine ⟨F64.isFinite_make (hr.trans_lt (F64.isFinite_iff.1 hy)), ?_⟩
    rw [decide_eq_false h.not_gt, F64.scaled_make (hr.trans_lt (F64.mag_lt y)), if_neg Bool.false_ne_true]
    exact ⟨Int.natCast_nonneg _, (Nat.cast_le.2 hs).trans_eq hy0.symm⟩

/-- A remainder by a positive value lies strictly between that value and its negative. -/
theorem F64.fmod_between {x y : F64} (hx : F64.isFinite x = true) (hy : F64.isFinite y = true)
    (h0 : 0 < F64.scaled y) : F64.isFinite (F64.fmod x y) = true ∧ -F64.scaled y < F64.scaled (F64.fmod x y) ∧
      F64.scaled (F64.fmod x y) < F64.scaled y := by
  have hm : F64.mag y ≠ 0 := fun e => h0.ne' (F64.scaled_eq_zero.2 e)
  have hy0 : F64.scaled y = F64.scale (F64.mag y) := by rw [← F64.natAbs_scaled]; omega
  obtain ⟨m, hlt, -, e⟩ := F64.fmod_spec hx hy hm
  have hs := F64.scale_lt.2 hlt
  rw [e, F64.scaled_make (hlt.trans (F64.mag_lt y)), hy0]
  refine ⟨F64.isFinite_make (hlt.trans (F64.isFinite_iff.1 hy)), ?_⟩
  split <;> omega

end Sys2Proof

namespace Sys2Proof.Machine

/-- A finite value in [0, P) other than −0.0 is a legal lane position. -/
theorem lanePosition_of_scaled {p : Nat} {x : F64} (hp : p ≤ 65535) (hx : F64.isFinite x = true)
    (h0 : 0 ≤ F64.scaled x) (h1 : F64.scaled x < p * 2 ^ 1074) (hz : x ≠ F64.negZero) : lanePosition p x := by
  have hn : p < 2 ^ 53 := by omega
  refine ⟨(F64.le_iff F64.isFinite_zero hx).2 ?_, (F64.lt_iff hx (F64.isFinite_ofNat hn)).2 ?_, hz⟩
  · rwa [F64.scaled_zero]
  · rwa [F64.scaled_ofNat hn]

theorem lanePosition_zero {p : Nat} (hp0 : 0 < p) (hp : p ≤ 65535) : lanePosition p F64.zero := by
  refine lanePosition_of_scaled hp F64.isFinite_zero F64.scaled_zero.ge ?_ (by decide)
  rw [F64.scaled_zero]
  exact mul_pos (Int.natCast_pos.2 hp0) (pow_pos (by decide) _)

/-- Wrap reduces a finite value to one in [0, P), before its last line (42 R214). -/
theorem wrapRaw_range {p : Nat} {x : F64} (hp0 : 0 < p) (hp : p ≤ 65535) (hx : F64.isFinite x = true) :
    F64.isFinite (wrapRaw p x).1 = true ∧ 0 ≤ F64.scaled (wrapRaw p x).1 ∧
      F64.scaled (wrapRaw p x).1 < F64.scaled (F64.ofNat p) := by
  have hn : p < 2 ^ 53 := by omega
  have hP := F64.isFinite_ofNat hn
  have hpos : 0 < F64.scaled (F64.ofNat p) := by
    rw [F64.scaled_ofNat hn]
    exact mul_pos (Int.natCast_pos.2 hp0) (pow_pos (by decide) _)
  have hfmod := F64.fmod_between hx hP hpos
  unfold wrapRaw
  split
  · rename_i h
    rw [Bool.and_eq_true, F64.le_iff F64.isFinite_zero hx, F64.lt_iff hx hP, F64.scaled_zero] at h
    exact ⟨hx, h⟩
  dsimp only
  generalize F64.fmod x (F64.ofNat p) = r at *
  obtain ⟨hr, hlo, hhi⟩ := hfmod
  -- The negative remainder is moved up by P; the sum may round up to P itself.
  have hup : F64.isFinite (if F64.lt r F64.zero then F64.add r (F64.ofNat p) else r) = true ∧
      0 ≤ F64.scaled (if F64.lt r F64.zero then F64.add r (F64.ofNat p) else r) ∧
      F64.scaled (if F64.lt r F64.zero then F64.add r (F64.ofNat p) else r) ≤ F64.scaled (F64.ofNat p) := by
    split
    · rename_i hneg
      rw [F64.lt_iff hr F64.isFinite_zero, F64.scaled_zero] at hneg
      exact F64.add_between hr hP hneg.le (by omega)
    · rename_i hneg
      rw [F64.lt_iff hr F64.isFinite_zero, F64.scaled_zero, not_lt] at hneg
      exact ⟨hr, hneg, hhi.le⟩
  generalize (if F64.lt r F64.zero then F64.add r (F64.ofNat p) else r) = q at *
  obtain ⟨hq, hq0, hqP⟩ := hup
  split
  · exact ⟨F64.isFinite_zero, F64.scaled_zero.ge, F64.scaled_zero.trans_lt hpos⟩
  · rename_i hne
    rw [F64.eq_iff hq hP] at hne
    exact ⟨hq, hq0, lt_of_le_of_ne hqP hne⟩

/-- Wrap gives a legal lane position (42 R214, R225 (b)). -/
theorem wrap_lanePosition {p : Nat} {x : F64} (hp0 : 0 < p) (hp : p ≤ 65535) (hx : F64.isFinite x = true) :
    lanePosition p (wrap p x).1 := by
  obtain ⟨hf, hlo, hhi⟩ := wrapRaw_range hp0 hp hx
  unfold wrap
  dsimp only
  split
  · exact lanePosition_zero hp0 hp
  · rename_i hne
    rw [F64.scaled_ofNat (by omega)] at hhi
    refine lanePosition_of_scaled hp hf hlo hhi fun e => hne ?_
    rw [e]
    decide

/-- A step of an oscillator that completes gives legal lanes from legal lanes (42 R225 (b)). -/
theorem oscCore_lanePosition {c : Config} {tables : Vector TableSlot Config.numTbl} {o : Osc}
    {posin : Vector F64 Config.maxUnison} {f dt : F64} {r : StepResult} (h : oscCore c tables o posin f dt = .ok r)
    (hpos : ∀ i : LaneNo, lanePosition c.p posin[i]) (i : LaneNo) : lanePosition c.p r.pos[i] := by
  obtain ⟨wi, b, a, -, ha, rfl⟩ := oscCore_ok h
  rw [stepLanes_eq] at ha
  obtain ⟨hactive, hidle, -⟩ := runLanes_ok (activeLanes_nodup _) ha
  have h2 := two_le_p c
  by_cases hi : i ∈ activeLanes o.numVoices.toNat
  · obtain ⟨hadv, hmoved⟩ := hactive i hi
    rw [hmoved]
    exact wrap_lanePosition (by omega) (p_le c) (isFinite_add_advance (p_le c) (hpos i) hadv)
  · rw [hidle i hi]
    exact hpos i

/-- Lanes at +0.0 are legal. -/
theorem zeroLanes_lanePosition (c : Config) (i : LaneNo) : lanePosition c.p zeroLanes[i] := by
  rw [zeroLanes_get]
  exact lanePosition_zero (by have := two_le_p c; omega) (p_le c)

/-- Every effect on an oscillator keeps its lanes legal (10_state R32). -/
theorem OscEffect.keeps_lanePosition {c : Config} {tables : Vector TableSlot Config.numTbl} {o o' : Osc}
    (h : OscEffect c tables o o') (ho : ∀ i : LaneNo, lanePosition c.p o.pos[i]) (i : LaneNo) :
    lanePosition c.p o'.pos[i] := by
  cases h with
  | kept => exact ho i
  | reset => exact zeroLanes_lanePosition c i
  | param _ => rw [Osc.setParam_pos]; exact ho i
  | phaseReset => exact zeroLanes_lanePosition c i
  | stepped hp hr =>
    refine oscCore_lanePosition hr (fun k => ?_) i
    obtain rfl | rfl := hp
    · exact ho k
    · exact zeroLanes_lanePosition c k

/-- Settles O15: the lanes of every oscillator stay legal under every effect on it. -/
theorem lanePositionsKept : Obligations.LanePositionsKept := fun _ _ hs h =>
  step_keeps_osc (J := fun c o => ∀ i : LaneNo, lanePosition c.p o.pos[i])
    (fun _ _ _ _ he ho => he.keeps_lanePosition ho) hs h

end Sys2Proof.Machine
end

section
/-! PROOFS. O16, O17, O21, O22: the parameter registers, the table bookkeeping, STATUS and the configuration, each kept by
everything a command can do to it. -/

namespace Sys2Proof.Machine

/-! Parameter registers. -/

/-- SPREAD_MAX is a finite value, not negative (00_scope R7; 93 section 2). -/
theorem spreadMax_legal (c : Config) : F64.isFinite c.spreadMax = true ∧ F64.le F64.zero c.spreadMax = true := by
  have := c.ok
  simp only [Params.valid, Bool.and_eq_true] at this
  exact ⟨this.1.1.1.2, this.1.1.2⟩

/-- A clamped finite value is in the range of its bounds (40 R144). -/
theorem clampF_inRange {v lo hi : F64} (hv : F64.isFinite v = true) (hlo : F64.isFinite lo = true)
    (hhi : F64.isFinite hi = true) (h : F64.le lo hi = true) : inRange lo hi (clampF v lo hi) := by
  obtain ⟨hf, h1, h2⟩ := clampF_range hv hlo hhi ((F64.le_iff hlo hhi).1 h)
  exact ⟨(F64.le_iff hlo hf).2 h1, (F64.le_iff hf hhi).2 h2⟩

/-- The number of voices is clamped to 1 to MAX_UNISON (40 R144). -/
theorem clampI_maxUnison (v : Word) :
    1 ≤ (clampI v 1 Config.maxUnison).toInt ∧ (clampI v 1 Config.maxUnison).toInt ≤ Config.maxUnison := by
  have h : (clampI v 1 Config.maxUnison).toInt = min (max v.toInt 1) 7 := by
    rw [clampI, BitVec.toInt_ofInt, Int.bmod_eq_of_le] <;> simp only [Config.maxUnison] <;> omega
  rw [h]
  simp only [Config.maxUnison]
  omega

/-- The reset values of the parameters are legal (10_state R51). -/
theorem Osc.reset_paramsLegal (c : Config) : Osc.reset.paramsLegal c :=
  ⟨by decide, by decide, ⟨by decide, (spreadMax_legal c).2⟩, by decide, .inl rfl⟩

/-- A parameter written with a value that WRPARAM stores is legal, and the others are as they were (40 R142). -/
theorem Osc.setParam_paramsLegal {c : Config} {o : Osc} {f : Param} {v w : Word} (ho : o.paramsLegal c)
    (h : paramValue c f v = .ok w) : (o.setParam f w).paramsLegal c := by
  obtain ⟨hlevel, hvoices, hspread, hwave, hsync⟩ := ho
  obtain ⟨rfl, hv, rfl⟩ | ⟨rfl, rfl⟩ | ⟨rfl, hv, rfl⟩ | ⟨rfl, hv, rfl⟩ | ⟨rfl, hv, rfl⟩ | ⟨rfl, rfl⟩ := paramValue_ok h
  · exact ⟨clampF_inRange hv (by decide) (by decide) (by decide), hvoices, hspread, hwave, hsync⟩
  · exact ⟨hlevel, clampI_maxUnison v, hspread, hwave, hsync⟩
  · obtain ⟨hf, hle⟩ := spreadMax_legal c
    exact ⟨hlevel, hvoices, clampF_inRange hv (by decide) hf hle, hwave, hsync⟩
  · exact ⟨hlevel, hvoices, hspread, clampF_inRange hv (by decide) (by decide) (by decide), hsync⟩
  · exact ⟨hlevel, hvoices, hspread, hwave, hv⟩
  · exact ⟨hlevel, hvoices, hspread, hwave, hsync⟩

/-- Every effect on an oscillator keeps its parameters legal (10_state R38). -/
theorem OscEffect.keeps_paramsLegal {c : Config} {tables : Vector TableSlot Config.numTbl} {o o' : Osc}
    (h : OscEffect c tables o o') (ho : o.paramsLegal c) : o'.paramsLegal c := by
  cases h with
  | kept | phaseReset | stepped => exact ho
  | reset => exact Osc.reset_paramsLegal c
  | param hw => exact Osc.setParam_paramsLegal ho hw

/-- Settles O16: every effect on an oscillator keeps its parameters legal. -/
theorem parametersKept : Obligations.ParametersKept := fun _ _ hs h =>
  step_keeps_osc (J := fun c o => o.paramsLegal c) (fun _ _ _ _ he ho => he.keeps_paramsLegal ho) hs h

/-! Table bookkeeping. -/

/-- A payload that is accepted holds 1 to MAX_WAVES waveshapes of P samples (20_memory R86). -/
theorem decodePayload_count {p size k : Nat} {payload : List Byte} {v : List F64}
    (h : decodePayload p payload size = .accept k v) : 1 ≤ k ∧ k ≤ Config.maxWaves := by
  unfold decodePayload at h
  split at h
  · cases h
  split at h
  · cases h
  rename_i hsize
  split at h
  · cases h
  rename_i hmax
  split at h
  · cases h
    obtain ⟨hpos, hdvd⟩ := not_or.1 hsize
    refine ⟨Nat.pos_of_ne_zero fun h0 => hpos ?_, not_lt.1 hmax⟩
    -- With no waveshape the samples would be their own remainder modulo P.
    have := Nat.div_add_mod (size / 4) p
    rwa [h0, not_not.1 hdvd, Nat.mul_zero, eq_comm] at this
  · cases h

/-- The chunk scan accepts only a decoded payload (20_memory R85). -/
theorem scanChunks_count {p k : Nat} {v : List F64} {turns : Nat} {bytes : List Byte}
    (h : scanChunks p turns bytes = .accept k v) : 1 ≤ k ∧ k ≤ Config.maxWaves := by
  induction turns generalizing bytes with
  | zero => cases h
  | succ turns ih =>
    unfold scanChunks at h
    split at h
    · cases h
    split at h
    · cases h
    dsimp only at h
    split at h
    · cases h
    split at h
    · exact decodePayload_count h
    · exact ih h

/-- An accepted file gives 1 to MAX_WAVES waveshapes (20_memory R85, R86). -/
theorem parseWaveFile_count {p k : Nat} {v : List F64} {bytes : List Byte}
    (h : parseWaveFile p bytes = .accept k v) : 1 ≤ k ∧ k ≤ Config.maxWaves := by
  unfold parseWaveFile at h
  split at h
  · cases h
  split at h
  · cases h
  exact scanChunks_count h

/-- A slot's bookkeeping is consistent: valid exactly with a waveshape, and at most MAX_WAVES of them (10_state R48). -/
def TableSlot.counted (ts : TableSlot) : Prop := (ts.tvalid = true ↔ 1 ≤ ts.ntab) ∧ ts.ntab ≤ Config.maxWaves

/-- A slot written with 1 to MAX_WAVES waveshapes is consistent. -/
theorem TableSlot.holding_counted {img : List F64} {k : Nat} (h : 1 ≤ k ∧ k ≤ Config.maxWaves) :
    (TableSlot.holding img k).counted := ⟨iff_of_true rfl h.1, h.2⟩

theorem TableSlot.empty_counted : TableSlot.empty.counted := by
  unfold TableSlot.counted
  decide

/-- The built-in set has a number of waveshapes that a slot may hold. -/
theorem numDefaultWaves_counted : 1 ≤ Config.numDefaultWaves ∧ Config.numDefaultWaves ≤ Config.maxWaves := by decide

/-- After reset every slot is consistent and slot 0 is valid (10_state R51). -/
theorem State.resetOf_bookkeepingLegal (c : Config) : (State.resetOf c).BookkeepingLegal := by
  refine ⟨fun t => ?_, rfl⟩
  show ((State.resetOf c).table t).counted
  rw [State.resetOf_table]
  split
  · exact TableSlot.holding_counted numDefaultWaves_counted
  · exact TableSlot.empty_counted

/-- Every command that completes keeps the bookkeeping: a slot is as it was, at reset, or written (10_state R48). -/
theorem effect_bookkeepingLegal {i : Instr} {s u : State} {p : List Word} (h : effect i s = .ok (u, p))
    (hs : s.BookkeepingLegal) : u.BookkeepingLegal := by
  obtain ⟨hcount, hzero⟩ := hs
  obtain ⟨rcount, rzero⟩ := State.resetOf_bookkeepingLegal s.cfg
  refine ⟨fun t => ?_, ?_⟩
  · obtain e | e | e | ⟨bytes, k, v, hk, e⟩ := effect_table h t <;> rw [e]
    · exact hcount t
    · exact rcount t
    · exact TableSlot.holding_counted numDefaultWaves_counted
    · exact TableSlot.holding_counted (parseWaveFile_count hk)
  · obtain e | e | e | ⟨bytes, k, v, -, e⟩ := effect_table h 0 <;> rw [e]
    · exact hzero
    · exact rzero
    · rfl
    · rfl

/-- Settles O17: every command that completes keeps the bookkeeping, and a fault does not touch it. -/
theorem bookkeepingKept : Obligations.BookkeepingKept := fun _ _ hs h =>
  step_keeps (I := State.BookkeepingLegal) (fun _ _ hs => hs) (fun _ _ _ hs => hs)
    (fun _ _ _ _ hu hs => effect_bookkeepingLegal hu hs) hs h

/-! STATUS. -/

/-- The seven fault codes are 1 to 7 (60_exceptions R300). -/
theorem faultByte_range (c : FaultCode) : 1 ≤ (faultByte c).toNat ∧ (faultByte c).toNat ≤ 7 := by
  cases c <;> decide

/-- The LOADSTAT codes are at most 7 (60_exceptions R310). -/
theorem FileResult.code_le (r : FileResult) : r.code.toNat ≤ 7 := by
  cases r <;> simp [FileResult.code]

/-- A slot that may be loaded is a table slot (30_encoding R114). -/
theorem loadIndex_lt {t : BitVec 12} {t' : TableNo} (h : loadIndex t = .ok t') : t.toNat < Config.numTbl := by
  unfold loadIndex tableIndex at h
  split at h
  · cases h
  split at h
  · assumption
  · cases h

/-- A recorded fault has a code and halts the block (60_exceptions R301). -/
theorem State.withFault_statusLegal {s : State} (hs : s.StatusLegal) (c : FaultCode) (cw : CmdWord) :
    (s.setStatus (s.status.withFault c cw)).StatusLegal := ⟨faultByte_range c, hs.2⟩

/-- Every command that completes keeps STATUS consistent: it writes the two load fields or resets all of them. -/
theorem effect_statusLegal {i : Instr} {s u : State} {p : List Word} (h : effect i s = .ok (u, p))
    (hs : s.StatusLegal) : u.StatusLegal := by
  obtain e | e | ⟨t, t', r, ht, e⟩ := effect_status h <;> unfold State.StatusLegal <;> rw [e]
  · exact hs
  · decide
  · exact ⟨hs.1, r.code_le, loadIndex_lt ht⟩

/-- Settles O21: a fault records its code, a load its result and slot, and no other command writes STATUS but RESET. -/
theorem statusStaysConsistent : Obligations.StatusStaysConsistent := fun _ _ hs h =>
  step_keeps (I := State.StatusLegal) (fun _ _ hs => hs) (fun _ c cw hs => State.withFault_statusLegal hs c cw)
    (fun _ _ _ _ hu hs => effect_statusLegal hu hs) hs h

/-! Configuration. -/

/-- Settles O22: no command, RESET included, writes the configuration, and neither does a fault. -/
theorem configurationNeverChanges : Obligations.ConfigurationNeverChanges := fun s _ h =>
  step_keeps (I := fun u => u.cfg = s.cfg) (fun _ _ hu => hu) (fun _ _ _ hu => hu)
    (fun _ _ _ _ hu hs => (effect_cfg hu).trans hs) rfl h

end Sys2Proof.Machine
end

section
/-! PROOFS. O23, O24: the state after reset, its values and the invariants it meets. The guard sample and the
normalisation of a slot are shown of any slot whose words are an octave table. -/

namespace Sys2Proof

theorem F64.mag_abs (x : F64) : F64.mag (F64.abs x) = F64.mag x := F64.mag_make (F64.mag_lt x)

/-- The magnitudes of finite numbers are ordered as their magnitude fields. -/
theorem F64.le_abs_abs {x y : F64} (hx : F64.isFinite x = true) (hy : F64.isFinite y = true) :
    F64.le (F64.abs x) (F64.abs y) = true ↔ F64.mag x ≤ F64.mag y := by
  obtain ⟨hx', sx⟩ := F64.abs_spec hx
  obtain ⟨hy', sy⟩ := F64.abs_spec hy
  rw [F64.le_iff hx' hy', sx, sy, Nat.cast_le, F64.scale_le]

/-- A finite value equals zero exactly when its magnitude fields are zero. -/
theorem F64.eq_zero_iff {x : F64} (hx : F64.isFinite x = true) : F64.eq x F64.zero = true ↔ F64.mag x = 0 := by
  rw [F64.eq_iff hx F64.isFinite_zero, F64.scaled_zero, F64.scaled_eq_zero]

theorem F64.abs_eq_one {x : F64} (h : F64.mag x = F64.mag F64.one) : F64.abs x = F64.one := by
  rw [F64.abs, h]
  decide

end Sys2Proof

namespace Sys2Proof.Machine

/-! Slots whose words are an octave table. -/

/-- Peak-normalised samples are all zero, or their largest magnitude is exactly 1.0 (41 R172; 20_memory R75). -/
theorem normalizedTo_unit_peak {p : Nat} {raw word : Nat → F64} (h : normalizedTo p raw word)
    (hf : ∀ n < p, F64.isFinite (raw n) = true) :
    (∀ n < p, F64.eq (word n) F64.zero = true) ∨
    ((∃ n < p, F64.abs (word n) = F64.one) ∧ ∀ n < p, F64.le (F64.abs (word n)) F64.one = true) := by
  obtain ⟨_, hle, ⟨k, hk, rfl⟩, hword⟩ := h
  have hpeak := (F64.abs_spec (hf k hk)).1
  have hmag : ∀ n < p, F64.mag (raw n) ≤ F64.mag (F64.abs (raw k)) := fun n hn => by
    rw [F64.mag_abs]
    exact (F64.le_abs_abs (hf n hn) (hf k hk)).1 (hle n hn)
  by_cases h0 : F64.mag (F64.abs (raw k)) = 0
  · left
    intro n hn
    rw [hword n hn, if_pos ((F64.eq_zero_iff hpeak).2 h0), F64.eq_zero_iff (hf n hn)]
    exact Nat.le_zero.1 ((hmag n hn).trans_eq h0)
  · right
    have hquot : ∀ n < p, word n = F64.div (raw n) (F64.abs (raw k)) := fun n hn => by
      rw [hword n hn, if_neg (mt (F64.eq_zero_iff hpeak).1 h0)]
    refine ⟨⟨k, hk, ?_⟩, fun n hn => ?_⟩
    · rw [hquot k hk]
      exact F64.abs_eq_one ((F64.mag_div_le_one (hf k hk) hpeak h0 (hmag k hk)).2 (F64.mag_abs _).symm)
    · have hone : F64.isFinite F64.one = true := by decide
      have hq := (F64.mag_div_le_one (hf n hn) hpeak h0 (hmag n hn)).1
      rw [hquot n hn]
      exact (F64.le_abs_abs (F64.isFinite_iff.2 (hq.trans_lt (F64.isFinite_iff.1 hone))) hone).2 hq

section OctaveTable

variable {ts : TableSlot} {p w o : Nat} {a : List F64} (hlen : a.length = p) (hp : 0 < p)
  (hword : ∀ n ≤ p, ts.word p w o n = (octaveTable a).getD n F64.zero)

include hlen hp hword

/-- The guard sample of an octave table in a slot equals its sample 0 (20_memory R71). -/
theorem TableSlot.guard_of_octaveTable : ts.word p w o p = ts.word p w o 0 := by
  subst hlen
  rw [hword _ le_rfl, hword 0 (Nat.zero_le _), octaveTable_guard (List.ne_nil_of_length_pos hp)]

/-- An octave table of finite samples in a slot is normalised, its guard sample included (20_memory R75). -/
theorem TableSlot.normal_of_octaveTable (hf : ∀ x ∈ a, F64.isFinite x = true) : ts.normal p w o := by
  have hguard := TableSlot.guard_of_octaveTable hlen hp hword
  subst hlen
  have hsample : ∀ n < a.length, ts.word a.length w o n = (normalize a).getD n F64.zero := fun n hn =>
    (hword n hn.le).trans (octaveTable_getD hn _)
  have hraw : ∀ n < a.length, F64.isFinite (a.getD n F64.zero) = true := fun n hn => by
    rw [List.getD_eq_getElem _ _ hn]
    exact hf _ (List.getElem_mem hn)
  obtain hzero | ⟨⟨k, hk, hone⟩, hle⟩ :=
    normalizedTo_unit_peak (normalize_normalizedTo hf (List.ne_nil_of_length_pos hp) F64.zero) hraw
  · left
    have hz : ∀ n < a.length, F64.eq (ts.word a.length w o n) F64.zero = true := fun n hn => by
      rw [hsample n hn]
      exact hzero n hn
    intro n hn
    obtain hlt | rfl := Nat.lt_succ_iff_lt_or_eq.1 hn
    · exact hz n hlt
    · rw [hguard]
      exact hz 0 hp
  · right
    refine ⟨⟨k, hk, ?_⟩, fun n hn => ?_⟩
    · rw [hsample k hk]
      exact hone
    · rw [hsample n hn]
      exact hle n hn

end OctaveTable

/-! The built-in set. -/

/-- Every raw sample of a configuration is finite (41 R177). -/
theorem genRaw_finite (c : Config) (w o n : Nat) : F64.isFinite (genRaw c.toParams w o n) = true := by
  have hok := c.ok
  simp only [Params.valid, Bool.and_eq_true, List.all_eq_true] at hok
  unfold genRaw
  split
  · exact F64.isFinite_zero
  · generalize (w * Config.numOct + o) * c.p + n = k
    rw [List.getD_eq_getElem?_getD]
    cases h : c.genRaw[k]? with
    | none => exact F64.isFinite_zero
    | some x => exact hok.1.2 x (List.mem_of_getElem? h)

theorem rawTable_finite (c : Config) (w o : Nat) : ∀ x ∈ rawTable c.toParams w o, F64.isFinite x = true := by
  intro x hx
  obtain ⟨n, -, rfl⟩ := List.mem_map.1 hx
  exact genRaw_finite c w o n

/-- The slot that holds the built-in set. -/
def defaultSlot (c : Config) : TableSlot := TableSlot.holding (defaultSet c.toParams) Config.numDefaultWaves

/-- The words of the built-in set in a slot are its octave tables. -/
theorem defaultSlot_word (c : Config) {w o : Nat} (hw : w < Config.numDefaultWaves) (ho : o < Config.numOct) :
    ∀ n ≤ c.p, (defaultSlot c).word c.p w o n = (octaveTable (rawTable c.toParams w o)).getD n F64.zero := fun _ hn =>
  (TableSlot.holding_read ..).trans (defaultSet_getD c hw ho hn _)

/-- The guards of the built-in set (20_memory R71). -/
theorem defaultSlot_guard (c : Config) {w o : Nat} (hw : w < Config.numDefaultWaves) (ho : o < Config.numOct) :
    (defaultSlot c).word c.p w o c.p = (defaultSlot c).word c.p w o 0 :=
  TableSlot.guard_of_octaveTable (rawTable_length ..) (by have := two_le_p c; omega) (defaultSlot_word c hw ho)

/-- The built-in set is normalised (20_memory R75). -/
theorem defaultSlot_normal (c : Config) {w o : Nat} (hw : w < Config.numDefaultWaves) (ho : o < Config.numOct) :
    (defaultSlot c).normal c.p w o :=
  TableSlot.normal_of_octaveTable (rawTable_length ..) (by have := two_le_p c; omega) (defaultSlot_word c hw ho)
    (rawTable_finite c w o)

/-! The state after reset. -/

/-- After reset slot 0 holds the built-in set, and it is the only valid slot (10_state R51). -/
theorem State.resetOf_table_zero (c : Config) : (State.resetOf c).table 0 = defaultSlot c :=
  (State.resetOf_table c 0).trans (if_pos rfl)

theorem State.resetOf_table_of_ne (c : Config) {t : TableNo} (h : t ≠ 0) :
    (State.resetOf c).table t = TableSlot.empty := (State.resetOf_table c t).trans (if_neg h)

theorem State.resetOf_valid_iff (c : Config) (t : TableNo) : ((State.resetOf c).table t).tvalid = true ↔ t = 0 := by
  constructor
  · intro hv
    by_contra h
    rw [State.resetOf_table_of_ne c h] at hv
    exact Bool.false_ne_true hv
  · rintro rfl
    rfl

/-- Parameters that meet every constraint power the block on in its reset state (70 R341). -/
theorem powerOn_config (c : Config) [Decidable c.toParams.legal] :
    powerOn c.toParams = .next (State.resetOf c) := dif_pos ⟨c.ok, c.near⟩

/-- Settles O23: the fields of the reset state, the two outcomes of power-on. -/
theorem resetValues : Obligations.ResetValues := by
  refine ⟨?_, rfl, fun c _ hc => dif_neg hc⟩
  rintro c _ _ rfl
  refine ⟨powerOn_config c, fun sl j => ?_, fun sl => State.resetOf_mix c sl, ?_, rfl, rfl, fun a => ?_, fun t ht => ?_⟩
  · rw [State.resetOf_osc]
    exact ⟨zeroLanes_get, rfl, rfl, rfl, rfl, rfl, rfl, rfl, rfl⟩
  · rw [State.resetOf_status]
    decide
  · rw [State.resetOf_table_zero]
    exact TableSlot.holding_read ..
  · rw [State.resetOf_table_of_ne c ht]
    exact ⟨rfl, rfl⟩

/-- The registers and the bookkeeping after reset are legal (10_state R32, R38, R48). -/
theorem State.resetOf_legal (c : Config) : (State.resetOf c).Legal := by
  refine ⟨fun sl j i => ?_, fun sl j => ?_, State.resetOf_bookkeepingLegal c⟩
  · rw [State.resetOf_osc]
    exact zeroLanes_lanePosition c i
  · rw [State.resetOf_osc]
    exact Osc.reset_paramsLegal c

theorem State.resetOf_guardsLegal (c : Config) : (State.resetOf c).GuardsLegal := by
  intro t ht
  obtain rfl := (State.resetOf_valid_iff c t).1 ht
  rw [State.resetOf_table_zero]
  exact fun w hw o ho => defaultSlot_guard c hw ho

theorem State.resetOf_tablesNormal (c : Config) : (State.resetOf c).TablesNormal := by
  intro t ht
  obtain rfl := (State.resetOf_valid_iff c t).1 ht
  rw [State.resetOf_table_zero]
  exact fun w hw o ho => defaultSlot_normal c hw ho

theorem State.resetOf_memoryCanonical (c : Config) : (State.resetOf c).MemoryCanonical := by
  intro t
  rw [State.resetOf_table]
  split
  · exact TableSlot.holding_wf ..
  · exact TableSlot.empty_wf

theorem State.resetOf_statusLegal (c : Config) : (State.resetOf c).StatusLegal := by
  unfold State.StatusLegal
  rw [State.resetOf_status]
  decide

/-- Settles O24: each invariant at the reset state, the tables' by those of the built-in set. -/
theorem resetMeetsInvariants : Obligations.ResetMeetsInvariants := fun c =>
  ⟨State.resetOf_legal c, State.resetOf_guardsLegal c, State.resetOf_tablesNormal c, State.resetOf_memoryCanonical c,
    State.resetOf_statusLegal c, rfl⟩

end Sys2Proof.Machine
end

section
/-! PROOFS. O4: the byte-wide transport (20_memory R80; 30_encoding R125, R126): the words of a frame are taken back one
by one, their number told from the command word. -/

namespace Sys2Proof.Machine

/-- The right length of a TBLLOAD: a length word and the words of so many bytes (30_encoding R126). -/
theorem lengthRight_of_tblload {fr : Frame} (h : opcodeOf (opField fr.word) = some .tblload) :
    lengthRight fr ↔ ∃ len data, fr.operands = len :: data ∧ data.length = loadWords len := by
  unfold lengthRight
  rw [h]
  rfl

/-- The right length of any other frame: the K of its OP (30_encoding R114). -/
theorem lengthRight_of_fixed {fr : Frame} (h : opcodeOf (opField fr.word) ≠ some .tblload) :
    lengthRight fr ↔ fr.operands.length = fixedOperands (opcodeOf (opField fr.word)) := by
  unfold lengthRight
  split
  · contradiction
  · rfl

/-- A stream that starts with the bytes of a command word, as `frameOfBytes` reads it: any OP but that of TBLLOAD. -/
theorem frameOfBytes_of_fixed {cw : CmdWord} {bytes rest : List Byte} {ws : List Word}
    (hop : opcodeOf (opField cw) ≠ some .tblload)
    (hws : takeWords (fixedOperands (opcodeOf (opField cw))) bytes = some (ws, rest)) :
    frameOfBytes (leBytes 4 cw.toNat ++ bytes) = some (⟨cw, ws⟩, rest) := by
  have h4 : (leBytes 4 cw.toNat).length = 4 := leBytes_length 4 _
  rw [frameOfBytes, if_neg (by simp), List.take_left' h4, List.drop_left' h4, ofNat_leNat_leBytes_4]
  simp only [hws]
  split
  · contradiction
  · rfl

/-- A stream that starts with the bytes of a TBLLOAD command word: the length word, then the words it asks for. -/
theorem frameOfBytes_of_tblload {cw : CmdWord} {bytes mid rest : List Byte} {len : Word} {data : List Word}
    (hop : opcodeOf (opField cw) = some .tblload) (hlen : takeWords 1 bytes = some ([len], mid))
    (hdata : takeWords (loadWords len) mid = some (data, rest)) :
    frameOfBytes (leBytes 4 cw.toNat ++ bytes) = some (⟨cw, len :: data⟩, rest) := by
  have h4 : (leBytes 4 cw.toNat).length = 4 := leBytes_length 4 _
  rw [frameOfBytes, if_neg (by simp), List.take_left' h4, List.drop_left' h4, ofNat_leNat_leBytes_4]
  dsimp only
  rw [hop, fixedOperands, hlen]
  dsimp only
  rw [hdata]

/-- Settles O4: by the OP, one run of words taken back, or for TBLLOAD two. -/
theorem byteTransportRoundTrip : Obligations.ByteTransportRoundTrip := by
  rintro ⟨cw, ws⟩ rest h
  rw [frameBytes, List.append_assoc]
  by_cases hop : opcodeOf (opField cw) = some .tblload
  · obtain ⟨len, data, rfl, hdata⟩ := (lengthRight_of_tblload (fr := ⟨cw, ws⟩) hop).1 h
    rw [List.flatMap_cons, List.append_assoc]
    refine frameOfBytes_of_tblload hop (takeWords_leBytes [len] _) ?_
    rw [← hdata]
    exact takeWords_leBytes data rest
  · rw [lengthRight_of_fixed (fr := ⟨cw, ws⟩) hop] at h
    exact frameOfBytes_of_fixed hop (h ▸ takeWords_leBytes ws rest)

end Sys2Proof.Machine
end

section
/-! PROOFS. O6, O9, O13: the port in one step (20_memory R94, R95; 60_exceptions R320), and the commands that only read
(20_memory R91). -/

namespace Sys2Proof.Machine

/-! The port. -/

/-- A command of the block in progress is fetched from it (20_memory R95). -/
theorem Port.fetch_of_current {p : Port} {fr : Frame} {rest : List Frame} (h : p.current = fr :: rest) :
    p.fetch = (some fr, { p with current := rest }) := by
  unfold Port.fetch
  rw [h]

/-- With no block in progress the lock is taken, and the first command of the new block, if any, leaves the port. -/
theorem Port.fetch_of_idle {p : Port} (h : p.current = []) :
    p.fetch.2 = { p.acquire with current := p.acquire.current.tail } := by
  unfold Port.fetch
  rw [h]
  dsimp only
  split
  · rename_i e
    rw [e]
    rfl
  · rename_i e
    have htail : p.acquire.current = p.acquire.current.tail := by rw [e, List.tail_nil]
    exact congrArg (fun c => { p.acquire with current := c }) htail

/-- The block that takes the lock is the first that one of the agents has waiting; with none the port stays as it is
(60_exceptions R320). -/
theorem Port.acquire_cases (p : Port) :
    (p.render = [] ∧ p.control = [] ∧ p.acquire = p) ∨
    (∃ b g, p.render = b :: p.acquire.render ∧
      p.acquire = { p with holder := .render, current := b, render := p.acquire.render, grants := g }) ∨
    (∃ b g, p.control = b :: p.acquire.control ∧
      p.acquire = { p with holder := .control, current := b, control := p.acquire.control, grants := g }) := by
  unfold Port.acquire
  split
  · exact .inl ⟨‹_›, ‹_›, rfl⟩
  · exact .inr (.inl ⟨_, _, ‹_›, rfl⟩)
  · exact .inr (.inr ⟨_, _, ‹_›, rfl⟩)
  · split
    · exact .inr (.inl ⟨_, _, ‹_›, rfl⟩)
    · exact .inr (.inr ⟨_, _, ‹_›, rfl⟩)

@[simp] theorem State.buildSlot_port (s : State) (t : TableNo) : (s.buildSlot t).port = s.port := rfl
@[simp] theorem State.loadSlot_port (s : State) (t : TableNo) (r : FileResult) : (s.loadSlot t r).port = s.port := by
  cases r <;> rfl

/-- No command touches the port: its response is sent when it is done (30_encoding R110). -/
theorem effect_port {i : Instr} {s u : State} {p : List Word} (h : effect i s = .ok (u, p)) : u.port = s.port := by
  obtain rfl | ⟨-, rfl⟩ | ⟨sl, j, f, v, w, -, rfl⟩ | ⟨t, rfl⟩ | ⟨t, t', len, data, r, -, -, -, rfl⟩ | ⟨sl, j, rfl⟩ |
    ⟨sl, rfl⟩ | ⟨sl, j, f, dt, r, -, rfl⟩ | ⟨sl, f0, f1, f2, dt, r0, r1, r2, m, -, rfl⟩ := effect_ok h <;> simp

/-- The port after a command: a response more. -/
theorem exec_port {i : Instr} {s t : State} (h : exec i s = .next t) :
    ∃ r, t.port = { s.port with replies := s.port.replies ++ [r] } := by
  obtain ⟨-, -, rfl⟩ | ⟨u, p, hu, rfl⟩ | ⟨c, -, -, rfl⟩ := exec_next h
  · exact ⟨_, rfl⟩
  · rw [← effect_port hu]
    exact ⟨_, rfl⟩
  · exact ⟨_, rfl⟩

/-- The port after a step: what the fetch left of it, with the responses sent. -/
theorem step_port {s t : State} (h : step s = .next t) :
    ∃ rs, t.port = { s.port.fetch.2 with replies := rs } := by
  obtain ⟨port, hf, rfl⟩ | ⟨fr, port, c, hf, -, rfl⟩ | ⟨fr, port, i, hf, -, h⟩ := step_next h <;> rw [hf]
  · exact ⟨_, rfl⟩
  · unfold State.rejectFrame
    split <;> exact ⟨_, rfl⟩
  · obtain ⟨r, hr⟩ := exec_port h
    exact ⟨_, hr⟩

/-- Settles O6: the fetch, then the decoder, decide what a step runs. -/
theorem stepRunsDecodedCommand : Obligations.StepRunsDecodedCommand := by
  refine ⟨fun s fr rest h => Port.fetch_of_current h, fun s fr port hf => ⟨fun i hd => ?_, fun c hd => ?_⟩⟩
  · simp only [step, hf, hd]
  · simp only [step, hf, hd, State.rejectFrame]

/-- Settles O9: the port after a step is what the fetch left, from the block in progress or from the one that takes the
lock. -/
theorem blocksNeverInterleave : Obligations.BlocksNeverInterleave := by
  refine ⟨fun s t fr rest hc h => ?_, fun s t hc h => ?_⟩ <;> obtain ⟨rs, hport⟩ := step_port h
  · rw [Port.fetch_of_current hc] at hport
    rw [hport]
    exact ⟨rfl, rfl, rfl, rfl⟩
  · rw [Port.fetch_of_idle hc] at hport
    rw [hport]
    obtain ⟨hr, hk, e⟩ | ⟨b, g, hb, e⟩ | ⟨b, g, hb, e⟩ := s.port.acquire_cases
    · exact .inl ⟨hr, hk, by rw [e, hc]; rfl, by rw [e, hr], by rw [e, hk]⟩
    · exact .inr (.inl ⟨b, hb, by rw [e], by rw [e], by rw [e]⟩)
    · exact .inr (.inr ⟨b, hb, by rw [e], by rw [e], by rw [e]⟩)

/-! The commands that only read. -/

/-- The reads, NOP and PREVIEW (20_memory R91; 40 R140; 43 R253). -/
def readOps : List Op := [.rdparam, .rdcfg, .rdstatus, .rdstate, .rdout, .tblrd, .tblinfo, .nop, .preview]

@[simp] theorem State.withPort_osc (s : State) (port : Port) (sl : SlotNo) (j : OscNo) :
    State.osc { s with port := port } sl j = s.osc sl j := rfl
@[simp] theorem State.withPort_table (s : State) (port : Port) (t : TableNo) :
    State.table { s with port := port } t = s.table t := rfl

/-- A read answers from the block alone: at any port it leaves the state as it is, with one and the same payload. -/
theorem effect_of_read {i : Instr} (hi : i.op ∈ readOps) (s : State) (port : Port) :
    effect i { s with port := port } = (effect i s).map fun r => ({ s with port := port }, r.2) := by
  cases i with
  | nop | rdstatus => rfl
  | rdparam sl j fld =>
    simp only [effect, rdparamEffect]
    split <;> rfl
  | rdcfg fld =>
    simp only [effect, rdcfgEffect]
    split <;> rfl
  | rdstate sl j lane =>
    simp only [effect, rdstateEffect]
    split <;> rfl
  | rdout sl j =>
    simp only [effect, rdoutEffect]
    split <;> split <;> rfl
  | tblrd t addr =>
    simp only [effect, tblrdEffect, State.withPort_table]
    split
    · rfl
    rw [apply_ite (Except.map _), apply_ite (Except.map _)]
    refine if_congr Iff.rfl rfl (if_congr Iff.rfl rfl ?_)
    split <;> rfl
  | tblinfo t =>
    simp only [effect, tblinfoEffect]
    split <;> rfl
  | preview sl j n f =>
    simp only [effect, previewEffect, State.withPort_osc]
    split
    · rfl
    · rfl
    split
    · rfl
    split <;> rfl
  | _ => simp [Instr.op, readOps] at hi

/-- A read that completes leaves the state as it is. -/
theorem effect_of_read_ok {i : Instr} (hi : i.op ∈ readOps) {s u : State} {p : List Word}
    (h : effect i s = .ok (u, p)) : u = s := by
  have := effect_of_read hi s s.port
  rw [h] at this
  cases this
  rfl

/-- RESET and RDSTATUS are executed in every block, every command in a running one (60_exceptions R301). -/
theorem exec_of_runs {i : Instr} {s : State} (h : runsHalted i = true ∨ s.status.halted = false) :
    exec i s = settle i.word s (effect i s) := by
  obtain h | h := h
  · rw [exec_eq, if_pos h]
  · exact exec_of_running h i

/-- Settles O13: a read that does not halt the block completes or is ignored, and so it is once more, whatever responses
were sent in between. -/
theorem readsChangeNoState : Obligations.ReadsChangeNoState := by
  intro i hi s t h hstatus
  by_cases hrun : runsHalted i = true ∨ s.status.halted = false
  · rw [exec_of_runs hrun] at h
    obtain ⟨u, p, hu, rfl⟩ | ⟨c, hc, rfl⟩ := settle_next h
    · obtain rfl := effect_of_read_ok hi hu
      have hagain : effect i (u.reply okHeader p) = .ok (u.reply okHeader p, p) := by
        rw [State.reply, effect_of_read hi, hu]
        rfl
      exact ⟨okHeader, p, rfl, by rw [exec_of_runs (s := u.reply okHeader p) hrun, hagain]; rfl⟩
    · obtain hr | hh := hrun
      · obtain ⟨u, p, he⟩ := effect_of_runsHalted hr s
        cases hc.symm.trans he
      · rw [hh] at hstatus
        cases hstatus
  · obtain ⟨hi, hh⟩ : runsHalted i = false ∧ s.status.halted = true := by simpa using hrun
    rw [exec_of_halted hh hi] at h
    cases h
    exact ⟨ignoredHeader, [], rfl, exec_of_halted (s := s.ignore) hh hi⟩

end Sys2Proof.Machine
end

section
/-! PROOFS. O38: the sample file (20_memory R84 to R88): the payload decode, one turn of the chunk scan, and the file. -/

namespace Sys2Proof.Machine

/-! The payload. -/

/-- Sample m of a payload: four bytes, least significant first, as binary32 (20_memory R81, R82, R87). -/
def payloadSample (payload : List Byte) (m : Nat) : F64 :=
  F64.ofBinary32 (BitVec.ofNat 32 (leNat ((payload.drop (4 * m)).take 4)))

/-- A payload of 4n bytes holds n samples. -/
theorem payloadSamples_eq {n : Nat} {payload : List Byte} (h : payload.length = 4 * n) :
    payloadSamples payload = (List.range n).map (payloadSample payload) := by
  induction n generalizing payload with
  | zero =>
    obtain rfl := List.length_eq_zero_iff.1 h
    rfl
  | succ n ih =>
    match payload, h with
    | b0 :: b1 :: b2 :: b3 :: rest, h =>
      have hrest : rest.length = 4 * n := by simp only [List.length_cons] at h; omega
      rw [payloadSamples, ih hrest, List.range_succ_eq_map, List.map_cons, List.map_map]
      rfl

/-- A payload of a size that is not 4 times a positive multiple of P (20_memory R86). -/
theorem decodePayload_badCount {p size : Nat} (payload : List Byte)
    (h : size % 4 ≠ 0 ∨ size = 0 ∨ size / 4 % p ≠ 0) : decodePayload p payload size = .badCount := by
  unfold decodePayload
  split
  · rfl
  · rw [if_pos (by omega)]

/-- A payload of k waveshapes of P samples, k positive: too many, or decided by its samples (20_memory R86). -/
theorem decodePayload_of_count {p k : Nat} {payload : List Byte} (hp : 0 < p) (hk : 1 ≤ k)
    (h : payload.length = 4 * (k * p)) :
    decodePayload p payload (4 * (k * p)) =
      if Config.maxWaves < k then .tooMany
      else if ∀ m < k * p, F64.isFinite (payloadSample payload m) = true then
        .accept k ((List.range (k * p)).map (payloadSample payload))
      else .badSample := by
  have hpos : 0 < k * p := Nat.mul_pos hk hp
  have hall : (payloadSamples payload).all F64.isFinite = true ↔
      ∀ m < k * p, F64.isFinite (payloadSample payload m) = true := by
    rw [payloadSamples_eq h]
    simp
  unfold decodePayload
  rw [if_neg (by omega), Nat.mul_div_cancel_left _ (by omega : 0 < 4), if_neg (by simp; omega),
    Nat.mul_div_cancel _ hp, payloadSamples_eq h]
  rw [payloadSamples_eq h] at hall
  simp only [hall]

/-- A payload that is accepted with k waveshapes gives k times P finite samples (20_memory R86). -/
theorem decodePayload_accept {p size k : Nat} {payload : List Byte} {v : List F64} (hsize : payload.length = size)
    (h : decodePayload p payload size = .accept k v) : v.length = k * p ∧ ∀ x ∈ v, F64.isFinite x = true := by
  subst hsize
  unfold decodePayload at h
  split at h
  · cases h
  rename_i hword
  split at h
  · cases h
  rename_i hcount
  split at h
  · cases h
  split at h
  · rename_i hfinite
    cases h
    have hk : payload.length / 4 / p * p = payload.length / 4 := Nat.div_mul_cancel (Nat.dvd_of_mod_eq_zero (by omega))
    refine ⟨?_, List.all_eq_true.1 hfinite⟩
    rw [payloadSamples_eq (n := payload.length / 4) (by omega), List.length_map, List.length_range, hk]
  · cases h

/-! The chunk scan. -/

/-- The scan accepts only the decode of a payload (20_memory R85). -/
theorem scanChunks_accept {p turns k : Nat} {bytes : List Byte} {v : List F64}
    (h : scanChunks p turns bytes = .accept k v) :
    ∃ payload size, payload.length = size ∧ decodePayload p payload size = .accept k v := by
  induction turns generalizing bytes with
  | zero => cases h
  | succ turns ih =>
    unfold scanChunks at h
    split at h
    · cases h
    split at h
    · cases h
    dsimp only at h
    split at h
    · cases h
    rename_i hsize
    split at h
    · exact ⟨_, _, List.length_take_of_le (not_lt.1 hsize), h⟩
    · exact ih h

/-- One turn of the scan at a chunk whose header is complete (20_memory R85). -/
theorem scanChunks_chunk {id : List Byte} {size : Nat} (p turns : Nat) (tail : List Byte) (hid : id.length = 4)
    (hsize : size < 2 ^ 32) :
    scanChunks p (turns + 1) (id ++ leBytes 4 size ++ tail) =
      if tail.length < size then .truncated
      else if id = dataId then decodePayload p (tail.take size) size
      else scanChunks p turns (tail.drop size) := by
  have h4 : (leBytes 4 size).length = 4 := leBytes_length 4 _
  have h8 : (id ++ leBytes 4 size).length = 8 := by simp [hid]
  have hnat : leNat (leBytes 4 size) = size := by rw [leNat_leBytes]; omega
  rw [scanChunks, if_neg (by simp), if_neg (by simp; omega), List.drop_left' h8,
    List.append_assoc, List.drop_left' hid, List.take_left' hid, List.take_left' h4, hnat]

/-- The scan of n bytes ends within n + 1 turns: more turns change nothing (20_memory R85). -/
theorem scanChunks_turns {p : Nat} {turns turns' : Nat} {bytes : List Byte} (h : bytes.length < turns)
    (h' : bytes.length < turns') : scanChunks p turns bytes = scanChunks p turns' bytes := by
  induction turns generalizing turns' bytes with
  | zero => omega
  | succ turns ih =>
    obtain ⟨turns', rfl⟩ : ∃ n, turns' = n + 1 := ⟨turns' - 1, by omega⟩
    by_cases h0 : bytes.length = 0
    · rw [scanChunks, scanChunks, if_pos h0, if_pos h0]
    · have hlt : ∀ size n, bytes.length < n + 1 → ((bytes.drop 8).drop size).length < n := fun size n hn => by
        simp only [List.length_drop]
        omega
      simp only [scanChunks]
      rw [ih (hlt _ _ h) (hlt _ _ h')]

/-! The file. -/

theorem headerLen_eq : Config.headerLen = 4 := rfl

/-- An accepted file gives k times P finite samples (20_memory R85, R86). -/
theorem parseWaveFile_accept {p k : Nat} {bytes : List Byte} {v : List F64}
    (h : parseWaveFile p bytes = .accept k v) : v.length = k * p ∧ ∀ x ∈ v, F64.isFinite x = true := by
  unfold parseWaveFile at h
  split at h
  · cases h
  split at h
  · cases h
  obtain ⟨payload, size, hsize, hpayload⟩ := scanChunks_accept h
  exact decodePayload_accept hsize hpayload

/-- Behind its header a file is its chunks (20_memory R84). -/
theorem parseWaveFile_header {header : List Byte} (p : Nat) (h : header.length = 4) (rest : List Byte) :
    parseWaveFile p (header ++ rest) = scanChunks p (rest.length + 1) rest := by
  have hl : (header ++ rest).length = rest.length + 4 := by rw [List.length_append, h, Nat.add_comm]
  rw [parseWaveFile, if_neg (by omega), if_neg (by rw [hl, headerLen_eq]; omega), headerLen_eq, List.drop_left' h]
  exact scanChunks_turns (by omega) (by omega)

/-- A file whose first chunk has a complete header: its payload is cut short, decides, or is skipped (20_memory R85). -/
theorem parseWaveFile_chunk {header id : List Byte} {size : Nat} (p : Nat) (tail : List Byte)
    (hheader : header.length = 4) (hid : id.length = 4) (hsize : size < 2 ^ 32) :
    parseWaveFile p (header ++ id ++ leBytes 4 size ++ tail) =
      if tail.length < size then .truncated
      else if id = dataId then decodePayload p (tail.take size) size
      else parseWaveFile p (header ++ tail.drop size) := by
  have hassoc : header ++ id ++ leBytes 4 size ++ tail = header ++ (id ++ leBytes 4 size ++ tail) := by simp
  rw [hassoc, parseWaveFile_header p hheader, parseWaveFile_header p hheader, scanChunks_chunk p _ _ hid hsize,
    scanChunks_turns (turns' := (tail.drop size).length + 1) (by simp; omega) (Nat.lt_succ_self _)]

/-- A file whose first chunk is complete: a "data" chunk decides by its payload alone, another is skipped. -/
theorem parseWaveFile_complete {header id body : List Byte} {size : Nat} (p : Nat) (rest : List Byte)
    (hheader : header.length = 4) (hid : id.length = 4) (hsize : size < 2 ^ 32) (hbody : body.length = size) :
    parseWaveFile p (header ++ id ++ leBytes 4 size ++ body ++ rest) =
      if id = dataId then decodePayload p body size else parseWaveFile p (header ++ rest) := by
  rw [List.append_assoc _ body, parseWaveFile_chunk p _ hheader hid hsize, if_neg (by simp; omega),
    List.take_left' hbody, List.drop_left' hbody]

/-- Settles O38: the scan by its first chunk, a complete "data" chunk by the decode of its payload. -/
theorem sampleFileParses : Obligations.SampleFileParses := by
  refine ⟨fun _ _ => rfl, rfl, fun p hp2 _ => ⟨fun b h => if_pos h, fun b h0 h4 => ?_, fun header hheader =>
    ⟨?_, fun rest h0 h8 => ?_, fun id size hid hsize => ⟨fun body h => ?_, fun body rest hbody => ?_⟩⟩⟩⟩
  · rw [parseWaveFile, if_neg h0.ne', if_pos (headerLen_eq ▸ h4)]
  · have := parseWaveFile_header p hheader []
    rwa [List.append_nil] at this
  · rw [parseWaveFile_header p hheader, scanChunks, if_neg h0.ne', if_pos h8]
  · rw [parseWaveFile_chunk p body hheader hid hsize, if_pos h]
  · dsimp only
    rw [parseWaveFile_complete p rest hheader hid hsize hbody]
    refine ⟨fun hne => if_neg hne, fun hdata => ?_⟩
    rw [if_pos (show id = dataId from hdata)]
    refine ⟨decodePayload_badCount body, fun k hk hsize' => ?_⟩
    subst hsize'
    rw [decodePayload_of_count (by omega) hk hbody]
    refine ⟨fun h => if_pos h, fun h ⟨m, hm, hbad⟩ => ?_, fun h hgood => ?_⟩
    · exact (if_neg h.not_gt).trans (if_neg fun hall => Bool.false_ne_true (hbad.symm.trans (hall m hm)))
    · exact (if_neg h.not_gt).trans (if_pos hgood)

end Sys2Proof.Machine
end

section
/-! PROOFS. O18, O19, O20, O59: table memory. A slot is empty, or holds the built-in set or the waveshapes of an accepted
file; what each of these has, every step keeps of every slot. -/

namespace Sys2Proof.Machine

/-! The waveshapes of an accepted file. -/

/-- The slot that holds k waveshapes of a file. -/
def loadedSlot (c : Config) (k : Nat) (v : List F64) : TableSlot := TableSlot.holding (loadedSet c.p k v) k

section Accepted

variable {c : Config} {bytes : List Byte} {k : Nat} {v : List F64} (h : parseWaveFile c.p bytes = .accept k v)
  {w o : Nat} (hw : w < k) (ho : o < Config.numOct)

include h hw

/-- Every waveshape of an accepted file has P samples. -/
theorem acceptedTable_length : (fileTable c.p w v).length = c.p := fileTable_length (parseWaveFile_accept h).1 hw

include ho

/-- The words of an accepted file in a slot are its octave tables. -/
theorem loadedSlot_word : ∀ n ≤ c.p, (loadedSlot c k v).word c.p w o n =
    (octaveTable (fileTable c.p w v)).getD n F64.zero := fun _ hn =>
  (TableSlot.holding_read ..).trans
    (loadedSet_getD (by have := two_le_p c; omega) (parseWaveFile_accept h).1 hw ho hn _)

/-- The guards of an accepted file (20_memory R71; 41 R181, R182). -/
theorem loadedSlot_guard : (loadedSlot c k v).word c.p w o c.p = (loadedSlot c k v).word c.p w o 0 :=
  TableSlot.guard_of_octaveTable (acceptedTable_length h hw) (by have := two_le_p c; omega) (loadedSlot_word h hw ho)

/-- The tables of an accepted file are normalised (20_memory R75; 41 R172). -/
theorem loadedSlot_normal : (loadedSlot c k v).normal c.p w o :=
  TableSlot.normal_of_octaveTable (acceptedTable_length h hw) (by have := two_le_p c; omega) (loadedSlot_word h hw ho)
    fun x hx => (parseWaveFile_accept h).2 x (List.mem_of_mem_drop (List.mem_of_mem_take hx))

end Accepted

/-! What every step keeps of every table slot. -/

/-- Rule of a step for a property `J` of a table slot under the configuration: what an empty slot, the built-in set and
every accepted file have, every step keeps of all slots. -/
theorem step_keeps_table {J : Config → TableSlot → Prop} (hempty : ∀ c, J c TableSlot.empty)
    (hdefault : ∀ c, J c (defaultSlot c))
    (hloaded : ∀ c bytes k v, parseWaveFile c.p bytes = .accept k v → J c (loadedSlot c k v))
    {s t : State} (hs : ∀ i, J s.cfg (s.table i)) (h : step s = .next t) : ∀ i, J t.cfg (t.table i) := by
  refine step_keeps (I := fun s => ∀ i, J s.cfg (s.table i)) (fun _ _ hs => hs) (fun _ _ _ hs => hs)
    (fun _ s u p hu hs i => ?_) hs h
  rw [effect_cfg hu]
  obtain e | e | e | ⟨bytes, k, v, hk, e⟩ := effect_table hu i <;> rw [e]
  · exact hs i
  · rw [State.resetOf_table]
    split
    · exact hdefault _
    · exact hempty _
  · exact hdefault _
  · exact hloaded _ _ _ _ hk

/-- The guard samples of a valid slot (20_memory R71). -/
def TableSlot.guarded (c : Config) (ts : TableSlot) : Prop :=
  ts.tvalid = true → ∀ w < ts.ntab, ∀ o < Config.numOct, ts.word c.p w o c.p = ts.word c.p w o 0

/-- Settles O18: the built-in set and every accepted file have their guards. -/
theorem guardSamplesKept : Obligations.GuardSamplesKept := fun _ _ hs h =>
  step_keeps_table (J := TableSlot.guarded) (fun _ hv => nomatch hv)
    (fun c _ _ hw _ ho => defaultSlot_guard c hw ho) (fun _ _ _ _ hk _ _ hw _ ho => loadedSlot_guard hk hw ho) hs h

/-- The octave tables of a valid slot are normalised (20_memory R75). -/
def TableSlot.normalised (c : Config) (ts : TableSlot) : Prop :=
  ts.tvalid = true → ∀ w < ts.ntab, ∀ o < Config.numOct, ts.normal c.p w o

/-- Settles O19: the built-in set and every accepted file are normalised. -/
theorem tablesStayNormalised : Obligations.TablesStayNormalised := fun _ _ hs h =>
  step_keeps_table (J := TableSlot.normalised) (fun _ hv => nomatch hv)
    (fun c _ _ hw _ ho => defaultSlot_normal c hw ho) (fun _ _ _ _ hk _ _ hw _ ho => loadedSlot_normal hk hw ho) hs h

/-- Settles O20: whatever image a slot is given is stored in canonical form, and read back word by word. -/
theorem tableMemoryStaysCanonical : Obligations.TableMemoryStaysCanonical :=
  ⟨fun _ _ hs h => step_keeps_table (J := fun _ ts => ts.words.wf = true) (fun _ => TableSlot.empty_wf)
    (fun _ => TableSlot.holding_wf ..) (fun _ _ _ _ _ => TableSlot.holding_wf ..) hs h, TableSlot.holding_read⟩

/-! Table resolution. -/

/-- An i64 names a table slot exactly when it is the slot's number as an unsigned word. -/
theorem toInt_eq_tableNo (id : Word) (t : TableNo) : id.toInt = t.val ↔ id.toNat = t.val := by
  have ht : t.val < 8 := t.isLt
  have hid := id.isLt
  rw [BitVec.toInt_eq_toNat_cond]
  split <;> omega

/-- An id that names a valid slot resolves to it (20_memory R79). -/
theorem resolve_of_valid {tables : Vector TableSlot Config.numTbl} {id : Word} {t : TableNo} (ht : id.toNat = t.val)
    (hv : tables[t].tvalid = true) : resolve tables id = t := by
  have hlt : id.toNat < Config.numTbl := ht ▸ t.isLt
  obtain rfl : (⟨id.toNat, hlt⟩ : TableNo) = t := Fin.ext ht
  exact (dif_pos hlt).trans (if_pos hv)

/-- No command makes slot 0 invalid (10_state R48). -/
theorem effect_slot0_valid {i : Instr} {s u : State} {p : List Word} (h : effect i s = .ok (u, p))
    (hs : (s.table 0).tvalid = true) : (u.table 0).tvalid = true := by
  obtain e | e | e | ⟨bytes, k, v, -, e⟩ := effect_table h 0 <;> rw [e]
  · exact hs
  · rfl
  · rfl
  · rfl

/-- Settles O59: an id is the number of a valid slot, or resolves to slot 0, which every step keeps valid. -/
theorem resolveNamesValidSlot : Obligations.ResolveNamesValidSlot := by
  refine ⟨fun s id h0 => ⟨?_, fun t ht hv => resolve_of_valid ((toInt_eq_tableNo id t).1 ht) hv, fun hnone => ?_⟩, rfl,
    fun s t hs h => step_keeps (I := fun s => (s.table 0).tvalid = true) (fun _ _ hs => hs) (fun _ _ _ hs => hs)
      (fun _ _ _ _ hu hs => effect_slot0_valid hu hs) hs h⟩
  · obtain ⟨-, hv⟩ | h := resolve_spec s.tables id
    · exact hv
    · rw [h]
      exact h0
  · obtain ⟨hid, hv⟩ | h := resolve_spec s.tables id
    · have hinvalid := hnone _ ((toInt_eq_tableNo id _).2 hid.symm)
      exact absurd (hv.symm.trans hinvalid) (by decide)
    · exact h

end Sys2Proof.Machine
end

section
/-! PROOFS. O1, O2, O3: the decoder and the encoder (30_encoding R111 to R115, R124): a command word is its opcode, the
fields its command uses, and zeros, so that the two are inverse to one another. -/

namespace Sys2Proof.Machine

/-! The operand words a command takes. -/

theorem exactly0_eq_some {i i' : Instr} {ops : List Word} : exactly0 i ops = some i' ↔ ops = [] ∧ i = i' := by
  cases ops <;> simp [exactly0]

theorem exactly1_eq_some {f : Word → Instr} {i : Instr} {ops : List Word} :
    exactly1 f ops = some i ↔ ∃ a, ops = [a] ∧ f a = i := by
  unfold exactly1
  split <;> simp_all

theorem exactly2_eq_some {f : Word → Word → Instr} {i : Instr} {ops : List Word} :
    exactly2 f ops = some i ↔ ∃ a b, ops = [a, b] ∧ f a b = i := by
  unfold exactly2
  split <;> simp_all

theorem exactly4_eq_some {f : Word → Word → Word → Word → Instr} {i : Instr} {ops : List Word} :
    exactly4 f ops = some i ↔ ∃ a b c d, ops = [a, b, c, d] ∧ f a b c d = i := by
  unfold exactly4
  split <;> simp_all

theorem exactlyBytes_eq_some {f : Word → List Word → Instr} {i : Instr} {ops : List Word} :
    exactlyBytes f ops = some i ↔ ∃ len data, ops = len :: data ∧ data.length = loadWords len ∧ f len data = i := by
  cases ops <;> simp [exactlyBytes]

/-! The decoder's three checks. -/

/-- A frame decodes to a command exactly when its OP is assigned, the operand words are as many as the OP takes, and the
reserved bits are zero (30_encoding R124). -/
theorem decodeFrame_eq_ok {fr : Frame} {i : Instr} : decodeFrame fr = .ok i ↔
    ∃ op, opcodeOf (opField fr.word) = some op ∧ assemble op fr.word fr.operands = some i ∧
      fr.word &&& zeroMask op = 0 := by
  unfold decodeFrame
  split
  · simp_all
  · split
    · simp_all
    · split <;> simp_all

/-- The command word of every command has the command's opcode, and zeros in the fields it does not use. -/
theorem word_fields (i : Instr) : Laws.WordFields.Statement i := by
  cases i with
  | nop => exact Laws.WordFields.nop
  | reset => exact Laws.WordFields.reset
  | wrparam sl j fld tag v => exact Laws.WordFields.wrparam sl j fld tag v
  | rdparam sl j fld => exact Laws.WordFields.rdparam sl j fld
  | rdcfg fld => exact Laws.WordFields.rdcfg fld
  | rdstatus => exact Laws.WordFields.rdstatus
  | rdstate sl j lane => exact Laws.WordFields.rdstate sl j lane
  | rdout sl j => exact Laws.WordFields.rdout sl j
  | tblbuild t => exact Laws.WordFields.tblbuild t
  | tblload t len data => exact Laws.WordFields.tblload t len data
  | tblrd t addr => exact Laws.WordFields.tblrd t addr
  | tblinfo t => exact Laws.WordFields.tblinfo t
  | phrst sl j => exact Laws.WordFields.phrst sl j
  | oscstep sl j f dt => exact Laws.WordFields.oscstep sl j f dt
  | trigger sl => exact Laws.WordFields.trigger sl
  | voicestep sl f0 f1 f2 dt => exact Laws.WordFields.voicestep sl f0 f1 f2 dt
  | preview sl j n f => exact Laws.WordFields.preview sl j n f

/-- The fields and operands of a command, taken from its encoding, make the command again. -/
theorem assemble_encode {i : Instr}
    (hlen : ∀ t len data, i = .tblload t len data → data.length = loadWords len) :
    assemble i.op i.word i.operands = some i := by
  cases i with
  | tblload t len data =>
    simp [Instr.op, Instr.word, assemble, Instr.operands, exactlyBytes, immField_packWord, hlen t len data rfl]
  | _ =>
    simp only [Instr.op, Instr.word, assemble, Instr.operands, exactly0, exactly1, exactly2, exactly4,
      slotField_packWord, oscField_packWord, fieldField_packWord, tagField_packWord, immField_packWord]

/-- Settles O2: the encoding of a command passes the decoder's three checks. -/
theorem encodeThenDecode : Obligations.EncodeThenDecode := fun i hlen =>
  decodeFrame_eq_ok.2 ⟨i.op, (word_fields i).1, assemble_encode hlen, (word_fields i).2⟩

/-- A mask of ones leaves a field as it is, at the width of each field. -/
theorem field_and_ones :
    (∀ sl : BitVec 5, sl &&& 31 = sl) ∧ (∀ j : BitVec 2, j &&& 3 = j) ∧ (∀ fld : BitVec 4, fld &&& 15 = fld) ∧
      (∀ tag : BitVec 3, tag &&& 7 = tag) ∧ ∀ imm : BitVec 12, imm &&& 4095 = imm :=
  ⟨fun _ => BitVec.and_allOnes, fun _ => BitVec.and_allOnes, fun _ => BitVec.and_allOnes,
    fun _ => BitVec.and_allOnes, fun _ => BitVec.and_allOnes⟩

/-- A word whose reserved bits are zero is its opcode and the fields the opcode uses (30_encoding R113, R114). -/
theorem word_of_reserved_zero {op : Op} {cw : CmdWord} (hop : opField cw = op.code) (hzero : cw &&& zeroMask op = 0) :
    cw = match op with
      | .nop | .reset | .rdstatus => packWord op.code 0 0 0 0 0
      | .wrparam => packWord op.code (slotField cw) (oscField cw) (fieldField cw) (tagField cw) 0
      | .rdparam | .rdstate => packWord op.code (slotField cw) (oscField cw) (fieldField cw) 0 0
      | .rdcfg => packWord op.code 0 0 (fieldField cw) 0 0
      | .rdout | .phrst | .oscstep => packWord op.code (slotField cw) (oscField cw) 0 0 0
      | .tblbuild | .tblload | .tblrd | .tblinfo => packWord op.code 0 0 0 0 (immField cw)
      | .trigger | .voicestep => packWord op.code (slotField cw) 0 0 0 0
      | .preview => packWord op.code (slotField cw) (oscField cw) 0 0 (immField cw) := by
  have hw := packWord_fields cw
  rw [Laws.WordFields.zeroMask_eq] at hzero
  cases op
  all_goals
    obtain ⟨hsl, hj, hfld, htag, himm⟩ := fields_of_and_packWord hzero
    simp only [field_and_ones] at hsl hj hfld htag himm
    simp only [hop, hsl, hj, hfld, htag, himm] at hw ⊢
    exact hw.symm

/-- A command assembled from a word whose reserved bits are zero has that word, and the operand words it was given. -/
theorem encode_of_assemble {op : Op} {cw : CmdWord} {ops : List Word} {i : Instr} (hop : opField cw = op.code)
    (hzero : cw &&& zeroMask op = 0) (h : assemble op cw ops = some i) : encode i = ⟨cw, ops⟩ := by
  have hw := (word_of_reserved_zero hop hzero).symm
  cases op with
  | tblload =>
    obtain ⟨len, data, rfl, -, rfl⟩ := exactlyBytes_eq_some.1 h
    exact congrArg (Frame.mk · _) hw
  | wrparam | tblrd | preview =>
    obtain ⟨a, rfl, rfl⟩ := exactly1_eq_some.1 h
    exact congrArg (Frame.mk · _) hw
  | oscstep =>
    obtain ⟨f, dt, rfl, rfl⟩ := exactly2_eq_some.1 h
    exact congrArg (Frame.mk · _) hw
  | voicestep =>
    obtain ⟨f0, f1, f2, dt, rfl, rfl⟩ := exactly4_eq_some.1 h
    exact congrArg (Frame.mk · _) hw
  | _ =>
    obtain ⟨rfl, rfl⟩ := exactly0_eq_some.1 h
    exact congrArg (Frame.mk · _) hw

/-- Settles O3: what the decoder reads from a word is all there is in it. -/
theorem decodeThenEncode : Obligations.DecodeThenEncode := by
  intro fr i h
  obtain ⟨op, hop, hassemble, hzero⟩ := decodeFrame_eq_ok.1 h
  exact encode_of_assemble (opcodeOf_eq_some.1 hop) hzero hassemble

/-- A command is decoded from its command word, however that is written, and its operand words. -/
theorem decodeFrame_of_word {i : Instr} {cw : CmdWord} (hword : i.word = cw)
    (hlen : ∀ t len data, i = .tblload t len data → data.length = loadWords len) :
    decodeFrame ⟨cw, i.operands⟩ = .ok i := hword ▸ encodeThenDecode i hlen

/-- Settles O1: each worked word is evaluated, or where operands are arbitrary is the encoding of its command. -/
theorem workedEncodingsDecode : Obligations.WorkedEncodingsDecode := by
  refine ⟨by decide, by decide, by decide, by decide, by decide, by decide, by decide, by decide, by decide, by decide,
    fun len data hlen => ?_, by decide, fun f0 f1 f2 dt => ?_, fun f => ?_⟩
  · refine decodeFrame_of_word (i := .tblload 1 len data)
      (by decide : packWord Op.tblload.code 0 0 0 0 1 = _) fun t len' data' h => ?_
    cases h
    exact hlen
  · exact decodeFrame_of_word (i := .voicestep 31 f0 f1 f2 dt)
      (by decide : packWord Op.voicestep.code 31 0 0 0 0 = _) fun _ _ _ h => nomatch h
  · exact decodeFrame_of_word (i := .preview 2 1 16 f)
      (by decide : packWord Op.preview.code 2 1 0 0 16 = _) fun _ _ _ h => nomatch h

end Sys2Proof.Machine
end

section
/-! PROOFS. O7, O8: the port in one step once more: the command delivered is the one that runs, and it gets one response,
whose payload is as long as 30_encoding R114 says. -/

namespace Sys2Proof.Machine

/-- What the table's bits decode to is what the frame made of them decodes to. -/
theorem decodeFrame_of_decodeTableWord {nbits w : Nat} {i : Instr} (h : decodeTableWord nbits w = some i) :
    decodeFrame (tableFrame nbits w) = .ok i := by
  unfold decodeTableWord at h
  split at h
  · cases h
    assumption
  · cases h

/-- Settles O7: the frame delivered stands first in the block in progress, and fetching it gives back the port. -/
theorem tableWordRunsNext : Obligations.TableWordRunsNext := by
  intro s nbits w i h
  exact (stepRunsDecodedCommand.2 _ _ _ (Port.fetch_of_current rfl)).1 i (decodeFrame_of_decodeTableWord h)

/-! Responses. -/

@[simp] theorem Port.acquire_replies (p : Port) : p.acquire.replies = p.replies := by
  obtain ⟨-, -, e⟩ | ⟨b, g, -, e⟩ | ⟨b, g, -, e⟩ := p.acquire_cases <;> rw [e]

/-- Fetching a command sends no response. -/
@[simp] theorem Port.fetch_replies (p : Port) : p.fetch.2.replies = p.replies := by
  cases h : p.current with
  | nil => rw [Port.fetch_of_idle h, Port.acquire_replies]
  | cons fr rest => rw [Port.fetch_of_current h]

/-- A preview gives as many samples as were asked for (43 R253). -/
theorem previewFrom_length {c : Config} {tables : Vector TableSlot Config.numTbl} {o : Osc} {f : F64} {n : Nat}
    {q : Vector F64 Config.maxUnison} {ys : List Word} (h : previewFrom c tables o f n q = .ok ys) : ys.length = n := by
  induction n generalizing q ys with
  | zero => cases h; rfl
  | succ n ih =>
    unfold previewFrom at h
    split at h
    · cases h
    split at h
    · cases h
    · cases h
      rename_i hys
      rw [List.length_cons, ih hys]

/-- A command that completes answers with the J payload words of 30_encoding R114. -/
theorem effect_payload_length {i : Instr} {s u : State} {p : List Word} (h : effect i s = .ok (u, p)) :
    p.length = payloadWords i := by
  cases i with
  | nop | reset | rdstatus => cases h; rfl
  | wrparam sl j fld tag v => obtain ⟨_, _, _, -, -, -, -, rfl, -⟩ := wrparamEffect_ok h; rfl
  | rdparam sl j fld => obtain ⟨-, _, _, -, -, rfl⟩ := rdparamEffect_ok h; rfl
  | rdcfg fld => obtain ⟨-, _, _, -, rfl⟩ := rdcfgEffect_ok h; rfl
  | rdstate sl j lane => obtain ⟨-, _, _, -, -, rfl⟩ := rdstateEffect_ok h; rfl
  | rdout sl j => obtain ⟨-, ⟨-, rfl⟩ | ⟨_, -, rfl⟩⟩ := rdoutEffect_ok h <;> rfl
  | tblbuild t => obtain ⟨_, -, -, rfl⟩ := tblbuildEffect_ok h; rfl
  | tblload t len data => obtain ⟨_, _, -, -, -, -, rfl⟩ := tblloadEffect_ok h; rfl
  | tblrd t addr => obtain ⟨-, _, _, -, -, -, rfl⟩ := tblrdEffect_ok h; rfl
  | tblinfo t => obtain ⟨-, _, -, rfl⟩ := tblinfoEffect_ok h; rfl
  | phrst sl j => obtain ⟨_, -, rfl, -⟩ := phrstEffect_ok h; rfl
  | oscstep sl j f dt => obtain ⟨_, _, -, -, -, -, -, rfl, -⟩ := oscstepEffect_ok h; rfl
  | trigger sl => obtain ⟨-, rfl⟩ := triggerEffect_ok h; rfl
  | voicestep sl f0 f1 f2 dt => obtain ⟨_, _, _, _, -, -, -, -, rfl, -⟩ := voicestepEffect_ok h; rfl
  | preview sl j n f => obtain ⟨-, _, -, -, hp⟩ := previewEffect_ok h; exact previewFrom_length hp

/-- The header of a fault is its code, 1 to 7 (30_encoding R120; 60_exceptions R300). -/
theorem faultHeader_range (c : FaultCode) : 1 ≤ (faultHeader c).toNat ∧ (faultHeader c).toNat ≤ 7 := by
  cases c <;> decide

/-- A response of the shape that 60_exceptions R316 gives the outcome of a frame: header 0x00 with the J payload words of
the command, or a fault code or 0xFF with none. -/
def properResponse (fr : Frame) (header : Word) (payload : List Word) : Prop :=
  (header = 0 ∧ ∃ i, decodeFrame fr = .ok i ∧ payload.length = payloadWords i) ∨
    ((1 ≤ header.toNat ∧ header.toNat ≤ 7 ∨ header = 0xFF) ∧ payload = [])

theorem properResponse_fault (fr : Frame) (c : FaultCode) : properResponse fr (faultHeader c) [] :=
  .inr ⟨.inl (faultHeader_range c), rfl⟩

theorem properResponse_ignored (fr : Frame) : properResponse fr ignoredHeader [] := .inr ⟨.inr rfl, rfl⟩

/-- A frame that gives no command gets one response, a fault code or 0xFF (60_exceptions R305). -/
theorem rejectFrame_response (fr : Frame) (s : State) (c : FaultCode) (cw : CmdWord) :
    ∃ header payload, properResponse fr header payload ∧
      (s.rejectFrame c cw).port = { s.port with replies := s.port.replies ++ [⟨s.port.holder, header, payload⟩] } := by
  unfold State.rejectFrame
  split
  · exact ⟨_, _, properResponse_ignored fr, rfl⟩
  · exact ⟨_, _, properResponse_fault fr c, rfl⟩

/-- A command gets one response, to the agent that holds the lock. -/
theorem exec_response {fr : Frame} {i : Instr} {s t : State} (hd : decodeFrame fr = .ok i) (h : exec i s = .next t) :
    ∃ header payload, properResponse fr header payload ∧
      t.port = { s.port with replies := s.port.replies ++ [⟨s.port.holder, header, payload⟩] } := by
  obtain ⟨-, -, rfl⟩ | ⟨u, p, hu, rfl⟩ | ⟨c, -, -, rfl⟩ := exec_next h
  · exact ⟨_, _, properResponse_ignored fr, rfl⟩
  · rw [← effect_port hu]
    exact ⟨okHeader, p, .inl ⟨rfl, i, hd, effect_payload_length hu⟩, rfl⟩
  · exact ⟨_, _, properResponse_fault fr c, rfl⟩

/-- Settles O8: a frame that was fetched is rejected or run, and either sends one response. -/
theorem oneResponsePerCommand : Obligations.OneResponsePerCommand := by
  intro s t fr port hf h
  have hreplies : port.replies = s.port.replies := by rw [← Port.fetch_replies s.port, hf]
  have hresponse : ∃ header payload, properResponse fr header payload ∧
      t.port = { port with replies := port.replies ++ [⟨port.holder, header, payload⟩] } := by
    cases hd : decodeFrame fr with
    | ok i =>
      rw [(stepRunsDecodedCommand.2 s fr port hf).1 i hd] at h
      exact exec_response hd h
    | error c =>
      simp only [step, hf, hd, Host.Outcome.next.injEq] at h
      exact h ▸ rejectFrame_response fr _ c fr.word
  obtain ⟨header, payload, hproper, hport⟩ := hresponse
  rw [hreplies] at hport
  exact ⟨header, payload, hport, hproper⟩

end Sys2Proof.Machine
end

section
/-! PROOFS. O29, O39, O45: where WRPARAM, TBLRD and the range checks fault, in the order of 60_exceptions R305. -/

namespace Sys2Proof.Machine

/-- A running block completes a command whose effect is a state and a payload. -/
theorem exec_of_effect_ok {i : Instr} {s u : State} {p : List Word} (hs : s.status.halted = false)
    (h : effect i s = .ok (u, p)) : exec i s = .next (u.reply 0 p) := by
  rw [exec_of_running hs, h]
  rfl

/-- A running block takes the fault that the effect of a command raises. -/
theorem exec_of_effect_raise {i : Instr} {s : State} {c : FaultCode} (hs : s.status.halted = false)
    (h : effect i s = .error (.raise c)) : exec i s = .next (s.takeFault c i.word) := by
  rw [exec_of_running hs, h]
  rfl

/-! WRPARAM. -/

/-- The number of an oscillator, as OSC, names it. -/
theorem oscAt_ofNat (sl : BitVec 5) (j : OscNo) : oscAt sl (BitVec.ofNat 2 j) = .ok (slotNo sl, j) := by
  rw [oscAt_eq]
  have h : ∀ j : OscNo, oscIndex (BitVec.ofNat 2 j) = .ok j := by decide
  rw [h]

/-- FIELD 0 to 5 names a parameter register, of the kind that 10_state R38 gives it. -/
theorem paramIndex_kind {fld : BitVec 4} (h : fld.toNat ≤ 5) :
    ∃ f, paramIndex fld = .ok f ∧
      kindTag (kindOf f) = if fld = 1 then 0 else if fld = 4 then 2 else if fld = 5 then 3 else 1 := by
  obtain rfl | rfl | rfl | rfl | rfl | rfl :
      fld = 0 ∨ fld = 1 ∨ fld = 2 ∨ fld = 3 ∨ fld = 4 ∨ fld = 5 := by
    revert fld; decide
  · exact ⟨.level, rfl, rfl⟩
  · exact ⟨.numVoices, rfl, rfl⟩
  · exact ⟨.voiceSpread, rfl, rfl⟩
  · exact ⟨.waveIndex, rfl, rfl⟩
  · exact ⟨.sync, rfl, rfl⟩
  · exact ⟨.wavetable, rfl, rfl⟩

/-- An infinity or NaN for a Float field faults 0x05 (40 R142). -/
theorem paramValue_of_not_finite (c : Config) {f : Param} {v : Word} (hf : kindTag (kindOf f) = 1)
    (hv : F64.isFinite v = false) : paramValue c f v = .error (.raise .numeric) := by
  cases f with
  | level | voiceSpread | waveIndex => simp [paramValue, hv]
  | numVoices | sync | wavetable => exact absurd hf (by decide)

/-- The tag is compared with the kind of the field before the value is looked at (60_exceptions R305). -/
theorem wrparamEffect_of_wrong_tag {sl : BitVec 5} {j : BitVec 2} {k : SlotNo × OscNo} {fld : BitVec 4} {f : Param}
    {tag : BitVec 3} (v : Word) (s : State) (hj : oscAt sl j = .ok k) (hf : paramIndex fld = .ok f)
    (htag : tag ≠ kindTag (kindOf f)) : wrparamEffect sl j fld tag v s = .error (.raise .tagMismatch) := by
  simp only [wrparamEffect, hj, hf, if_neg htag]

/-- With the tag of the field's kind, a value that may not be stored faults as it does. -/
theorem wrparamEffect_of_bad_value {sl : BitVec 5} {j : BitVec 2} {k : SlotNo × OscNo} {fld : BitVec 4} {f : Param}
    {tag : BitVec 3} {v : Word} {s : State} {e : Stop} (hj : oscAt sl j = .ok k) (hf : paramIndex fld = .ok f)
    (htag : tag = kindTag (kindOf f)) (hv : paramValue s.cfg f v = .error e) :
    wrparamEffect sl j fld tag v s = .error e := by
  simp only [wrparamEffect, hj, hf, if_pos htag, hv]

/-- Settles O29: the two faults of an oscillator and a field that are named rightly. -/
theorem wrparamFaults : Obligations.WrparamFaults := by
  intro s sl j fld tag v hs kind i hfld
  obtain ⟨f, hf, hkind⟩ := paramIndex_kind hfld
  have hj := oscAt_ofNat sl j
  refine ⟨fun htag => exec_of_effect_raise hs ?_, fun htag hfloat hv => exec_of_effect_raise hs ?_⟩
  · exact wrparamEffect_of_wrong_tag v s hj hf (hkind ▸ htag)
  · exact wrparamEffect_of_bad_value hj hf (htag.trans hkind.symm)
      (paramValue_of_not_finite s.cfg (hkind.trans hfloat) hv)

/-! TBLRD. -/

/-- The number of a table slot, as IMM, names it. -/
theorem tableIndex_ofNat (t : TableNo) : tableIndex (BitVec.ofNat 12 t) = .ok t := by
  revert t; decide

/-- The parts of a packed address (30_encoding R119). -/
theorem addr_parts (r : BitVec 36) (w : BitVec 8) (o : BitVec 4) (n : BitVec 16) :
    addrReserved (r ++ w ++ o ++ n) = r ∧ addrWave (r ++ w ++ o ++ n) = w.toNat ∧
      addrOctave (r ++ w ++ o ++ n) = o.toNat ∧ addrSample (r ++ w ++ o ++ n) = n.toNat := by
  refine ⟨?_, congrArg BitVec.toNat ?_, congrArg BitVec.toNat ?_, congrArg BitVec.toNat ?_⟩
  · rw [addrReserved, BitVec.extractLsb'_append_eq_of_le (by decide), BitVec.extractLsb'_append_eq_of_le (by decide)]
    exact BitVec.extractLsb'_append_eq_left
  · rw [BitVec.extractLsb'_append_eq_of_le (by decide), BitVec.extractLsb'_append_eq_of_le (by decide)]
    exact BitVec.extractLsb'_append_eq_right
  · rw [BitVec.extractLsb'_append_eq_of_le (by decide)]
    exact BitVec.extractLsb'_append_eq_right
  · exact BitVec.extractLsb'_append_eq_right

/-- The word (w, o, n) is one of the slot's: the slot is valid and the address inside it (20_memory R71, R72). -/
def TableSlot.holds (ts : TableSlot) (p w o n : Nat) : Prop :=
  ts.tvalid = true ∧ w < ts.ntab ∧ o < Config.numOct ∧ n ≤ p

/-- The check of TBLRD passes exactly where the slot holds the word. -/
theorem TableSlot.holds_iff {ts : TableSlot} {p w o n : Nat} : ts.holds p w o n ↔
    (!ts.tvalid || decide (ts.ntab ≤ w) || decide (Config.numOct ≤ o) || decide (p < n)) = false := by
  simp [TableSlot.holds, and_assoc]

section Tblrd

variable {t : BitVec 12} {t' : TableNo} {addr : Word} {s : State} (ht : tableIndex t = .ok t')

include ht

/-- The reserved bits of the address are looked at before the rest of it (60_exceptions R305). -/
theorem tblrdEffect_of_reserved (hr : addrReserved addr ≠ 0) :
    tblrdEffect t addr s = .error (.raise .reservedBits) := by
  simp only [tblrdEffect, ht, if_pos hr]

/-- An address inside the slot names the word that is read (41 R178). -/
theorem tblrdEffect_of_holds (hr : addrReserved addr = 0)
    (h : (s.table t').holds s.cfg.p (addrWave addr) (addrOctave addr) (addrSample addr)) :
    tblrdEffect t addr s =
      .ok (s, [(s.table t').word s.cfg.p (addrWave addr) (addrOctave addr) (addrSample addr)]) := by
  have hpass := ne_true_of_eq_false (TableSlot.holds_iff.1 h)
  obtain ⟨hv, hw, ho, hn⟩ := h
  have hread := tableRead_of_inside hv hw ho hn
  simp only [tblrdEffect, ht, hr, ne_eq, not_true_eq_false, if_false]
  rw [if_neg hpass, hread]
  rfl

/-- An address outside the slot faults 0x03, and so does every address in an empty slot (41 R178). -/
theorem tblrdEffect_of_not_holds (hr : addrReserved addr = 0)
    (h : ¬ (s.table t').holds s.cfg.p (addrWave addr) (addrOctave addr) (addrSample addr)) :
    tblrdEffect t addr s = .error (.raise .badIndex) := by
  simp only [tblrdEffect, ht, hr, ne_eq, not_true_eq_false, if_false]
  exact if_pos (Bool.eq_true_of_not_eq_false (mt TableSlot.holds_iff.2 h))

end Tblrd

/-- Settles O39: the address is taken apart, and is reserved, inside the slot or outside it. -/
theorem tblrdReadsOrFaults : Obligations.TblrdReadsOrFaults := by
  intro s t r w o n hs i inside
  obtain ⟨hr, hw, ho, hn⟩ := addr_parts r w o n
  have ht := tableIndex_ofNat t
  have hholds : (s.table t).holds s.cfg.p (addrWave (r ++ w ++ o ++ n)) (addrOctave (r ++ w ++ o ++ n))
      (addrSample (r ++ w ++ o ++ n)) ↔ inside := by
    rw [hw, ho, hn]
    exact Iff.rfl
  refine ⟨fun h0 hin => ?_, fun h0 => ?_, fun h0 hout => ?_⟩
  · rw [← hw, ← ho, ← hn]
    exact exec_of_effect_ok hs (tblrdEffect_of_holds ht (hr.trans h0) (hholds.2 hin))
  · exact exec_of_effect_raise hs (tblrdEffect_of_reserved ht (ne_of_eq_of_ne hr h0))
  · exact exec_of_effect_raise hs (tblrdEffect_of_not_holds ht (hr.trans h0) (mt hholds.1 hout))

/-! Ranges. -/

/-- SLOT is always in range (30_encoding R112). -/
theorem slotInRange_eq (sl : BitVec 5) : slotInRange sl = true := decide_eq_true sl.isLt

/-- An OSC out of range names no oscillator. -/
theorem oscAt_of_not_inRange {sl : BitVec 5} {j : BitVec 2} (h : (slotInRange sl && oscInRange j) = false) :
    oscAt sl j = .error (.raise .badIndex) := by
  rw [slotInRange_eq, Bool.true_and] at h
  exact oscAt_of_ge sl (not_lt.1 (of_decide_eq_false h))

/-- Of OSC and another operand out of range, OSC names no oscillator, or it does and it is the other operand. -/
theorem oscAt_or_of_not_inRange {sl : BitVec 5} {j : BitVec 2} {other : Bool}
    (h : (slotInRange sl && oscInRange j && other) = false) :
    oscAt sl j = .error (.raise .badIndex) ∨ (∃ k, oscAt sl j = .ok k) ∧ other = false := by
  cases hj : slotInRange sl && oscInRange j with
  | false => exact .inl (oscAt_of_not_inRange hj)
  | true =>
    rw [slotInRange_eq, Bool.true_and] at hj
    rw [slotInRange_eq, Bool.true_and, hj, Bool.true_and] at h
    exact .inr ⟨⟨_, oscAt_of_lt sl (of_decide_eq_true hj)⟩, h⟩

/-- FIELD 15 names no configuration register (30_encoding R114). -/
theorem cfgEntry_of_ge (c : Config) {fld : BitVec 4} (h : 15 ≤ fld.toNat) :
    cfgEntry c fld = .error (.raise .badIndex) := by
  obtain rfl : fld = 15 := by revert fld; decide
  rfl

/-- Slot 0 may not be loaded, and no slot beyond the last (30_encoding R114). -/
theorem loadIndex_of_not_inRange {t : BitVec 12} (h : t.toNat = 0 ∨ 8 ≤ t.toNat) :
    loadIndex t = .error (.raise .badIndex) := by
  obtain h | h := h
  · exact if_pos (BitVec.eq_of_toNat_eq h)
  · rw [loadIndex, tableIndex_of_ge h, ite_self]

/-- An index out of range faults 0x03 before any operand is looked at (30_encoding R112; 60_exceptions R305). -/
theorem effect_of_illFormed {i : Instr} (hi : i.op ≠ .tblload) (h : i.wellFormed = false) (s : State) :
    effect i s = .error (.raise .badIndex) := by
  cases i with
  | nop | reset | rdstatus => cases h
  | tblload t len data => exact absurd rfl hi
  | trigger sl | voicestep sl f0 f1 f2 dt => cases (slotInRange_eq sl).symm.trans h
  | wrparam sl j fld tag v =>
    obtain hj | ⟨⟨k, hk⟩, hfld⟩ := oscAt_or_of_not_inRange h
    · simp only [effect, wrparamEffect, hj]
    · simp only [effect, wrparamEffect, hk, paramIndex_of_ge (not_le.1 (of_decide_eq_false hfld))]
  | rdparam sl j fld =>
    obtain hj | ⟨⟨k, hk⟩, hfld⟩ := oscAt_or_of_not_inRange h
    · simp only [effect, rdparamEffect, hj]
    · simp only [effect, rdparamEffect, hk, paramIndex_of_ge (not_le.1 (of_decide_eq_false hfld))]
  | rdstate sl j lane =>
    obtain hj | ⟨⟨k, hk⟩, hlane⟩ := oscAt_or_of_not_inRange h
    · simp only [effect, rdstateEffect, hj]
    · simp only [effect, rdstateEffect, hk, laneIndex_of_ge (not_lt.1 (of_decide_eq_false hlane))]
  | preview sl j n f =>
    obtain hj | ⟨-, hn⟩ := oscAt_or_of_not_inRange h
    · simp only [effect, previewEffect, hj]
    · exact absurd (Nat.le_of_lt_succ n.isLt) (of_decide_eq_false hn)
  | rdcfg fld => simp only [effect, rdcfgEffect, cfgEntry_of_ge s.cfg (not_le.1 (of_decide_eq_false h))]
  | rdout sl j =>
    simp only [Instr.wellFormed, slotInRange_eq, Bool.true_and, Bool.or_eq_false_iff, beq_eq_false_iff_ne] at h
    obtain ⟨h3, hj⟩ := h
    simp only [effect, rdoutEffect, if_neg h3, oscAt_of_ge sl (not_lt.1 (of_decide_eq_false hj))]
  | tblbuild t => simp only [effect, tblbuildEffect, tableIndex_of_ge (not_lt.1 (of_decide_eq_false h))]
  | tblrd t addr => simp only [effect, tblrdEffect, tableIndex_of_ge (not_lt.1 (of_decide_eq_false h))]
  | tblinfo t => simp only [effect, tblinfoEffect, tableIndex_of_ge (not_lt.1 (of_decide_eq_false h))]
  | phrst sl j => simp only [effect, phrstEffect, oscAt_of_not_inRange h]
  | oscstep sl j f dt => simp only [effect, oscstepEffect, oscAt_of_not_inRange h]

/-- A TBLLOAD with the wrong number of words faults 0x07 before its slot number is looked at (60_exceptions R305). -/
theorem tblloadEffect_of_wrong_length (t : BitVec 12) {len : Word} {data : List Word} (s : State)
    (h : data.length ≠ loadWords len) : tblloadEffect t len data s = .error (.raise .frameLength) := if_pos h

/-- A TBLLOAD of the right length faults 0x03 when its slot may not be loaded. -/
theorem tblloadEffect_of_bad_slot {t : BitVec 12} {len : Word} {data : List Word} (s : State)
    (hlen : data.length = loadWords len) (h : (Instr.tblload t len data).wellFormed = false) :
    tblloadEffect t len data s = .error (.raise .badIndex) := by
  have ht : t.toNat = 0 ∨ 8 ≤ t.toNat := by
    have hdata : data.length = (len.toNat + 7) / 8 := hlen
    simp only [Instr.wellFormed, hdata, decide_true, Bool.and_true, Bool.and_eq_false_iff, decide_eq_false_iff_not,
      Config.numTbl] at h
    omega
  simp only [tblloadEffect, hlen, ne_eq, not_true_eq_false, if_false, loadIndex_of_not_inRange ht]

/-- Settles O45: TBLLOAD by its length, then its slot; every other command by the index that is out of range. -/
theorem outOfRangeIndexFaults : Obligations.OutOfRangeIndexFaults := by
  intro i s hs h
  cases i with
  | tblload t len data =>
    dsimp only
    by_cases hlen : data.length = (len.toNat + 7) / 8
    · rw [if_pos hlen]
      exact exec_of_effect_raise hs (tblloadEffect_of_bad_slot s hlen h)
    · rw [if_neg hlen]
      exact exec_of_effect_raise hs (tblloadEffect_of_wrong_length t s hlen)
  | _ => exact exec_of_effect_raise hs (effect_of_illFormed (by simp [Instr.op]) h s)

end Sys2Proof.Machine
end

section
/-! PROOFS. O26, O27, O28, O30 to O34, O48: the register and parameter commands (40_parameters): the effect of each where
its fields name a register, what is stored or read there, and the frame of WRPARAM. -/

namespace Sys2Proof.Machine

/-! WRPARAM. -/

/-- With the tag of the field's kind and a value that may be stored, WRPARAM writes it to the register named
(40 R142). -/
theorem exec_wrparam {s : State} (hs : s.status.halted = false) (sl : BitVec 5) (j : OscNo) {fld : BitVec 4} {f : Param}
    {v w : Word} (hf : paramIndex fld = .ok f) (hv : paramValue s.cfg f v = .ok w) :
    exec (.wrparam sl (BitVec.ofNat 2 j) fld (kindTag (kindOf f)) v) s =
      .next ((s.setOsc (slotNo sl) j ((s.osc (slotNo sl) j).setParam f w)).reply 0 []) :=
  exec_of_effect_ok hs (by simp only [effect, wrparamEffect, oscAt_ofNat, hf, hv, if_true])

/-- Settles O27: a finite value is stored as ClampF gives it, which is the clamp by value. -/
theorem wrparamClampsFloats : Obligations.WrparamClampsFloats := by
  intro s sl j v hs hv k o
  have clamped : ∀ hi, F64.isFinite hi = true → F64.le F64.zero hi = true →
      clampedTo F64.zero hi v (clampF v F64.zero hi) := fun hi hhi hle =>
    clampF_clampedTo hv F64.isFinite_zero hhi ((F64.le_iff F64.isFinite_zero hhi).1 hle)
  obtain ⟨hspread, hspread0⟩ := spreadMax_legal s.cfg
  exact ⟨⟨_, clamped _ (by decide) (by decide), exec_wrparam hs sl j (f := .level) rfl (if_pos hv)⟩,
    ⟨_, clamped _ hspread hspread0, exec_wrparam hs sl j (f := .voiceSpread) rfl (if_pos hv)⟩,
    ⟨_, clamped _ (by decide) (by decide), exec_wrparam hs sl j (f := .waveIndex) rfl (if_pos hv)⟩⟩

/-- ClampI clamps the value as an i64, where the bounds are ones (40 R144). -/
theorem clampI_toInt (v : Word) {lo hi : Int} (hlo : -2 ^ 63 ≤ lo) (h : lo ≤ hi) (hhi : hi < 2 ^ 63) :
    (clampI v lo hi).toInt = min (max v.toInt lo) hi := by
  rw [clampI, BitVec.toInt_ofInt, Int.bmod_eq_of_le] <;> omega

/-- Settles O28: each integer field by what may be stored in it. -/
theorem wrparamStoresIntegers : Obligations.WrparamStoresIntegers := by
  intro s sl j v hs k o
  refine ⟨⟨_, clampI_toInt v (by decide) (by decide) (by decide), exec_wrparam hs sl j (f := .numVoices) rfl rfl⟩,
    fun hv => exec_wrparam hs sl j (f := .sync) rfl (if_pos hv), fun h0 h1 => exec_of_effect_raise hs ?_,
    exec_wrparam hs sl j (f := .wavetable) rfl rfl⟩
  exact wrparamEffect_of_bad_value (oscAt_ofNat sl j) (f := .sync) rfl rfl (if_neg (not_or.2 ⟨h0, h1⟩))

/-! The frame of a command that writes oscillators only. -/

/-- The oscillators after a command: as they were, or as its effect leaves them. -/
theorem exec_osc {i : Instr} {s t : State} (h : exec i s = .next t) :
    (∀ k m, t.osc k m = s.osc k m) ∨ ∃ u p, effect i s = .ok (u, p) ∧ ∀ k m, t.osc k m = u.osc k m := by
  obtain ⟨-, -, rfl⟩ | ⟨u, p, hu, rfl⟩ | ⟨c, -, -, rfl⟩ := exec_next h
  · exact .inl fun _ _ => rfl
  · exact .inr ⟨u, p, hu, fun _ _ => rfl⟩
  · exact .inl fun _ _ => rfl

/-- A slot of table memory that is not written is kept. -/
theorem State.tableKept_of_tables {s t : State} (h : t.tables = s.tables) (k : TableNo) : s.tableKept t k := by
  have hk : t.table k = s.table k := congrArg (fun ts => ts[k]) h
  rw [State.tableKept, hk]
  exact ⟨rfl, rfl, fun _ => rfl⟩

/-- A command whose effect leaves STATUS, table memory and the mixes leaves them and CFG, but for the record of a fault
(60_exceptions R301, R306). -/
theorem exec_keeps_rest {i : Instr} {s t : State} (h : exec i s = .next t)
    (heffect : ∀ u p, effect i s = .ok (u, p) →
      u.status = s.status ∧ u.tables = s.tables ∧ ∀ k, u.mix k = s.mix k) :
    t.cfg = s.cfg ∧ s.statusKept t i.word ∧ (∀ k, s.tableKept t k) ∧ ∀ k, t.mix k = s.mix k := by
  obtain ⟨-, -, rfl⟩ | ⟨u, p, hu, rfl⟩ | ⟨c, -, -, rfl⟩ := exec_next h
  · exact ⟨rfl, .inl rfl, State.tableKept_of_tables rfl, fun _ => rfl⟩
  · obtain ⟨hstatus, htables, hmix⟩ := heffect u p hu
    exact ⟨(State.reply_cfg ..).trans (effect_cfg hu), .inl hstatus, State.tableKept_of_tables htables, hmix⟩
  · exact ⟨rfl, .inr ⟨c, rfl⟩, State.tableKept_of_tables rfl, fun _ => rfl⟩

/-- OSC names the oscillator of its number (30_encoding R114). -/
theorem oscIndex_val {j : BitVec 2} {j' : OscNo} (h : oscIndex j = .ok j') : j'.val = j.toNat := by
  unfold oscIndex at h
  split at h
  · cases h
    rfl
  · cases h

/-- Settles O48: WRPARAM writes one parameter of one oscillator, or nothing. -/
theorem wrparamFrame : Obligations.WrparamFrame := by
  intro s t sl j fld tag v h
  obtain ⟨hcfg, hstatus, htables, hmix⟩ := exec_keeps_rest h fun u p hu => by
    obtain ⟨_, _, _, -, -, -, -, -, rfl⟩ := wrparamEffect_ok hu
    exact ⟨rfl, rfl, fun _ => State.setOsc_mix ..⟩
  refine ⟨hcfg, hstatus, htables, hmix, fun k i => ?_⟩
  obtain hosc | ⟨u, p, hu, hosc⟩ := exec_osc h <;> rw [hosc]
  · exact ⟨rfl, rfl, rfl, fun _ _ => rfl⟩
  · obtain ⟨j', f, w, hj, hf, -, -, -, rfl⟩ := wrparamEffect_ok hu
    by_cases hnamed : k = slotNo sl ∧ i = j'
    · obtain ⟨rfl, rfl⟩ := hnamed
      rw [State.osc_setOsc_self]
      refine ⟨Osc.setParam_pos .., Osc.setParam_cc .., Osc.setParam_out .., fun g hg => ?_⟩
      rw [Osc.param_setParam, if_neg]
      rintro rfl
      exact hg ⟨rfl, oscIndex_val hj, hf⟩
    · rw [State.osc_setOsc_of_ne _ _ hnamed]
      exact ⟨rfl, rfl, rfl, fun _ _ => rfl⟩

/-! The commands that read. -/

/-- The fields of STATUS stand where 10_state R45 places them. -/
theorem Status.word_fields (st : Status) :
    st.word.extractLsb' 0 8 = st.fault ∧ st.word.getLsbD 8 = st.halted ∧ st.word.extractLsb' 9 3 = 0 ∧
    st.word.extractLsb' 12 4 = st.loadstat ∧ st.word.extractLsb' 16 12 = st.loadslot ∧
    st.word.extractLsb' 28 4 = 0 ∧ st.word.extractLsb' 32 32 = st.faultcmd := by
  unfold Status.word
  refine ⟨?_, ?_, ?_, ?_, ?_, ?_, ?_⟩
  case refine_2 =>
    rw [BitVec.getLsbD_append, if_neg (by decide), BitVec.getLsbD_append, if_pos (by decide)]
    exact BitVec.getLsbD_ofBool ..
  case refine_7 =>
    iterate 5 rw [BitVec.extractLsb'_append_eq_of_le (by decide)]
    exact BitVec.extractLsb'_append_eq_left
  -- Any other field is the last one, once the fields below it are dropped.
  all_goals
    repeat rw [BitVec.extractLsb'_append_eq_of_le (by decide)]
    exact BitVec.extractLsb'_append_eq_right

/-- Settles O32: RDSTATUS answers the word of STATUS, halted or not. -/
theorem rdstatusReadsFields : Obligations.RdstatusReadsFields := fun s => ⟨s.status.word, rfl, s.status.word_fields⟩

/-- Settles O26: NOP has no effect to complete, and is ignored while halted. -/
theorem nopCompletes : Obligations.NopCompletes := by
  intro s
  cases hs : s.status.halted with
  | false => exact exec_of_effect_ok hs rfl
  | true => exact exec_of_halted hs rfl

/-- RDPARAM of a field answers the tag of its kind and its value (40 R143). -/
theorem exec_rdparam {s : State} (hs : s.status.halted = false) (sl : BitVec 5) (j : OscNo) {fld : BitVec 4} {f : Param}
    (hf : paramIndex fld = .ok f) : exec (.rdparam sl (BitVec.ofNat 2 j) fld) s =
      .next (s.reply 0 [tagWord (kindOf f), (s.osc (slotNo sl) j).param f]) :=
  exec_of_effect_ok hs (by simp only [effect, rdparamEffect, oscAt_ofNat, hf])

/-- Settles O30: the six fields, each with its kind. -/
theorem rdparamReadsRegister : Obligations.RdparamReadsRegister := fun _ sl j hs =>
  ⟨exec_rdparam hs sl j (f := .level) rfl, exec_rdparam hs sl j (f := .numVoices) rfl,
    exec_rdparam hs sl j (f := .voiceSpread) rfl, exec_rdparam hs sl j (f := .waveIndex) rfl,
    exec_rdparam hs sl j (f := .sync) rfl, exec_rdparam hs sl j (f := .wavetable) rfl⟩

/-- Settles O31: the fifteen registers, and the one field that names none. -/
theorem rdcfgReadsConstants : Obligations.RdcfgReadsConstants := by
  intro s hs
  and_intros
  on_goal 16 => exact exec_of_effect_raise hs rfl
  all_goals exact exec_of_effect_ok hs rfl

/-- The number of a lane, as FIELD, names it. -/
theorem laneIndex_ofNat (i : LaneNo) : laneIndex (BitVec.ofNat 4 i) = .ok i := by
  revert i; decide

/-- Settles O33: the lane named is one of the seven of the oscillator named. -/
theorem rdstateReadsLane : Obligations.RdstateReadsLane := fun _ sl j i hs =>
  exec_of_effect_ok hs (by simp only [effect, rdstateEffect, oscAt_ofNat, laneIndex_ofNat])

/-- The number of an oscillator is not the OSC that names the mix (30_encoding R111). -/
theorem ofNat_osc_ne_three (j : OscNo) : BitVec.ofNat 2 j ≠ 3 := by
  revert j; decide

/-- Settles O34: OSC names an oscillator, or is 3 and names the mix. -/
theorem rdoutReadsOutputOrMix : Obligations.RdoutReadsOutputOrMix := by
  refine fun s sl hs => ⟨fun j => exec_of_effect_ok hs ?_, exec_of_effect_ok hs ?_⟩
  · simp only [effect, rdoutEffect, if_neg (ofNat_osc_ne_three j), oscAt_ofNat, flagWord]
  · simp only [effect, rdoutEffect, slotIndex_eq, if_true]

end Sys2Proof.Machine
end

section
/-! PROOFS. O35, O36, O37, O40, O52: the table commands (41_wavetable): what TBLBUILD and TBLLOAD write, word by word, what
TBLINFO answers, and the frame of the two that write. -/

namespace Sys2Proof.Machine

/-! What the words of a slot are. -/

/-- Peak normalisation of P samples looks at the samples and the words of 0 to P − 1 only (41 R172). -/
theorem normalizedTo_congr {p : Nat} {raw raw' word word' : Nat → F64} (h : normalizedTo p raw word)
    (hraw : ∀ n < p, raw' n = raw n) (hword : ∀ n < p, word' n = word n) : normalizedTo p raw' word' := by
  obtain ⟨m, hle, ⟨k, hk, hmax⟩, hquot⟩ := h
  refine ⟨m, fun n hn => ?_, ⟨k, hk, ?_⟩, fun n hn => ?_⟩
  · rw [hraw n hn]
    exact hle n hn
  · rw [hraw k hk]
    exact hmax
  · rw [hraw n hn, hword n hn]
    exact hquot n hn

/-- The words of an octave table in a slot are its samples, peak-normalised (41 R172). -/
theorem TableSlot.normalizedTo_of_octaveTable {ts : TableSlot} {p w o : Nat} {a : List F64} (hlen : a.length = p)
    (hp : 0 < p) (hword : ∀ n ≤ p, ts.word p w o n = (octaveTable a).getD n F64.zero)
    (hf : ∀ x ∈ a, F64.isFinite x = true) :
    normalizedTo p (fun n => a.getD n F64.zero) (fun n => ts.word p w o n) := by
  subst hlen
  exact normalizedTo_congr (normalize_normalizedTo hf (List.ne_nil_of_length_pos hp) F64.zero) (fun _ _ => rfl)
    fun n hn => (hword n hn.le).trans (octaveTable_getD hn _)

/-- The words of the built-in set are the raw samples, peak-normalised (41 R172, R180). -/
theorem defaultSlot_normalizedTo (c : Config) {w o : Nat} (hw : w < Config.numDefaultWaves) (ho : o < Config.numOct) :
    normalizedTo c.p (genRaw c.toParams w o) (fun n => (defaultSlot c).word c.p w o n) :=
  normalizedTo_congr
    (TableSlot.normalizedTo_of_octaveTable (rawTable_length ..) (by have := two_le_p c; omega)
      (defaultSlot_word c hw ho) (rawTable_finite c w o))
    (fun _ hn => (rawTable_getD w o hn _).symm) fun _ _ => rfl

/-- Sample n of waveshape w of a file is sample w*P + n of the file (41 R181). -/
theorem fileTable_getD {p n : Nat} (w : Nat) (v : List F64) (hn : n < p) (d : F64) :
    (fileTable p w v).getD n d = v.getD (w * p + n) d := by
  simp [fileTable, List.getD_eq_getElem?_getD, hn]

/-- The words of an accepted file are its samples, peak-normalised (41 R172, R181). -/
theorem loadedSlot_normalizedTo {c : Config} {bytes : List Byte} {k : Nat} {v : List F64}
    (h : parseWaveFile c.p bytes = .accept k v) {w o : Nat} (hw : w < k) (ho : o < Config.numOct) :
    normalizedTo c.p (fun n => v.getD (w * c.p + n) F64.zero) (fun n => (loadedSlot c k v).word c.p w o n) :=
  normalizedTo_congr
    (TableSlot.normalizedTo_of_octaveTable (acceptedTable_length h hw) (by have := two_le_p c; omega)
      (loadedSlot_word h hw ho) fun x hx =>
        (parseWaveFile_accept h).2 x (List.mem_of_mem_drop (List.mem_of_mem_take hx)))
    (fun _ hn => (fileTable_getD w v hn _).symm) fun _ _ => rfl

/-! TBLBUILD. -/

/-- A running block builds the slot that IMM names (41 R175). -/
theorem exec_tblbuild {s : State} (hs : s.status.halted = false) (t : TableNo) :
    exec (.tblbuild (BitVec.ofNat 12 t)) s = .next ((s.buildSlot t).reply 0 [4]) :=
  exec_of_effect_ok hs (by simp only [effect, tblbuildEffect, tableIndex_ofNat]; rfl)

/-- The slot built holds the built-in set. -/
theorem State.table_buildSlot_self (s : State) (t : TableNo) : (s.buildSlot t).table t = defaultSlot s.cfg :=
  State.table_writeSlot_self ..

/-- Settles O35: the slot built is that of the built-in set, and nothing else is written. -/
theorem tblbuildWritesBuiltInSet : Obligations.TblbuildWritesBuiltInSet := by
  intro s t hs
  refine ⟨s.buildSlot t, exec_tblbuild hs t, ?_⟩
  rw [State.table_buildSlot_self]
  exact ⟨rfl, rfl, fun _ _ hw ho => defaultSlot_normalizedTo s.cfg hw ho,
    fun _ _ hw ho => defaultSlot_guard s.cfg hw ho, fun k hk => (s.table_buildSlot t k).trans (if_neg hk),
    rfl, rfl, rfl, rfl⟩

/-! TBLLOAD. -/

/-- The number of a table slot other than 0 may be loaded (30_encoding R114). -/
theorem loadIndex_ofNat {t : TableNo} (h : t ≠ 0) : loadIndex (BitVec.ofNat 12 t) = .ok t := by
  revert t; decide

/-- A running block loads the slot that IMM names with what its file gives, and records and answers the code
(41 R176). -/
theorem exec_tblload {s : State} {t : TableNo} {len : Word} {data : List Word} {r : FileResult}
    (hs : s.status.halted = false) (ht : t ≠ 0) (hlen : data.length = loadWords len)
    (hr : parseWaveFile s.cfg.p (loadBytes len data) = r) :
    exec (.tblload (BitVec.ofNat 12 t) len data) s =
      .next (((s.loadSlot t r).setStatus (s.status.withLoad r.code (BitVec.ofNat 12 t))).reply 0
        [r.code.zeroExtend 64]) := by
  subst hr
  refine exec_of_effect_ok hs ?_
  simp only [effect, tblloadEffect, hlen, ne_eq, not_true_eq_false, if_false, loadIndex_ofNat ht]

/-- The slot loaded from an accepted file holds its waveshapes. -/
theorem State.table_loadSlot_accept (s : State) (t : TableNo) (k : Nat) (v : List F64) :
    (s.loadSlot t (.accept k v)).table t = loadedSlot s.cfg k v := State.table_writeSlot_self ..

/-- A load writes no other slot (41 R176). -/
theorem State.table_loadSlot_of_ne (s : State) {t i : TableNo} (r : FileResult) (h : i ≠ t) :
    (s.loadSlot t r).table i = s.table i := by
  cases r <;> exact (State.table_writeSlot ..).trans (if_neg h)

/-- Settles O36: the slot loaded is that of the file's waveshapes, and only the load fields of STATUS are written. -/
theorem tblloadStoresAcceptedFile : Obligations.TblloadStoresAcceptedFile := by
  intro s t len data k v hs ht hlen hfile
  refine ⟨_, exec_tblload hs ht hlen hfile, ?_⟩
  rw [State.setStatus_table, State.table_loadSlot_accept]
  exact ⟨rfl, rfl, fun _ _ hw ho => loadedSlot_normalizedTo hfile hw ho,
    fun _ _ hw ho => loadedSlot_guard hfile hw ho, fun _ hi => s.table_loadSlot_of_ne _ hi, rfl, rfl, rfl, rfl⟩

/-- Settles O37: each of the six causes builds the slot and has its code. -/
theorem tblloadFallsBack : Obligations.TblloadFallsBack := by
  intro s t len data r code hs ht hlen hfile hcause
  rw [exec_tblload hs ht hlen hfile]
  simp only [List.mem_cons, Prod.mk.injEq, List.not_mem_nil, or_false] at hcause
  obtain ⟨rfl, rfl⟩ | ⟨rfl, rfl⟩ | ⟨rfl, rfl⟩ | ⟨rfl, rfl⟩ | ⟨rfl, rfl⟩ | ⟨rfl, rfl⟩ := hcause <;> rfl

/-! TBLINFO. -/

/-- Settles O40: the slot that IMM names, by its bookkeeping. -/
theorem tblinfoReadsBookkeeping : Obligations.TblinfoReadsBookkeeping := fun _ t hs =>
  exec_of_effect_ok hs (by simp only [effect, tblinfoEffect, tableIndex_ofNat, flagWord])

/-! The frame of the commands that write a slot. -/

/-- IMM names the table slot of its number (30_encoding R114). -/
theorem tableIndex_val {n : BitVec 12} {t : TableNo} (h : tableIndex n = .ok t) : t.val = n.toNat := by
  unfold tableIndex at h
  split at h
  · cases h
    rfl
  · cases h

/-- A slot that may be loaded is a table slot of that number. -/
theorem loadIndex_val {n : BitVec 12} {t : TableNo} (h : loadIndex n = .ok t) : t.val = n.toNat := by
  unfold loadIndex at h
  split at h
  · cases h
  · exact tableIndex_val h

/-- A slot that is the same is kept. -/
theorem State.tableKept_of_table {s t : State} {k : TableNo} (h : t.table k = s.table k) : s.tableKept t k := by
  rw [State.tableKept, h]
  exact ⟨rfl, rfl, fun _ => rfl⟩

@[simp] theorem State.buildSlot_slots (s : State) (t : TableNo) : (s.buildSlot t).slots = s.slots := rfl
@[simp] theorem State.loadSlot_slots (s : State) (t : TableNo) (r : FileResult) : (s.loadSlot t r).slots = s.slots := by
  cases r <;> rfl

/-- The effect of TBLBUILD keeps every register, STATUS and every slot but the one named (41 R175). -/
theorem tblbuildEffect_frame {n : BitVec 12} {s u : State} {p : List Word} (h : tblbuildEffect n s = .ok (u, p)) :
    u.slots = s.slots ∧ u.status = s.status ∧ ∀ k : TableNo, k.val ≠ n.toNat → u.table k = s.table k := by
  obtain ⟨t, ht, rfl, -⟩ := tblbuildEffect_ok h
  refine ⟨State.buildSlot_slots .., State.buildSlot_status .., fun k hk => ?_⟩
  rw [State.table_buildSlot, if_neg]
  rintro rfl
  exact hk (tableIndex_val ht)

/-- The effect of TBLLOAD keeps every register, all of STATUS but the two load fields, and every slot but the one named
(41 R176). -/
theorem tblloadEffect_frame {n : BitVec 12} {len : Word} {data : List Word} {s u : State} {p : List Word}
    (h : tblloadEffect n len data s = .ok (u, p)) :
    u.slots = s.slots ∧ (∃ code, u.status = s.status.withLoad code n) ∧
      ∀ k : TableNo, k.val ≠ n.toNat → u.table k = s.table k := by
  obtain ⟨t, r, -, ht, -, rfl, -⟩ := tblloadEffect_ok h
  refine ⟨State.loadSlot_slots .., ⟨_, rfl⟩, fun k hk => ?_⟩
  rw [State.setStatus_table, State.table_loadSlot_of_ne]
  rintro rfl
  exact hk (loadIndex_val ht)

/-- Settles O52: ignored, faulted, or completed by one of the two effects. -/
theorem tableCommandFrame : Obligations.TableCommandFrame := by
  intro i s t n len data hi h
  obtain ⟨-, -, rfl⟩ | ⟨u, p, hu, rfl⟩ | ⟨c, -, -, rfl⟩ := exec_next h
  · exact ⟨rfl, rfl, fun _ _ => State.tableKept_of_tables rfl _, .inr ⟨rfl, rfl, rfl, fun _ => rfl⟩⟩
  · refine ⟨(State.reply_cfg ..).trans (effect_cfg hu), ?_⟩
    obtain rfl | rfl := hi
    · obtain ⟨hslots, hstatus, htable⟩ := tblbuildEffect_frame hu
      rw [State.reply_slots, State.reply_status, hstatus]
      exact ⟨hslots, fun k hk => State.tableKept_of_table (htable k hk), .inr ⟨rfl, rfl, rfl, fun _ => rfl⟩⟩
    · obtain ⟨hslots, ⟨code, hstatus⟩, htable⟩ := tblloadEffect_frame hu
      rw [State.reply_slots, State.reply_status, hstatus]
      exact ⟨hslots, fun k hk => State.tableKept_of_table (htable k hk), .inr ⟨rfl, rfl, rfl, nofun⟩⟩
  · exact ⟨rfl, rfl, fun _ _ => State.tableKept_of_tables rfl _, .inl ⟨c, rfl⟩⟩

end Sys2Proof.Machine
end

section
/-! PROOFS. O60: how near a sine table is to the ideal sine (41_wavetable R172, R177). The raw samples are within 1e−9 of it,
and so is their largest magnitude of 1, since a quarter of the period is a sample; the one division by it is rounded by at
most 2^−52. -/

namespace Sys2Proof

/-! How near a quotient is to the exact one. -/

/-- Rounding moves a value by at most one unit in the last place of any magnitude it does not pass. -/
theorem F64.round_near {num den b : Nat} (hden : 0 < den) (hb : b < F64.infMag) (h : num ≤ F64.scale b * den) :
    F64.scale (F64.round num den) * den ≤ num + 2 ^ (b / 2 ^ 52 - 1) * den ∧
      num ≤ F64.scale (F64.round num den) * den + 2 ^ (b / 2 ^ 52 - 1) * den := by
  obtain ⟨M, r, hlo, hhi, hround, hcase⟩ := F64.round_spec num hden
  have hM : M ≤ b := F64.scale_le.1 (Nat.le_of_mul_le_mul_right (hlo.trans h) hden)
  have hr : r = M ∨ r = M + 1 := by clear hround; omega
  have hulp : 2 ^ (M / 2 ^ 52 - 1) * den ≤ 2 ^ (b / 2 ^ 52 - 1) * den :=
    Nat.mul_le_mul_right _
      (Nat.pow_le_pow_right Nat.two_pos (Nat.sub_le_sub_right (Nat.div_le_div_right hM) 1))
  rw [hround, Nat.min_eq_left (by omega)]
  rw [F64.scale_succ, Nat.add_mul] at hhi
  obtain rfl | rfl := hr
  · omega
  · rw [F64.scale_succ, Nat.add_mul]
    omega

/-- The sign of a pattern as a factor. -/
def F64.signFactor (neg : Bool) : ℚ := if neg then -1 else 1

theorem F64.signFactor_div (a b : Bool) : F64.signFactor a / F64.signFactor b = F64.signFactor (a != b) := by
  cases a <;> cases b <;> simp [F64.signFactor]

theorem F64.abs_signFactor (neg : Bool) : |F64.signFactor neg| = 1 := by
  cases neg <;> simp [F64.signFactor]

/-- The value of a pattern by its sign and its magnitude fields. -/
theorem F64.toRat_make {neg : Bool} {m : Nat} (hm : m < 2 ^ 63) :
    F64.toRat (F64.make neg m) = F64.signFactor neg * (F64.scale m / 2 ^ 1074) := by
  rw [F64.toRat, F64.scaled_make hm, F64.signFactor]
  generalize (2 : ℚ) ^ 1074 = d
  cases neg <;> simp [neg_div]

theorem F64.toRat_eq (x : F64) : F64.toRat x = F64.signFactor (F64.sign x) * (F64.scale (F64.mag x) / 2 ^ 1074) := by
  rw [← F64.toRat_make (F64.mag_lt x), F64.make_sign_mag]

theorem F64.abs_toRat (x : F64) : |F64.toRat x| = F64.scale (F64.mag x) / 2 ^ 1074 := by
  rw [F64.toRat_eq, abs_mul, F64.abs_signFactor, one_mul, abs_of_nonneg (by positivity)]

theorem F64.toRat_abs (x : F64) : F64.toRat (F64.abs x) = |F64.toRat x| := by
  rw [F64.abs_toRat, F64.abs, F64.toRat_make (F64.mag_lt x)]
  simp [F64.signFactor]

/-- The magnitudes of values are ordered as their magnitude fields. -/
theorem F64.abs_toRat_le {x y : F64} (h : F64.mag x ≤ F64.mag y) : |F64.toRat x| ≤ |F64.toRat y| := by
  rw [F64.abs_toRat, F64.abs_toRat, div_le_div_iff_of_pos_right (by positivity)]
  exact Nat.cast_le.2 (F64.scale_le.2 h)

theorem F64.toRat_of_mag_zero {x : F64} (h : F64.mag x = 0) : F64.toRat x = 0 := by
  rw [F64.toRat, F64.scaled_eq_zero.2 h, Int.cast_zero, zero_div]

theorem F64.abs_toRat_one : |F64.toRat F64.one| = 1 := by
  rw [F64.abs_toRat, F64.scale_one, Nat.cast_pow, Nat.cast_ofNat, div_self (by positivity)]

/-- Two quotients whose cross products differ by at most `e * y`. -/
theorem abs_div_sub_div_le {q d x y e : ℚ} (hd : 0 < d) (hy : 0 < y) (hup : q * y ≤ x * d + e * y)
    (hdown : x * d ≤ q * y + e * y) : |q / d - x / y| ≤ e / d := by
  rw [div_sub_div _ _ hd.ne' hy.ne', abs_div, abs_of_pos (mul_pos hd hy), ← mul_div_mul_right e d hy.ne',
    div_le_div_iff_of_pos_right (mul_pos hd hy), abs_le]
  constructor <;> linarith

/-- A quotient of magnitude at most 1 is rounded by at most 2^-52 (00_scope R12). -/
theorem F64.toRat_div_near {x y : F64} (hx : F64.isFinite x = true) (hy : F64.isFinite y = true) (h0 : F64.mag y ≠ 0)
    (h : F64.mag x ≤ F64.mag y) : |F64.toRat (F64.div x y) - F64.toRat x / F64.toRat y| ≤ 1 / 2 ^ 52 := by
  have hy0 : 0 < F64.scale (F64.mag y) := Nat.pos_of_ne_zero (mt F64.scale_eq_zero.1 h0)
  obtain ⟨hup, hdown⟩ := F64.round_near (num := F64.scale (F64.mag x) * 2 ^ 1074) hy0
    (F64.isFinite_iff.1 (by decide : F64.isFinite F64.one = true))
    (by rw [F64.scale_one, Nat.mul_comm]; exact Nat.mul_le_mul_left _ (F64.scale_le.2 h))
  rw [show F64.mag F64.one / 2 ^ 52 - 1 = 1022 by decide] at hup hdown
  rw [F64.div_eq hx hy h0, F64.toRat_make ((F64.round_le_infMag ..).trans_lt F64.infMag_lt), F64.toRat_eq x,
    F64.toRat_eq y, mul_div_mul_comm, F64.signFactor_div, ← mul_sub, abs_mul, F64.abs_signFactor, one_mul,
    div_div_div_cancel_right₀ (by positivity)]
  have hulp : (1 : ℚ) / 2 ^ 52 = 2 ^ 1022 / 2 ^ 1074 := by
    rw [show 1074 = 1022 + 52 from rfl, pow_add, div_mul_eq_div_div, div_self (by positivity)]
  rw [hulp]
  have hup := (Nat.cast_le (α := ℚ)).2 hup
  have hdown := (Nat.cast_le (α := ℚ)).2 hdown
  simp only [Nat.cast_add, Nat.cast_mul, Nat.cast_pow, Nat.cast_ofNat] at hup hdown
  exact abs_div_sub_div_le (by positivity) (Nat.cast_pos.2 hy0) hup hdown

end Sys2Proof

namespace Sys2Proof.Machine

/-! The sine table. -/

/-- Sample n of the ideal sine table of P samples (41 R174). -/
noncomputable def idealSine (p n : Nat) : ℝ := Real.sin (2 * Real.pi * n / p)

/-- A quarter of the period is the peak. -/
theorem idealSine_quarter {q : Nat} (hq : 0 < q) : idealSine (4 * q) q = 1 := by
  rw [idealSine, ← Real.sin_pi_div_two]
  congr 1
  have : (q : ℝ) ≠ 0 := by positivity
  push_cast
  field_simp
  ring

/-- The sample behind the last one is sample 0. -/
theorem idealSine_period {p : Nat} (hp : 0 < p) : idealSine p p = idealSine p 0 := by
  have : (p : ℝ) ≠ 0 := by positivity
  rw [idealSine, idealSine, mul_div_cancel_right₀ _ this, Real.sin_two_pi]
  simp

/-- A sample near an ideal one, divided by a peak near 1, is near the ideal one. -/
theorem quotient_near {r s m : ℝ} (hs : |s| ≤ 1) (hr : |r - s| ≤ 1 / 10 ^ 9) (hm : |m - 1| ≤ 1 / 10 ^ 9) :
    |r / m - s| ≤ 205 / 10 ^ 11 := by
  have hm0 : 1 - 1 / 10 ^ 9 ≤ m := by have := (abs_le.1 hm).1; linarith
  have hpos : 0 < m := lt_of_lt_of_le (by norm_num) hm0
  have hdiff : |(r - s) - s * (m - 1)| ≤ 2 / 10 ^ 9 :=
    calc |(r - s) - s * (m - 1)| ≤ |r - s| + |s| * |m - 1| := (abs_sub _ _).trans_eq (by rw [abs_mul])
      _ ≤ 1 / 10 ^ 9 + 1 * (1 / 10 ^ 9) := add_le_add hr (mul_le_mul hs hm (abs_nonneg _) one_pos.le)
      _ = 2 / 10 ^ 9 := by norm_num
  have hquot : r / m - s = ((r - s) - s * (m - 1)) / m := by field_simp; ring
  rw [hquot, abs_div, abs_of_pos hpos, div_le_iff₀ hpos]
  refine hdiff.trans ?_
  linarith

section SineTable

variable {c : Config} {o : Nat} (ho : o < Config.numOct) (hH : 1 ≤ harmonics c.toParams o)

include ho hH

/-- Where there is a harmonic, the ideal sum of the sine waveshape is the sine (41 R174, R177). -/
theorem genRaw_sine_near {n : Nat} (hn : n < c.p) :
    |(F64.toRat (genRaw c.toParams 0 o n) : ℝ) - idealSine c.p n| ≤ 1 / 10 ^ 9 := by
  have h := c.near 0 o n (by decide) ho hn
  rwa [idealSum, if_pos hH, Nat.cast_one, one_mul] at h

/-- The largest magnitude of the raw samples of a sine table is near 1, when P is a multiple of 4. -/
theorem sinePeak_near (h4 : 4 ∣ c.p) {k : Nat} (hk : k < c.p)
    (hmax : ∀ n < c.p, F64.mag (genRaw c.toParams 0 o n) ≤ F64.mag (genRaw c.toParams 0 o k)) :
    |((F64.toRat (F64.abs (genRaw c.toParams 0 o k)) : ℚ) : ℝ) - 1| ≤ 1 / 10 ^ 9 := by
  obtain ⟨q, hq⟩ := h4
  have hp := two_le_p c
  have hquarter := genRaw_sine_near ho hH (n := q) (by omega)
  rw [hq, idealSine_quarter (by omega)] at hquarter
  have hle : |(F64.toRat (genRaw c.toParams 0 o q) : ℝ)| ≤ |(F64.toRat (genRaw c.toParams 0 o k) : ℝ)| := by
    exact_mod_cast F64.abs_toRat_le (hmax q (by omega))
  have hpeak := (abs_sub_abs_le_abs_sub _ _).trans (genRaw_sine_near ho hH hk)
  have hsine : |idealSine c.p k| ≤ 1 := Real.abs_sin_le_one _
  rw [F64.toRat_abs, Rat.cast_abs, abs_le]
  have hself := le_abs_self (F64.toRat (genRaw c.toParams 0 o q) : ℝ)
  have hlow := (abs_le.1 hquarter).1
  constructor <;> linarith

/-- A sample of a sine table is near the ideal sine, and of magnitude at most 1. -/
theorem defaultSlot_sine_near (h4 : 4 ∣ c.p) {n : Nat} (hn : n < c.p) :
    |((F64.toRat ((defaultSlot c).word c.p 0 o n) : ℚ) : ℝ) - idealSine c.p n| ≤ 21 / 10 ^ 10 ∧
      |F64.toRat ((defaultSlot c).word c.p 0 o n)| ≤ 1 := by
  have hfin := genRaw_finite c 0 o
  obtain ⟨_, hle, ⟨k, hk, rfl⟩, hword⟩ := defaultSlot_normalizedTo c (w := 0) (by decide) ho
  have hmax := fun n hn => (F64.le_abs_abs (hfin n) (hfin k)).1 (hle n hn)
  have hpeak := sinePeak_near ho hH h4 hk hmax
  have hpfin := (F64.abs_spec (hfin k)).1
  rw [← F64.mag_abs (genRaw c.toParams 0 o k)] at hmax
  generalize F64.abs (genRaw c.toParams 0 o k) = m at *
  have h0 : F64.mag m ≠ 0 := fun h => by
    rw [F64.toRat_of_mag_zero h] at hpeak
    norm_num at hpeak
  have hquot : (defaultSlot c).word c.p 0 o n = F64.div (genRaw c.toParams 0 o n) m :=
    (hword n hn).trans (if_neg (mt (F64.eq_zero_iff hpfin).1 h0))
  rw [hquot]
  have hdiv := (Rat.cast_le (K := ℝ)).2 (F64.toRat_div_near (hfin n) hpfin h0 (hmax n hn))
  push_cast at hdiv
  refine ⟨?_, (F64.abs_toRat_le (F64.mag_div_le_one (hfin n) hpfin h0 (hmax n hn)).1).trans_eq F64.abs_toRat_one⟩
  calc _ ≤ _ := abs_sub_le _ _ _
    _ ≤ 1 / 2 ^ 52 + 205 / 10 ^ 11 :=
      add_le_add hdiv (quotient_near (Real.abs_sin_le_one _) (genRaw_sine_near ho hH hn) hpeak)
    _ ≤ 21 / 10 ^ 10 := by norm_num

end SineTable

/-- Settles O60: the guard sample is sample 0, at the period of the sine; every other word is a quotient near the sine. -/
theorem sineTableNearIdeal : Obligations.SineTableNearIdeal := by
  intro c o n h4 ho hH hn
  show |((F64.toRat ((defaultSlot c).word c.p 0 o n) : ℚ) : ℝ) - idealSine c.p n| ≤ 21 / 10 ^ 10 ∧
    |F64.toRat ((defaultSlot c).word c.p 0 o n)| ≤ 1
  have hp : 0 < c.p := by have := two_le_p c; omega
  obtain hlt | rfl := hn.lt_or_eq
  · exact defaultSlot_sine_near ho hH h4 hlt
  · rw [defaultSlot_guard c (by decide) ho, idealSine_period hp]
    exact defaultSlot_sine_near ho hH h4 hp

end Sys2Proof.Machine
end

section
/-! PROOFS. O53: Wrap (42_oscillator R214), by where the position lies: the exact remainder of one at or above P, and
the remainder of a negative one with P added. -/

namespace Sys2Proof

/-! Signs, comparisons and remainders by the rational values. -/

theorem F64.le_iff_toRat {x y : F64} (hx : F64.isFinite x = true) (hy : F64.isFinite y = true) :
    F64.le x y = true ↔ F64.toRat x ≤ F64.toRat y := (F64.le_iff hx hy).trans F64.toRat_le.symm

theorem F64.lt_iff_toRat {x y : F64} (hx : F64.isFinite x = true) (hy : F64.isFinite y = true) :
    F64.lt x y = true ↔ F64.toRat x < F64.toRat y := (F64.lt_iff hx hy).trans F64.toRat_lt.symm

theorem F64.eq_iff_toRat {x y : F64} (hx : F64.isFinite x = true) (hy : F64.isFinite y = true) :
    F64.eq x y = true ↔ F64.toRat x = F64.toRat y := (F64.eq_iff hx hy).trans F64.toRat_inj.symm

theorem F64.toRat_of_sign_false {x : F64} (h : F64.sign x = false) : F64.toRat x = |F64.toRat x| := by
  rw [F64.abs_toRat, F64.toRat_eq, h]
  simp [F64.signFactor]

theorem F64.toRat_of_sign_true {x : F64} (h : F64.sign x = true) : F64.toRat x = -|F64.toRat x| := by
  rw [F64.abs_toRat, F64.toRat_eq, h]
  simp [F64.signFactor]

theorem F64.sign_of_pos {x : F64} (h : 0 < F64.toRat x) : F64.sign x = false := by
  refine Bool.eq_false_of_not_eq_true fun hs => ?_
  rw [F64.toRat_of_sign_true hs] at h
  exact absurd (neg_pos.1 h) (abs_nonneg _).not_gt

theorem F64.sign_of_neg {x : F64} (h : F64.toRat x < 0) : F64.sign x = true := by
  refine Bool.eq_true_of_not_eq_false fun hs => ?_
  rw [F64.toRat_of_sign_false hs] at h
  exact absurd h (abs_nonneg _).not_gt

/-- The remainder of two counts of a unit, by the floor of their quotient. -/
theorem natCast_mod_div (a b : Nat) {d : ℚ} (hd : d ≠ 0) :
    ((a % b : ℕ) : ℚ) / d = a / d - b / d * ⌊(a / d) / (b / d)⌋ := by
  have h : (b : ℚ) * (a / b : ℕ) + (a % b : ℕ) = a := by exact_mod_cast Nat.div_add_mod a b
  rw [div_div_div_cancel_right₀ hd, Rat.floor_natCast_div_natCast, ← Int.natCast_div, Int.cast_natCast,
    div_mul_eq_mul_div, ← sub_div, ← h, add_sub_cancel_left]

/-- `fmod` is the exact remainder of the magnitudes, with the sign of the dividend (00_scope R12). -/
theorem F64.toRat_fmod {x y : F64} (hx : F64.isFinite x = true) (hy : F64.isFinite y = true) (h0 : F64.mag y ≠ 0) :
    F64.toRat (F64.fmod x y) =
      F64.signFactor (F64.sign x) * (|F64.toRat x| - |F64.toRat y| * ⌊|F64.toRat x| / |F64.toRat y|⌋) := by
  obtain ⟨m, hlt, hm, e⟩ := F64.fmod_spec hx hy h0
  rw [e, F64.toRat_make (hlt.trans (F64.mag_lt y)), hm, F64.abs_toRat, F64.abs_toRat,
    natCast_mod_div _ _ (by positivity)]

/-- `fmod` keeps the sign of the dividend, that of a zero too (00_scope R12). -/
theorem F64.sign_fmod {x y : F64} (hx : F64.isFinite x = true) (hy : F64.isFinite y = true) (h0 : F64.mag y ≠ 0) :
    F64.sign (F64.fmod x y) = F64.sign x := by
  obtain ⟨m, hlt, -, e⟩ := F64.fmod_spec hx hy h0
  rw [e, F64.sign_make (hlt.trans (F64.mag_lt y))]

/-- A zero in place of a value that equals it is the same value. -/
theorem F64.toRat_unsigned_zero {x : F64} (hx : F64.isFinite x = true) :
    F64.toRat (if F64.eq x F64.zero then F64.zero else x) = F64.toRat x := by
  split
  · rename_i h
    exact ((F64.eq_iff_toRat hx F64.isFinite_zero).1 h).symm
  · rfl

/-- A zero whose sign is not set is +0.0. -/
theorem F64.unsigned_zero_eq {x : F64} (hs : F64.sign x = false) :
    (if F64.eq x F64.zero then F64.zero else x) = x := by
  split
  · rename_i h
    refine F64.ext_sign_mag hs.symm ?_
    simp only [F64.eq, Bool.and_eq_true, decide_eq_true_eq, F64.ord, hs, if_false, Bool.false_eq_true] at h
    exact Int.ofNat.inj h.2.symm
  · rfl

/-- A sum that is not negative has no sign where one of its operands has none. -/
theorem F64.sign_add_of_nonneg {x y : F64} (hx : F64.isFinite x = true) (hy : F64.isFinite y = true)
    (hs : F64.sign y = false) (h : 0 ≤ F64.scaled x + F64.scaled y) : F64.sign (F64.add x y) = false := by
  rw [F64.add_eq hx hy]
  split
  · rw [F64.sign_make (by decide), hs, Bool.and_false]
  · rw [F64.sign_make ((F64.round_le_infMag ..).trans_lt F64.infMag_lt), decide_eq_false h.not_gt]

end Sys2Proof

namespace Sys2Proof.Machine

/-- A position is flagged exactly when it lies outside [0, P) (42 R214). -/
theorem wrap_flag (p : Nat) (x : F64) :
    (wrap p x).2 = false ↔ F64.le F64.zero x = true ∧ F64.lt x (F64.ofNat p) = true := by
  unfold wrap wrapRaw
  dsimp only
  split
  · rename_i h
    exact iff_of_true rfl (Bool.and_eq_true_iff.1 h)
  · rename_i h
    exact iff_of_false (Bool.true_eq_false.mp) (mt Bool.and_eq_true_iff.2 h)

/-- A position in [0, P) is itself, but for a −0.0. -/
theorem wrap_of_inside {p : Nat} {x : F64} (h : F64.le F64.zero x = true ∧ F64.lt x (F64.ofNat p) = true) :
    (wrap p x).1 = if F64.eq x F64.zero then F64.zero else x := by
  simp only [wrap, wrapRaw, h.1, h.2, Bool.and_self, if_true]

/-- A position in [0, P) is kept by value. -/
theorem toRat_wrap_of_inside {p : Nat} {x : F64} (hx : F64.isFinite x = true) (h : (wrap p x).2 = false) :
    F64.toRat (wrap p x).1 = F64.toRat x := by
  rw [wrap_of_inside ((wrap_flag p x).1 h), F64.toRat_unsigned_zero hx]

/-- Any other position is its remainder `r`, moved up by P where that is negative, or +0.0 where it is a zero or P. -/
theorem wrap_of_outside {p : Nat} {x r : F64} (h : ¬(F64.le F64.zero x = true ∧ F64.lt x (F64.ofNat p) = true))
    (hr : r = if F64.lt (F64.fmod x (F64.ofNat p)) F64.zero
      then F64.add (F64.fmod x (F64.ofNat p)) (F64.ofNat p) else F64.fmod x (F64.ofNat p)) :
    (wrap p x).1 = if F64.eq r (F64.ofNat p) then F64.zero else if F64.eq r F64.zero then F64.zero else r := by
  rw [← Bool.and_eq_true] at h
  simp only [wrap, wrapRaw, if_neg h, ← hr]
  by_cases hp : F64.eq r (F64.ofNat p) = true
  · simp only [hp, if_true, ite_self]
  · simp [hp]

/-- P as a binary64 number. -/
theorem period_spec {p : Nat} (hp0 : 0 < p) (hp : p ≤ 65535) : F64.isFinite (F64.ofNat p) = true ∧
    F64.toRat (F64.ofNat p) = p ∧ F64.sign (F64.ofNat p) = false ∧ F64.mag (F64.ofNat p) ≠ 0 ∧
    0 < F64.scaled (F64.ofNat p) := by
  have hn : p < 2 ^ 53 := by omega
  obtain ⟨hs, -, hm⟩ := F64.ofNat_fields hn
  have hpos : 0 < F64.toRat (F64.ofNat p) := by rw [F64.toRat_ofNat hn]; exact Nat.cast_pos.2 hp0
  rw [← F64.toRat_zero, F64.toRat_lt, F64.scaled_zero] at hpos
  exact ⟨F64.isFinite_ofNat hn, F64.toRat_ofNat hn, hs, fun h => hp0.ne' (hm.1 h), hpos⟩

section Wrap

variable {p : Nat} {x : F64} (hp0 : 0 < p) (hp : p ≤ 65535) (hx : F64.isFinite x = true)

include hp0 hp hx

/-- The remainder by P, as the rule writes it. -/
theorem toRat_fmod_period : F64.toRat (F64.fmod x (F64.ofNat p)) =
    F64.signFactor (F64.sign x) * (|F64.toRat x| - p * ⌊|F64.toRat x| / p⌋) := by
  obtain ⟨hP, hPr, -, hP0, -⟩ := period_spec hp0 hp
  rw [F64.toRat_fmod hx hP hP0, hPr, Nat.abs_cast]

/-- A position at or above P is reduced to the exact remainder. -/
theorem toRat_wrap_of_ge (h : F64.le (F64.ofNat p) x = true) :
    F64.toRat (wrap p x).1 = F64.toRat x - p * ⌊F64.toRat x / p⌋ := by
  obtain ⟨hP, hPr, -, hP0, hPpos⟩ := period_spec hp0 hp
  obtain ⟨hr, -, hrP⟩ := F64.fmod_between hx hP hPpos
  have hge := (F64.le_iff_toRat hP hx).1 h
  have hx0 : 0 < F64.toRat x := lt_of_lt_of_le (by rw [hPr]; exact Nat.cast_pos.2 hp0) hge
  have hsign := (F64.sign_fmod hx hP hP0).trans (F64.sign_of_pos hx0)
  have hneg : ¬ F64.lt (F64.fmod x (F64.ofNat p)) F64.zero = true := by
    rw [F64.lt_iff_toRat hr F64.isFinite_zero, F64.toRat_zero, F64.toRat_of_sign_false hsign]
    exact (abs_nonneg _).not_gt
  have hout : ¬(F64.le F64.zero x = true ∧ F64.lt x (F64.ofNat p) = true) := fun hin =>
    hge.not_gt ((F64.lt_iff_toRat hx hP).1 hin.2)
  rw [wrap_of_outside hout rfl, if_neg hneg, if_neg (by rw [F64.eq_iff hr hP]; exact hrP.ne),
    F64.toRat_unsigned_zero hr, toRat_fmod_period hp0 hp hx, F64.sign_of_pos hx0, abs_of_pos hx0]
  exact one_mul _

/-- A negative position is reduced to its remainder plus P, or to +0.0 where that remainder is zero or the sum rounds
to P. -/
theorem wrap_of_neg (h : F64.lt x F64.zero = true) :
    F64.toRat (F64.fmod x (F64.ofNat p)) = F64.toRat x + p * ⌊-F64.toRat x / p⌋ ∧
    (wrap p x).1 = if F64.eq (F64.fmod x (F64.ofNat p)) F64.zero ||
        F64.eq (F64.add (F64.fmod x (F64.ofNat p)) (F64.ofNat p)) (F64.ofNat p) then F64.zero
      else F64.add (F64.fmod x (F64.ofNat p)) (F64.ofNat p) := by
  obtain ⟨hP, -, hPs, hP0, hPpos⟩ := period_spec hp0 hp
  obtain ⟨hr, hrlo, -⟩ := F64.fmod_between hx hP hPpos
  have hx0 : F64.toRat x < 0 := by rw [← F64.toRat_zero]; exact (F64.lt_iff_toRat hx F64.isFinite_zero).1 h
  have hq := toRat_fmod_period hp0 hp hx
  have hout : ¬(F64.le F64.zero x = true ∧ F64.lt x (F64.ofNat p) = true) := fun hin => by
    have := (F64.le_iff_toRat F64.isFinite_zero hx).1 hin.1
    rw [F64.toRat_zero] at this
    exact this.not_gt hx0
  have hsign := (F64.sign_fmod hx hP hP0).trans (F64.sign_of_neg hx0)
  rw [F64.sign_of_neg hx0, abs_of_neg hx0] at hq
  refine ⟨hq.trans (by rw [F64.signFactor, if_pos rfl]; ring), ?_⟩
  rw [wrap_of_outside hout rfl]
  generalize F64.fmod x (F64.ofNat p) = q at *
  by_cases hzero : F64.eq q F64.zero = true
  · have hneg : ¬ F64.lt q F64.zero = true := by
      rw [F64.lt_iff hr F64.isFinite_zero, (F64.eq_iff hr F64.isFinite_zero).1 hzero]
      exact lt_irrefl _
    rw [if_neg hneg, hzero, if_pos rfl, ite_self, Bool.true_or, if_pos rfl]
  · have hneg : F64.lt q F64.zero = true := by
      rw [F64.eq_iff_toRat hr F64.isFinite_zero] at hzero
      rw [F64.lt_iff_toRat hr F64.isFinite_zero]
      refine lt_of_le_of_ne ?_ hzero
      rw [F64.toRat_zero, F64.toRat_of_sign_true hsign]
      exact neg_nonpos.2 (abs_nonneg _)
    rw [if_pos hneg, Bool.eq_false_of_not_eq_true hzero, Bool.false_or,
      F64.unsigned_zero_eq (F64.sign_add_of_nonneg hr hP hPs (by omega))]

end Wrap

/-- Settles O53: by where the position lies, inside [0, P), at or above P, or below zero. -/
theorem wrapReducesPosition : Obligations.WrapReducesPosition := by
  intro p x hp2 hp hx r
  have hp0 : 0 < p := by omega
  exact ⟨wrap_lanePosition hp0 hp hx, wrap_flag p x, toRat_wrap_of_inside hx, toRat_wrap_of_ge hp0 hp hx,
    fun h => ⟨_, wrap_of_neg hp0 hp hx h⟩⟩

end Sys2Proof.Machine
end

section
/-! PROOFS. O54: octave selection (42_oscillator R215) as the first octave of the scan that covers the frequency, and
the base frequencies and harmonic counts it rests on (41_wavetable R171, R173): scaling by a power of two is exact. -/

namespace Sys2Proof

/-! Products and quotients of values without a sign. -/

theorem F64.sign_ite {c : Prop} [Decidable c] {x y : F64} (hx : F64.sign x = false) (hy : F64.sign y = false) :
    F64.sign (if c then x else y) = false := by
  split
  · exact hx
  · exact hy

theorem F64.sign_mul {x y : F64} (hx : F64.sign x = false) (hy : F64.sign y = false) :
    F64.sign (F64.mul x y) = false := by
  have hmake : ∀ m ≤ F64.infMag, F64.sign (F64.make false m) = false := fun m hm =>
    F64.sign_make (hm.trans_lt F64.infMag_lt)
  simp only [F64.mul, hx, hy, bne_self_eq_false]
  exact F64.sign_ite rfl (F64.sign_ite (F64.sign_ite rfl (hmake _ le_rfl)) (hmake _ (F64.round_le_infMag ..)))

theorem F64.sign_div {x y : F64} (hx : F64.sign x = false) (hy : F64.sign y = false) :
    F64.sign (F64.div x y) = false := by
  have hmake : ∀ m ≤ F64.infMag, F64.sign (F64.make false m) = false := fun m hm =>
    F64.sign_make (hm.trans_lt F64.infMag_lt)
  simp only [F64.div, hx, hy, bne_self_eq_false]
  exact F64.sign_ite rfl (F64.sign_ite (F64.sign_ite rfl (hmake _ le_rfl)) (F64.sign_ite (hmake _ (Nat.zero_le _))
    (F64.sign_ite (F64.sign_ite rfl (hmake _ le_rfl)) (hmake _ (F64.round_le_infMag ..)))))

theorem F64.sign_ofNat (n : Nat) : F64.sign (F64.ofNat n) = false :=
  F64.sign_make ((F64.round_le_infMag ..).trans_lt F64.infMag_lt)

theorem F64.sign_of_zero_lt {x : F64} (h : F64.lt F64.zero x = true) : F64.sign x = false := by
  refine Bool.eq_false_of_not_eq_true fun hs => ?_
  simp only [F64.lt, Bool.and_eq_true, decide_eq_true_eq, F64.ord, hs, if_true] at h
  have hlt : (0 : Int) < -(F64.mag x : Int) := h.2
  omega

theorem F64.mul_eq {x y : F64} (hx : F64.isFinite x = true) (hy : F64.isFinite y = true) :
    F64.mul x y = F64.make (F64.sign x != F64.sign y)
      (F64.round (F64.scale (F64.mag x) * F64.scale (F64.mag y)) (2 ^ 1074)) := by
  simp only [F64.mul, F64.not_isNaN_of_isFinite hx, F64.not_isNaN_of_isFinite hy, F64.not_isInf_of_isFinite hx,
    F64.not_isInf_of_isFinite hy, Bool.or_self, Bool.false_eq_true, if_false]

/-- A product of finite values may overflow, but is no NaN. -/
theorem F64.not_isNaN_mul {x y : F64} (hx : F64.isFinite x = true) (hy : F64.isFinite y = true) :
    F64.isNaN (F64.mul x y) = false := by
  have hle := F64.round_le_infMag (F64.scale (F64.mag x) * F64.scale (F64.mag y)) (2 ^ 1074)
  rw [F64.mul_eq hx hy, F64.isNaN, F64.mag_make (hle.trans_lt F64.infMag_lt)]
  exact decide_eq_false hle.not_gt

theorem F64.lt_of_not_le {x y : F64} (hx : F64.isNaN x = false) (hy : F64.isNaN y = false)
    (h : F64.le x y = false) : F64.lt y x = true := by
  simp only [F64.le, F64.lt, hx, hy, Bool.not_false, Bool.true_and, decide_eq_false_iff_not, decide_eq_true_eq,
    not_le] at h ⊢
  exact h

/-- A product with a power of two is exact unless it overflows (41 R171). -/
theorem F64.toRat_mul_two_pow {x : F64} {k : Nat} (hx : F64.isFinite x = true) (hk : k < 53)
    (h : F64.isFinite (F64.mul x (F64.ofNat (2 ^ k))) = true) :
    F64.toRat (F64.mul x (F64.ofNat (2 ^ k))) = F64.toRat x * 2 ^ k := by
  have hn : 2 ^ k < 2 ^ 53 := Nat.pow_lt_pow_right (by decide) hk
  obtain ⟨hs, hscale, -⟩ := F64.ofNat_fields hn
  obtain ⟨a, ha, hxa⟩ := F64.scale_eq (F64.mag x)
  obtain ⟨m, hm, -⟩ := F64.exists_scale (F64.mag x / 2 ^ 52 - 1 + k) a ha
  have hprod : F64.scale m = F64.scale (F64.mag x) * 2 ^ k := by rw [hm, hxa, pow_add, Nat.mul_assoc]
  rw [F64.mul_eq hx (F64.isFinite_ofNat hn), hscale, ← Nat.mul_assoc, ← hprod, hs, Bool.bne_false] at h ⊢
  have hround : F64.round (F64.scale m * 2 ^ 1074) (2 ^ 1074) < F64.infMag := by
    rwa [F64.isFinite_iff, F64.mag_make ((F64.round_le_infMag ..).trans_lt F64.infMag_lt)] at h
  have hinf : m < F64.infMag := by
    by_contra hge
    have hle := Nat.mul_le_mul_right (2 ^ 1074) (F64.scale_le.2 (not_lt.1 hge))
    exact hround.not_ge (F64.le_round (den := 2 ^ 1074) (by positivity) le_rfl hle)
  rw [F64.round_exact (Nat.two_pow_pos 1074) hinf.le, F64.toRat_make (hinf.trans F64.infMag_lt), hprod, F64.toRat_eq x,
    Nat.cast_mul, Nat.cast_pow, Nat.cast_ofNat, mul_div_right_comm, mul_assoc]

end Sys2Proof

namespace Sys2Proof.Machine

/-- FS is positive, and F0 finite and positive (00_scope R7). -/
theorem fs_f0_legal (c : Config) :
    F64.lt F64.zero c.fs = true ∧ F64.isFinite c.f0 = true ∧ F64.lt F64.zero c.f0 = true := by
  have h := c.ok
  simp only [Params.valid, Bool.and_eq_true] at h
  obtain ⟨⟨⟨⟨⟨⟨⟨-, hfs⟩, hf0⟩, hf0pos⟩, -⟩, -⟩, -⟩, -⟩ := h
  exact ⟨hfs, hf0, hf0pos⟩

/-- The scan takes the first octave that covers the frequency, and the top one when there is none. -/
theorem octaveFrom_eq (c : Config) (a : F64) (l : List Nat) : octaveFrom c a l =
    (l.find? fun o => F64.le a (octaveBase c.toParams o)).getD (Config.numOct - 1) := by
  induction l with
  | nil => rfl
  | cons o rest ih =>
    rw [octaveFrom, List.find?_cons, ih]
    cases F64.le a (octaveBase c.toParams o) <;> rfl

/-- No octave below the one chosen covers the frequency, and the one chosen does or is the top one (42 R215). -/
theorem octave_least (c : Config) (a : F64) :
    (∀ k < octave c a, F64.le a (octaveBase c.toParams k) = false) ∧
    (F64.le a (octaveBase c.toParams (octave c a)) = true ∨ octave c a = Config.numOct - 1) := by
  rw [octave, octaveFrom_eq]
  cases hfind : (List.range Config.numOct).find? fun o => F64.le a (octaveBase c.toParams o) with
  | none =>
    rw [List.find?_range_eq_none] at hfind
    exact ⟨fun k hk => by simpa using hfind k (hk.trans (by decide)), .inr rfl⟩
  | some o =>
    rw [List.find?_range_eq_some] at hfind
    exact ⟨fun k hk => by simpa using hfind.2.2 k hk, .inl hfind.1⟩

theorem octaveBase_ordered (c : Config) {k : Nat} (hk : k ≤ 10) : F64.isNaN (octaveBase c.toParams k) = false :=
  F64.not_isNaN_mul (fs_f0_legal c).2.1 (F64.isFinite_ofNat (Nat.pow_lt_pow_right (by decide) (by omega)))

/-- The quotient that bounds the harmonics has no sign, overflow or not (41 R173). -/
theorem harmonicQuotient_sign (c : Config) (k : Nat) :
    F64.sign (F64.div c.fs (F64.mul F64.two (octaveBase c.toParams k))) = false := by
  obtain ⟨hfs, -, hf0⟩ := fs_f0_legal c
  exact F64.sign_div (F64.sign_of_zero_lt hfs)
    (F64.sign_mul rfl (F64.sign_mul (F64.sign_of_zero_lt hf0) (F64.sign_ofNat _)))

theorem harmonics_of_finite (c : Config) (k : Nat)
    (h : F64.isFinite (F64.div c.fs (F64.mul F64.two (octaveBase c.toParams k))) = true) :
    (harmonics c.toParams k : ℤ) =
      min ⌊F64.toRat (F64.div c.fs (F64.mul F64.two (octaveBase c.toParams k)))⌋ ((c.p - 1) / 2 : ℕ) := by
  have hnonneg : 0 ≤ F64.toRat (F64.div c.fs (F64.mul F64.two (octaveBase c.toParams k))) := by
    rw [F64.toRat_of_sign_false (harmonicQuotient_sign c k)]
    exact abs_nonneg _
  simp only [harmonics, F64.floor_eq h]
  rw [Nat.cast_min, Int.toNat_of_nonneg (Int.floor_nonneg.2 hnonneg)]

/-- Settles O54: the octave is the first of the scan that covers the frequency; its base frequency scales F0 exactly. -/
theorem octaveCoversFrequency : Obligations.OctaveCoversFrequency := by
  intro c a ha o
  have hlt : o < 11 := octave_lt c a
  obtain ⟨hleast, hcovers⟩ := octave_least c a
  refine ⟨by omega, fun k hk => ?_, hcovers, fun k hk hfin => ?_, harmonics_of_finite c⟩
  · exact F64.lt_of_not_le (F64.not_isNaN_of_isFinite ha) (octaveBase_ordered c (by omega)) (hleast k hk)
  · exact F64.toRat_mul_two_pow (fs_f0_legal c).2.1 (by omega) hfin

end Sys2Proof.Machine
end

section
/-! PROOFS. O42, O47: a step of an oscillator of a legal block (42_oscillator R210 to R220). Every active lane has a
sample, so that the step completes when no advance overflows and faults 0x05 when one does; VOICESTEP and PREVIEW pass the
fault on. -/

namespace Sys2Proof.Machine

/-- NUM_VOICES counts lanes that there are (10_state R40). -/
theorem Osc.paramsLegal.numVoices_le {c : Config} {o : Osc} (h : o.paramsLegal c) :
    o.numVoices.toNat ≤ Config.maxUnison := by
  obtain ⟨-, ⟨hlo, hhi⟩, -⟩ := h
  rw [BitVec.toInt_eq_toNat_cond] at hlo hhi
  have := o.numVoices.isLt
  simp only [Config.maxUnison] at hhi ⊢
  split at hlo <;> omega

/-- WAVE_INDEX is finite (10_state R42). -/
theorem Osc.paramsLegal.waveIndex_finite {c : Config} {o : Osc} (h : o.paramsLegal c) :
    F64.isFinite o.waveIndex = true := by
  obtain ⟨-, -, -, ⟨hlo, hhi⟩, -⟩ := h
  exact F64.isFinite_of_between F64.isFinite_zero (by decide) hlo hhi

/-- The lanes of a step, with the advance of the rule (42 R211, R212). -/
theorem stepLanes_laneAdvance (c : Config) (ts : TableSlot) (wi : Nat) (b spread f dt : F64) (l : List LaneNo)
    (a : Lanes) : stepLanes c ts wi b spread f dt l a =
      runLanes (laneWith (fun i => F64.isFinite (laneAdvance c f spread dt i.val))
        (fun i x => wrap c.p (F64.add x (laneAdvance c f spread dt i.val)))
        (fun i x => blend c.p ts wi b (octave c (F64.abs (laneHz f spread i.val))) x)) l a :=
  stepLanes_eq c ts wi b spread f dt l a

/-- What a step that completes gives, lane by lane (42 R213, R214, R219, R220). -/
theorem oscCore_lanes {c : Config} {tables : Vector TableSlot Config.numTbl} {o : Osc}
    {pos : Vector F64 Config.maxUnison} {f dt : F64} {r : StepResult} (h : oscCore c tables o pos f dt = .ok r) :
    (∀ i : LaneNo, i.val < o.numVoices.toNat → F64.isFinite (laneAdvance c f o.voiceSpread dt i.val) = true ∧
      r.pos[i] = (wrap c.p (F64.add pos[i] (laneAdvance c f o.voiceSpread dt i.val))).1) ∧
    (∀ i : LaneNo, o.numVoices.toNat ≤ i.val → r.pos[i] = pos[i]) ∧
    (r.cc = true ↔ ∃ i : LaneNo, i.val < o.numVoices.toNat ∧
      (wrap c.p (F64.add pos[i] (laneAdvance c f o.voiceSpread dt i.val))).2 = true) := by
  obtain ⟨wi, b, a, -, ha, rfl⟩ := oscCore_ok h
  rw [stepLanes_laneAdvance] at ha
  obtain ⟨hin, hout, hcc, -⟩ := runLanes_ok (activeLanes_nodup _) ha
  refine ⟨fun i hi => hin i (mem_activeLanes.2 hi), fun i hi => hout i fun hm => ?_, ?_⟩
  · exact hi.not_gt (mem_activeLanes.1 hm)
  · rw [hcc, Bool.false_or, List.any_eq_true]
    simp only [mem_activeLanes]

/-- An active lane of the oscillator has an advance that is not finite (42 R213). -/
def Osc.overflows (c : Config) (o : Osc) (f dt : F64) : Prop :=
  ∃ i : LaneNo, i.val < o.numVoices.toNat ∧ F64.isFinite (laneAdvance c f o.voiceSpread dt i.val) = false

theorem Osc.not_overflows {c : Config} {o : Osc} {f dt : F64} : ¬ o.overflows c f dt ↔
    ∀ i : LaneNo, i.val < o.numVoices.toNat → F64.isFinite (laneAdvance c f o.voiceSpread dt i.val) = true := by
  simp [Osc.overflows]

section LegalStep

variable {s : State} {o : Osc} {pos : Vector F64 Config.maxUnison} (f dt : F64) (hb : s.BookkeepingLegal)
  (ho : o.paramsLegal s.cfg) (hpos : ∀ i : LaneNo, lanePosition s.cfg.p pos[i])

include hb ho hpos

/-- The selection is defined, and with it the sample of every lane whose advance is finite (42 R216, R217). -/
theorem select_sample : ∃ wi b, select s.tables[resolve s.tables o.wavetable] o.waveIndex = .ok (wi, b) ∧
    ∀ i : LaneNo, F64.isFinite (laneAdvance s.cfg f o.voiceSpread dt i.val) = true →
      ∃ y, blend s.cfg.p s.tables[resolve s.tables o.wavetable] wi b
        (octave s.cfg (F64.abs (laneHz f o.voiceSpread i.val)))
        (wrap s.cfg.p (F64.add pos[i] (laneAdvance s.cfg f o.voiceSpread dt i.val))).1 = .ok y := by
  obtain ⟨hv, hn1, hn2⟩ := resolve_valid hb o.wavetable
  obtain ⟨wi, b, hs, hw, hw'⟩ := select_of_finite ho.waveIndex_finite hn1 hn2
  have hp := two_le_p s.cfg
  exact ⟨wi, b, hs, fun i hi => blend_of_legal (p_le s.cfg) hv hw hw' (octave_lt _ _)
    (wrap_lanePosition (by omega) (p_le s.cfg) (isFinite_add_advance (p_le s.cfg) (hpos i) hi))⟩

/-- A step of which no advance overflows completes (42 R220). -/
theorem oscCore_of_not_overflows (h : ¬ o.overflows s.cfg f dt) : ∃ r, oscCore s.cfg s.tables o pos f dt = .ok r := by
  obtain ⟨wi, b, hs, hy⟩ := select_sample f dt hb ho hpos
  rw [Osc.not_overflows] at h
  have hrun : ∃ a, stepLanes s.cfg s.tables[resolve s.tables o.wavetable] wi b o.voiceSpread f dt
      (activeLanes o.numVoices.toNat) ⟨pos, F64.zero, false⟩ = .ok a := by
    rw [stepLanes_laneAdvance]
    exact runLanes_of_finite (activeLanes_nodup _) (fun i hi => h i (mem_activeLanes.1 hi))
      fun i hi => hy i (h i (mem_activeLanes.1 hi))
  obtain ⟨a, ha⟩ := hrun
  simp only [oscCore, hs, ha]
  exact ⟨_, rfl⟩

/-- A step of which one advance overflows faults 0x05 (42 R213). -/
theorem oscCore_of_overflows (h : o.overflows s.cfg f dt) :
    oscCore s.cfg s.tables o pos f dt = .error (.raise .numeric) := by
  obtain ⟨wi, b, hs, hy⟩ := select_sample f dt hb ho hpos
  obtain ⟨i, hi, hover⟩ := h
  have hrun : stepLanes s.cfg s.tables[resolve s.tables o.wavetable] wi b o.voiceSpread f dt
      (activeLanes o.numVoices.toNat) ⟨pos, F64.zero, false⟩ = .error (.raise .numeric) := by
    rw [stepLanes_laneAdvance]
    exact runLanes_of_overflow (activeLanes_nodup _) ⟨i, mem_activeLanes.2 hi, hover⟩ fun i _ => hy i
  simp only [oscCore, hs, hrun]

end LegalStep

/-! OSCSTEP. -/

section OscstepEffect

variable {s : State} (sl : BitVec 5) (j : OscNo) {f dt : F64} (hf : F64.isFinite f = true)
  (hdt : F64.isFinite dt = true) (hneg : F64.lt dt F64.zero = false)

include hf hdt hneg

/-- With operands that pass their checks, OSCSTEP writes what the step gives (42 R222). -/
theorem oscstepEffect_of_ok {r : StepResult}
    (h : oscCore s.cfg s.tables (s.osc (slotNo sl) j) (s.osc (slotNo sl) j).pos f dt = .ok r) :
    oscstepEffect sl (BitVec.ofNat 2 j) f dt s =
      .ok (s.setOsc (slotNo sl) j ((s.osc (slotNo sl) j).stepped r.pos r.out r.cc), [r.out, flagWord r.cc]) := by
  simp [oscstepEffect, oscAt_ofNat, hf, hdt, hneg, h]

/-- With operands that pass their checks, OSCSTEP stops where the step does (42 R222). -/
theorem oscstepEffect_of_error {e : Stop}
    (h : oscCore s.cfg s.tables (s.osc (slotNo sl) j) (s.osc (slotNo sl) j).pos f dt = .error e) :
    oscstepEffect sl (BitVec.ofNat 2 j) f dt s = .error e := by
  simp [oscstepEffect, oscAt_ofNat, hf, hdt, hneg, h]

end OscstepEffect

/-- Settles O42: the step completes, and what completes is the step of the rule. -/
theorem oscstepCompletes : Obligations.OscstepCompletes := by
  intro s sl j f dt hs hlegal hf hdt hneg o hadv
  obtain ⟨hpos, hparams, hbook⟩ := hlegal
  have ho := hparams (slotNo sl) j
  obtain ⟨r, hr⟩ := oscCore_of_not_overflows f dt hbook ho (hpos (slotNo sl) j) (Osc.not_overflows.2 hadv)
  exact ⟨r, oscCore_steppedTo ho.waveIndex_finite ho.numVoices_le hbook hr,
    exec_of_effect_ok hs (oscstepEffect_of_ok sl j hf hdt hneg hr)⟩

/-! VOICESTEP and PREVIEW. -/

/-- The lanes an oscillator starts a VOICESTEP from are legal (43 R252). -/
theorem startLanes_lanePosition {s : State} (hs : s.PositionsLegal) (sl : SlotNo) (j : OscNo) (c0 : Bool) (i : LaneNo) :
    lanePosition s.cfg.p (startLanes j (s.osc sl j) c0)[i] := by
  unfold startLanes
  split
  · exact zeroLanes_lanePosition s.cfg i
  · exact hs sl j i

/-- A VOICESTEP steps every oscillator of its slot, each with its frequency (43 R252). -/
theorem mem_voiceOscs (f : OscNo → F64) (j : OscNo) : (j, f j) ∈ voiceOscs (f 0) (f 1) (f 2) :=
  List.mem_map_of_mem (f := fun k => (k, f k)) (List.mem_finRange j)

/-- The steps of a VOICESTEP fault 0x05 at the first oscillator of which an advance overflows (42 R213; 43 R252). -/
theorem voiceSteps_of_overflows {s : State} (hs : s.Legal) (sl : SlotNo) (dt : F64) :
    ∀ (steps : List (OscNo × F64)) (c0 : Bool), (∃ p ∈ steps, (s.osc sl p.1).overflows s.cfg p.2 dt) →
      voiceSteps s sl dt steps c0 = .error (.raise .numeric)
  | [], _, h => by simp at h
  | (j, f) :: rest, c0, h => by
    obtain ⟨hpos, hparams, hbook⟩ := hs
    have hstart := startLanes_lanePosition hpos sl j c0
    by_cases hover : (s.osc sl j).overflows s.cfg f dt
    · simp only [voiceSteps, oscCore_of_overflows f dt hbook (hparams sl j) hstart hover]
    · obtain ⟨r, hr⟩ := oscCore_of_not_overflows f dt hbook (hparams sl j) hstart hover
      have hrest : ∃ p ∈ rest, (s.osc sl p.1).overflows s.cfg p.2 dt := by
        simpa only [List.exists_mem_cons_iff, hover, false_or] using h
      simp only [voiceSteps, hr, voiceSteps_of_overflows ⟨hpos, hparams, hbook⟩ sl dt rest _ hrest]

/-- With operands that pass their checks, VOICESTEP stops where its steps do (43 R252). -/
theorem voicestepEffect_of_error {s : State} (sl : BitVec 5) {f0 f1 f2 dt : F64} {e : Stop}
    (h0 : F64.isFinite f0 = true) (h1 : F64.isFinite f1 = true) (h2 : F64.isFinite f2 = true)
    (hdt : F64.isFinite dt = true) (hneg : F64.lt dt F64.zero = false)
    (h : voiceCore s (slotNo sl) f0 f1 f2 dt = .error e) : voicestepEffect sl f0 f1 f2 dt s = .error e := by
  simp [voicestepEffect, slotIndex_eq, h0, h1, h2, hdt, hneg, h]

/-- A PREVIEW of at least one sample stops where its first step does (43 R253). -/
theorem previewEffect_of_error {s : State} (sl : BitVec 5) (j : OscNo) {n : BitVec 12} {f : F64} {e : Stop}
    (hn : n ≠ 0) (hf : F64.isFinite f = true)
    (h : oscCore s.cfg s.tables (s.osc (slotNo sl) j) zeroLanes f F64.one = .error e) :
    previewEffect sl (BitVec.ofNat 2 j) n f s = .error e := by
  obtain ⟨k, hk⟩ := Nat.exists_eq_succ_of_ne_zero (fun h0 => hn (BitVec.eq_of_toNat_eq h0) : n.toNat ≠ 0)
  simp [previewEffect, oscAt_ofNat, previewLength_eq, hf, hk, previewFrom, h]

/-- Settles O47: the step of the oscillator named faults, and with it each of the three commands. -/
theorem overflowFaults : Obligations.OverflowFaults := by
  intro s sl j f dt hs hlegal hf hdt hneg o
  obtain ⟨hpos, hparams, hbook⟩ := hlegal
  have ho := hparams (slotNo sl) j
  refine ⟨fun hover => ⟨exec_of_effect_raise hs ?_, exec_of_effect_raise hs ?_⟩,
    fun n hn hover => exec_of_effect_raise hs ?_⟩
  · exact oscstepEffect_of_error sl j (hf j) hdt hneg (oscCore_of_overflows _ _ hbook ho (hpos (slotNo sl) j) hover)
  · refine voicestepEffect_of_error sl (hf 0) (hf 1) (hf 2) hdt hneg ?_
    exact voiceSteps_of_overflows ⟨hpos, hparams, hbook⟩ (slotNo sl) dt _ false ⟨_, mem_voiceOscs f j, hover⟩
  · exact previewEffect_of_error sl j hn (hf j)
      (oscCore_of_overflows _ _ hbook ho (zeroLanes_lanePosition s.cfg) hover)

end Sys2Proof.Machine
end

section
/-! PROOFS. O41, O46, O49, O50, O57: the phase resets, the operand checks of the steps, the frames of PHRST, TRIGGER and
OSCSTEP (42_oscillator R221, R222; 43_voice R251 to R253), and a step of no time. -/

namespace Sys2Proof.Machine

/-! Phase resets. -/

/-- Settles O41: PHRST resets the oscillator named, TRIGGER every one of the slot. -/
theorem phaseResetsComplete : Obligations.PhaseResetsComplete := fun s sl hs =>
  ⟨fun j => exec_of_effect_ok hs (by simp only [effect, phrstEffect, oscAt_ofNat]; rfl),
    s.triggerSlot (slotNo sl), exec_of_effect_ok hs (by simp only [effect, triggerEffect, slotIndex_eq]),
    s.osc_triggerSlot (slotNo sl), s.mix_triggerSlot (slotNo sl), rfl, rfl, rfl, rfl⟩

/-- A phase reset writes positions only. -/
theorem Osc.phaseReset_keeps (o : Osc) :
    o.phaseReset.cc = o.cc ∧ o.phaseReset.out = o.out ∧ ∀ g, o.phaseReset.param g = o.param g :=
  ⟨rfl, rfl, o.phaseReset_param⟩

/-- The effect of PHRST and TRIGGER on an oscillator: its phase reset where the command names it, else nothing. -/
theorem phaseReset_osc {i : Instr} {sl : BitVec 5} {j : BitVec 2} {s u : State} {p : List Word}
    (hi : i = .phrst sl j ∨ i = .trigger sl) (h : effect i s = .ok (u, p)) (k : SlotNo) (m : OscNo) :
    u.osc k m = s.osc k m ∨
      (k = slotNo sl ∧ (i = .trigger sl ∨ m.val = j.toNat)) ∧ u.osc k m = (s.osc k m).phaseReset := by
  obtain rfl | rfl := hi
  · obtain ⟨j', hj, -, rfl⟩ := phrstEffect_ok h
    by_cases hnamed : k = slotNo sl ∧ m = j'
    · obtain ⟨rfl, rfl⟩ := hnamed
      exact .inr ⟨⟨rfl, .inr (oscIndex_val hj)⟩, State.osc_setOsc_self ..⟩
    · exact .inl (State.osc_setOsc_of_ne _ _ hnamed)
  · obtain ⟨rfl, -⟩ := triggerEffect_ok h
    rw [State.osc_triggerSlot]
    split
    · rename_i hk
      exact .inr ⟨⟨hk, .inl rfl⟩, rfl⟩
    · exact .inl rfl

/-- Settles O49: an oscillator is as it was, or named and with its phase reset. -/
theorem phaseResetFrame : Obligations.PhaseResetFrame := by
  intro i s t sl j hi h
  obtain ⟨hcfg, hstatus, htables, hmix⟩ := exec_keeps_rest h fun u p hu => by
    obtain rfl | rfl := hi
    · obtain ⟨_, -, -, rfl⟩ := phrstEffect_ok hu
      exact ⟨rfl, rfl, fun _ => State.setOsc_mix ..⟩
    · obtain ⟨rfl, -⟩ := triggerEffect_ok hu
      exact ⟨rfl, rfl, fun _ => State.mix_triggerSlot ..⟩
  refine ⟨hcfg, hstatus, htables, hmix, fun k m => ?_⟩
  obtain hosc | ⟨u, p, hu, hosc⟩ := exec_osc h <;> rw [hosc]
  · exact ⟨rfl, rfl, fun _ => rfl, fun _ => rfl⟩
  · obtain e | ⟨hnamed, e⟩ := phaseReset_osc hi hu k m <;> rw [e]
    · exact ⟨rfl, rfl, fun _ => rfl, fun _ => rfl⟩
    · obtain ⟨hcc, hout, hparam⟩ := (s.osc k m).phaseReset_keeps
      exact ⟨hcc, hout, hparam, fun hn => absurd hnamed hn⟩

/-! Operand faults. -/

/-- An operand of OSCSTEP that is an infinity or NaN faults 0x05, then a negative dt 0x06 (60_exceptions R305). -/
theorem oscstepEffect_of_bad_operand (s : State) (sl : BitVec 5) (j : OscNo) (f dt : F64) :
    ((F64.isFinite f && F64.isFinite dt) = false →
      oscstepEffect sl (BitVec.ofNat 2 j) f dt s = .error (.raise .numeric)) ∧
    ((F64.isFinite f && F64.isFinite dt) = true → F64.lt dt F64.zero = true →
      oscstepEffect sl (BitVec.ofNat 2 j) f dt s = .error (.raise .badOperand)) := by
  simp only [oscstepEffect, oscAt_ofNat]
  exact ⟨fun h => by rw [h]; rfl, fun h hneg => by rw [h, hneg]; rfl⟩

/-- The operand faults of VOICESTEP, in the same order. -/
theorem voicestepEffect_of_bad_operand (s : State) (sl : BitVec 5) (f0 f1 f2 dt : F64) :
    ((F64.isFinite f0 && F64.isFinite f1 && F64.isFinite f2 && F64.isFinite dt) = false →
      voicestepEffect sl f0 f1 f2 dt s = .error (.raise .numeric)) ∧
    ((F64.isFinite f0 && F64.isFinite f1 && F64.isFinite f2 && F64.isFinite dt) = true → F64.lt dt F64.zero = true →
      voicestepEffect sl f0 f1 f2 dt s = .error (.raise .badOperand)) := by
  simp only [voicestepEffect, slotIndex_eq]
  exact ⟨fun h => by rw [h]; rfl, fun h hneg => by rw [h, hneg]; rfl⟩

/-- A frequency of PREVIEW that is an infinity or NaN faults 0x05. -/
theorem previewEffect_of_not_finite (s : State) (sl : BitVec 5) (j : OscNo) (n : BitVec 12) {f : F64}
    (hf : F64.isFinite f = false) : previewEffect sl (BitVec.ofNat 2 j) n f s = .error (.raise .numeric) := by
  simp only [previewEffect, oscAt_ofNat, previewLength_eq, hf, Bool.not_false, if_true]

/-- Settles O46: the check of the operands, then the sign of dt, before any step. -/
theorem stepOperandFaults : Obligations.StepOperandFaults := by
  intro s sl j hs
  refine ⟨fun f dt => ?_, fun f0 f1 f2 dt => ?_, fun n f hf => ?_⟩
  · obtain ⟨hnum, hneg⟩ := oscstepEffect_of_bad_operand s sl j f dt
    rw [Bool.and_eq_false_iff] at hnum
    rw [Bool.and_eq_true_iff] at hneg
    exact ⟨fun h => exec_of_effect_raise hs (hnum h), fun hf hdt h => exec_of_effect_raise hs (hneg ⟨hf, hdt⟩ h)⟩
  · obtain ⟨hnum, hneg⟩ := voicestepEffect_of_bad_operand s sl f0 f1 f2 dt
    simp only [Bool.and_eq_false_iff, or_assoc] at hnum
    simp only [Bool.and_eq_true_iff, and_assoc] at hneg
    exact ⟨fun h => exec_of_effect_raise hs (hnum h),
      fun h0 h1 h2 hdt h => exec_of_effect_raise hs (hneg ⟨h0, h1, h2, hdt⟩ h)⟩
  · exact exec_of_effect_raise hs (previewEffect_of_not_finite s sl j n hf)

/-! The frame of OSCSTEP. -/

/-- Settles O50: OSCSTEP writes one oscillator, and of its lanes the active ones. -/
theorem oscstepFrame : Obligations.OscstepFrame := by
  intro s t sl j f dt h
  obtain ⟨hcfg, hstatus, htables, hmix⟩ := exec_keeps_rest h fun u p hu => by
    obtain ⟨_, _, -, -, -, -, -, -, rfl⟩ := oscstepEffect_ok hu
    exact ⟨rfl, rfl, fun _ => State.setOsc_mix ..⟩
  refine ⟨hcfg, hstatus, htables, hmix, fun k m => ?_⟩
  obtain hosc | ⟨u, p, hu, hosc⟩ := exec_osc h <;> rw [hosc]
  · exact ⟨fun _ => rfl, fun _ _ => rfl, fun _ => rfl⟩
  · obtain ⟨j', r, hj, -, -, -, hr, -, rfl⟩ := oscstepEffect_ok hu
    by_cases hnamed : k = slotNo sl ∧ m = j'
    · obtain ⟨rfl, rfl⟩ := hnamed
      rw [State.osc_setOsc_self]
      obtain ⟨-, hidle, -⟩ := oscCore_lanes hr
      exact ⟨Osc.stepped_param _ _ _ _, hidle, fun hn => absurd ⟨rfl, oscIndex_val hj⟩ hn⟩
    · rw [State.osc_setOsc_of_ne _ _ hnamed]
      exact ⟨fun _ => rfl, fun _ _ => rfl, fun _ => rfl⟩

/-! A step of no time. -/

/-- A command that leaves a running block running has completed. -/
theorem exec_completed {i : Instr} {s t : State} (h : exec i s = .next t) (hs : s.status.halted = false)
    (ht : t.status.halted = false) : ∃ u p, effect i s = .ok (u, p) ∧ t = u.reply okHeader p := by
  obtain ⟨hh, -, -⟩ | hok | ⟨c, -, -, rfl⟩ := exec_next h
  · exact absurd hh (ne_true_of_eq_false hs)
  · exact hok
  · cases ht

theorem F64.mag_of_eq_zero {x : F64} (h : F64.eq x F64.zero = true) : F64.mag x = 0 := by
  simp only [F64.eq, Bool.and_eq_true, decide_eq_true_eq] at h
  have h0 : F64.ord x = 0 := h.2
  unfold F64.ord at h0
  split at h0 <;> omega

/-- An advance of no time that is finite is a zero (42 R212). -/
theorem laneAdvance_of_zero {c : Config} {f spread dt : F64} {i : Nat} (hdt : F64.mag dt = 0)
    (h : F64.isFinite (laneAdvance c f spread dt i) = true) : F64.scaled (laneAdvance c f spread dt i) = 0 := by
  unfold laneAdvance at h ⊢
  generalize F64.div (F64.mul (laneHz f spread i) (F64.ofNat c.p)) c.fs = v at *
  have hv : F64.isFinite v = true := by
    refine Bool.eq_true_of_not_eq_false fun hv => ?_
    rw [F64.mul_not_finite_zero hv hdt] at h
    cases h
  rw [F64.mul_zero hv hdt, F64.scaled_eq_zero, F64.mag_make (by decide)]

/-- A legal position moved by a zero stays, bit for bit, and is not flagged (42 R214, R225 (e)). -/
theorem wrap_add_zero {p : Nat} {x adv : F64} (hp0 : 0 < p) (hp : p ≤ 65535) (hx : lanePosition p x)
    (hadv : F64.isFinite adv = true) (h0 : F64.scaled adv = 0) : wrap p (F64.add x adv) = (x, false) := by
  obtain ⟨hf, -, -⟩ := lanePosition_finite hp hx
  obtain ⟨hle, hlt, hneg⟩ := hx
  have hP := (period_spec hp0 hp).1
  obtain ⟨hsum, hval⟩ := F64.scaled_add_exact hf hadv (F64.isFinite_iff.1 hf)
    (by rw [h0, add_zero, F64.natAbs_scaled])
  rw [h0, add_zero] at hval
  have hflag : (wrap p (F64.add x adv)).2 = false := by
    rw [wrap_flag, F64.le_iff F64.isFinite_zero hsum, F64.lt_iff hsum hP, hval, ← F64.le_iff F64.isFinite_zero hf,
      ← F64.lt_iff hf hP]
    exact ⟨hle, hlt⟩
  refine Prod.ext (F64.eq_of_scaled (wrap_lanePosition hp0 hp hsum).2.2 hneg ?_) hflag
  rw [← hval, ← F64.toRat_inj]
  exact toRat_wrap_of_inside hsum hflag

/-- A step of no time from legal lanes that completes holds every lane and flags none (42 R225 (e)). -/
theorem oscCore_of_zero_dt {c : Config} {tables : Vector TableSlot Config.numTbl} {o : Osc}
    {pos : Vector F64 Config.maxUnison} {f dt : F64} {r : StepResult} (h : oscCore c tables o pos f dt = .ok r)
    (hpos : ∀ i : LaneNo, lanePosition c.p pos[i]) (hdt : F64.eq dt F64.zero = true) : r.pos = pos ∧ r.cc = false := by
  obtain ⟨hactive, hidle, hcc⟩ := oscCore_lanes h
  have hp := two_le_p c
  have hheld : ∀ i : LaneNo, i.val < o.numVoices.toNat →
      wrap c.p (F64.add pos[i] (laneAdvance c f o.voiceSpread dt i.val)) = (pos[i], false) := fun i hi =>
    wrap_add_zero (by omega) (p_le c) (hpos i) (hactive i hi).1
      (laneAdvance_of_zero (F64.mag_of_eq_zero hdt) (hactive i hi).1)
  refine ⟨Vector.ext fun n hn => ?_, Bool.eq_false_of_not_eq_true fun hflag => ?_⟩
  · obtain hi | hi := lt_or_ge n o.numVoices.toNat
    · exact (hactive ⟨n, hn⟩ hi).2.trans (congrArg Prod.fst (hheld ⟨n, hn⟩ hi))
    · exact hidle ⟨n, hn⟩ hi
  · obtain ⟨i, hi, hwrapped⟩ := hcc.1 hflag
    rw [hheld i hi] at hwrapped
    cases hwrapped

/-- The number of an oscillator, as OSC, names it. -/
theorem oscIndex_ofNat (j : OscNo) : oscIndex (BitVec.ofNat 2 j) = .ok j := by
  revert j; decide

/-- Settles O57: the OSCSTEP completed, with a step of no time. -/
theorem zeroDtHoldsPositions : Obligations.ZeroDtHoldsPositions := by
  intro s t sl j f dt hpos hdt h hs ht
  obtain ⟨u, p, hu, rfl⟩ := exec_completed h hs ht
  obtain ⟨j', r, hj, -, -, -, hr, -, rfl⟩ := oscstepEffect_ok hu
  obtain rfl : j' = j := Except.ok.inj (hj.symm.trans (oscIndex_ofNat j))
  rw [State.reply_osc, State.osc_setOsc_self]
  exact oscCore_of_zero_dt hr (hpos _ _) hdt

end Sys2Proof.Machine
end

section
/-! PROOFS. O43, O51, O55, O56: what a VOICESTEP does, said once for its three oscillators together (43_voice R252), and
read off as its completion, its frame, its hard sync and its equality with three OSCSTEPs. -/

namespace Sys2Proof.Machine

/-! The three steps of a VOICESTEP. -/

/-- But for the slave of a hard sync, an oscillator starts a VOICESTEP from its own lanes (43 R252). -/
theorem startLanes_of_not_synced {j : OscNo} {o : Osc} {c0 : Bool} (h : ¬(j = 1 ∧ o.sync = 1 ∧ c0 = true)) :
    startLanes j o c0 = o.pos := by
  refine if_neg fun hsync => h ?_
  simp only [Bool.and_eq_true, decide_eq_true_eq] at hsync
  obtain ⟨⟨hj, ho⟩, hc⟩ := hsync
  exact ⟨Fin.ext hj, ho, hc⟩

/-- The results of a VOICESTEP, in the order of its oscillators. -/
def voiceResults (r : OscNo → StepResult) : List (OscNo × StepResult) := [(0, r 0), (1, r 1), (2, r 2)]

/-- The mix of a VOICESTEP over oscillators `o` with results `r` (43 R252). -/
def voiceMix (o : OscNo → Osc) (r : OscNo → StepResult) : F64 :=
  mixDown [((o 0).level, (r 0).out), ((o 1).level, (r 1).out), ((o 2).level, (r 2).out)]

/-- The steps of a VOICESTEP that completes are one step of each oscillator, from its start lanes. -/
theorem voiceCore_steps {s : State} {sl : SlotNo} {f : OscNo → F64} {dt : F64} {rs : List (OscNo × StepResult)}
    (h : voiceCore s sl (f 0) (f 1) (f 2) dt = .ok rs) :
    ∃ r : OscNo → StepResult, rs = voiceResults r ∧
      ∀ j, oscCore s.cfg s.tables (s.osc sl j) (startLanes j (s.osc sl j) (r 0).cc) (f j) dt = .ok (r j) := by
  obtain ⟨r0, r1, r2, rfl, h0, h1, h2⟩ := voiceCore_ok h
  rw [← startLanes_1] at h1
  refine ⟨![r0, r1, r2], rfl, fun j => ?_⟩
  fin_cases j
  · exact h0
  · exact h1
  · exact h2

/-- Every oscillator of the slot holds its result, every other one is as it was. -/
theorem State.osc_voiceWrite_results (s : State) (sl k : SlotNo) (r : OscNo → StepResult) (m : F64) (j : OscNo) :
    (s.voiceWrite sl (voiceResults r) m).osc k j =
      if k = sl then (s.osc k j).stepped (r j).pos (r j).out (r j).cc else s.osc k j := by
  rw [voiceResults, State.osc_voiceWrite]
  fin_cases j <;> rfl

/-- A VOICESTEP that completes: its operands passed their checks, each oscillator took its step, and the results and the
mix are written and answered. -/
theorem voicestepEffect_steps {sl : BitVec 5} {f : OscNo → F64} {dt : F64} {s u : State} {p : List Word}
    (h : voicestepEffect sl (f 0) (f 1) (f 2) dt s = .ok (u, p)) :
    ∃ r : OscNo → StepResult, (∀ j, F64.isFinite (f j) = true) ∧ F64.isFinite dt = true ∧
      F64.lt dt F64.zero = false ∧
      (∀ j, oscCore s.cfg s.tables (s.osc (slotNo sl) j) (startLanes j (s.osc (slotNo sl) j) (r 0).cc) (f j) dt =
        .ok (r j)) ∧
      u = s.voiceWrite (slotNo sl) (voiceResults r) (voiceMix (s.osc (slotNo sl)) r) := by
  obtain ⟨r0, r1, r2, m, ⟨hf0, hf1, hf2, hdt⟩, hneg, hcore, rfl, -, rfl⟩ := voicestepEffect_ok h
  obtain ⟨r, e, hr⟩ := voiceCore_steps hcore
  simp only [voiceResults, List.cons.injEq, Prod.mk.injEq, true_and, and_true] at e
  obtain ⟨rfl, rfl, rfl⟩ := e
  refine ⟨r, fun j => ?_, hdt, hneg, hr, rfl⟩
  fin_cases j
  · exact hf0
  · exact hf1
  · exact hf2

/-! Completion. -/

/-- The steps of a VOICESTEP of a legal block complete when no advance overflows (43 R252). -/
theorem voiceSteps_of_not_overflows {s : State} (hs : s.Legal) (sl : SlotNo) (dt : F64) :
    ∀ (steps : List (OscNo × F64)) (c0 : Bool), (∀ p ∈ steps, ¬ (s.osc sl p.1).overflows s.cfg p.2 dt) →
      ∃ rs, voiceSteps s sl dt steps c0 = .ok rs
  | [], _, _ => ⟨[], rfl⟩
  | (j, f) :: rest, c0, h => by
    obtain ⟨hpos, hparams, hbook⟩ := hs
    obtain ⟨hj, hrest⟩ := List.forall_mem_cons.1 h
    obtain ⟨r, hr⟩ := oscCore_of_not_overflows f dt hbook (hparams sl j) (startLanes_lanePosition hpos sl j c0) hj
    obtain ⟨rs, hrs⟩ := voiceSteps_of_not_overflows ⟨hpos, hparams, hbook⟩ sl dt rest
      (if j.val = 0 then r.cc else c0) hrest
    exact ⟨(j, r) :: rs, by simp only [voiceSteps, hr, hrs]⟩

/-- Every oscillator that a VOICESTEP steps has its own frequency (43 R252). -/
theorem eq_of_mem_voiceOscs {f : OscNo → F64} {p : OscNo × F64} (h : p ∈ voiceOscs (f 0) (f 1) (f 2)) :
    p = (p.1, f p.1) := by
  simp only [voiceOscs_eq, List.mem_cons, List.not_mem_nil, or_false] at h
  obtain rfl | rfl | rfl := h <;> rfl

/-- With operands that pass their checks, VOICESTEP writes and answers what its steps give (43 R252). -/
theorem voicestepEffect_of_ok {s : State} (sl : BitVec 5) {f : OscNo → F64} {dt : F64} {r : OscNo → StepResult}
    (hf : ∀ j, F64.isFinite (f j) = true) (hdt : F64.isFinite dt = true) (hneg : F64.lt dt F64.zero = false)
    (h : voiceCore s (slotNo sl) (f 0) (f 1) (f 2) dt = .ok (voiceResults r)) :
    voicestepEffect sl (f 0) (f 1) (f 2) dt s =
      .ok (s.voiceWrite (slotNo sl) (voiceResults r) (voiceMix (s.osc (slotNo sl)) r),
        [voiceMix (s.osc (slotNo sl)) r, flagsWord [(r 0).cc, (r 1).cc, (r 2).cc]]) := by
  simp only [voicestepEffect, slotIndex_eq, hf, hdt, hneg, h]
  rfl

/-- Settles O43: the three steps complete, each is the step of the rule, and their results are written. -/
theorem voicestepCompletes : Obligations.VoicestepCompletes := by
  intro s sl f dt hs hlegal hf hdt hneg o hadv
  obtain ⟨rs, hcore⟩ := voiceSteps_of_not_overflows hlegal (slotNo sl) dt (voiceOscs (f 0) (f 1) (f 2)) false
    fun p hp => by
      rw [eq_of_mem_voiceOscs hp]
      exact Osc.not_overflows.2 (hadv p.1)
  obtain ⟨r, rfl, hr⟩ := voiceCore_steps hcore
  obtain ⟨-, hparams, hbook⟩ := hlegal
  have hstep : ∀ j, steppedTo s (o j) (startLanes j (o j) (r 0).cc) (f j) dt (r j) := fun j =>
    oscCore_steppedTo (hparams _ j).waveIndex_finite (hparams _ j).numVoices_le hbook (hr j)
  have hstep1 := hstep 1
  rw [startLanes_1] at hstep1
  refine ⟨r, voiceMix o r, s.voiceWrite (slotNo sl) (voiceResults r) (voiceMix o r), hstep 0, hstep1, hstep 2,
    mixDown_eq .., fun k j => ?_, fun k => State.mix_voiceWrite .., State.voiceWrite_cfg .., State.voiceWrite_status ..,
    State.voiceWrite_tables .., State.voiceWrite_port .., ?_⟩
  · rw [State.osc_voiceWrite_results]
    split
    · rename_i hk
      rw [hk]
      rfl
    · rfl
  · have heffect := voicestepEffect_of_ok sl hf hdt hneg hcore
    rw [flagsWord_eq] at heffect
    exact exec_of_effect_ok hs heffect

/-! The frame and the hard sync. -/

/-- A command has left the block as it was, but for the record of a fault, or it has completed. -/
theorem exec_kept_or_completed {i : Instr} {s t : State} (h : exec i s = .next t) :
    (t.cfg = s.cfg ∧ t.slots = s.slots ∧ s.statusKept t i.word ∧ t.tables = s.tables) ∨
      ∃ u p, effect i s = .ok (u, p) ∧ t = u.reply okHeader p := by
  obtain ⟨-, -, rfl⟩ | hok | ⟨c, -, -, rfl⟩ := exec_next h
  · exact .inl ⟨rfl, rfl, .inl rfl, rfl⟩
  · exact .inr hok
  · exact .inl ⟨rfl, rfl, .inr ⟨c, rfl⟩, rfl⟩

/-- The voice slots hold the oscillators and the mixes. -/
theorem State.osc_of_slots {s t : State} (h : t.slots = s.slots) (k : SlotNo) (m : OscNo) : t.osc k m = s.osc k m := by
  rw [State.osc, h, State.osc]

theorem State.mix_of_slots {s t : State} (h : t.slots = s.slots) (k : SlotNo) : t.mix k = s.mix k := by
  rw [State.mix, h, State.mix]

/-- Settles O51: a VOICESTEP that completes writes the three oscillators and the mix of its slot, and of the lanes of
each the active ones, unless it starts from a hard sync. -/
theorem voicestepFrame : Obligations.VoicestepFrame := by
  intro s t sl f0 f1 f2 dt h
  obtain ⟨hcfg, hslots, hstatus, htables⟩ | ⟨u, p, hu, rfl⟩ := exec_kept_or_completed h
  · refine ⟨hcfg, hstatus, State.tableKept_of_tables htables, fun k _ => State.mix_of_slots hslots k, fun k m => ?_⟩
    rw [State.osc_of_slots hslots]
    exact ⟨fun _ => rfl, fun _ _ _ => rfl, fun _ => rfl⟩
  · obtain ⟨r, -, -, -, hr, rfl⟩ := voicestepEffect_steps (f := ![f0, f1, f2]) hu
    generalize voiceMix (s.osc (slotNo sl)) r = mix
    refine ⟨State.voiceWrite_cfg _ _ _ mix, .inl (State.voiceWrite_status _ _ _ mix),
      State.tableKept_of_tables (State.voiceWrite_tables _ _ _ mix), fun k hk => ?_, fun k m => ?_⟩
    · rw [State.reply_mix, State.mix_voiceWrite, if_neg hk]
    · simp only [State.reply_osc, State.osc_voiceWrite_results]
      by_cases hk : k = slotNo sl
      · subst hk
        simp only [if_true, Osc.stepped_cc, Osc.stepped_pos]
        obtain ⟨-, hidle, -⟩ := oscCore_lanes (hr m)
        refine ⟨Osc.stepped_param _ _ _ _, fun i hi hsync => ?_, fun hk => absurd rfl hk⟩
        rw [hidle i hi, startLanes_of_not_synced]
        rintro ⟨rfl, hon, hwrapped⟩
        exact hsync ⟨rfl, hon, hwrapped⟩
      · simp [hk]

/-- Settles O55: the slave started from lanes at +0.0. -/
theorem hardSyncRestartsLanes : Obligations.HardSyncRestartsLanes := by
  intro s t sl f0 f1 f2 dt h hs ht o hon hwrapped i
  obtain ⟨u, p, hu, rfl⟩ := exec_completed h hs ht
  obtain ⟨r, -, -, -, hr, rfl⟩ := voicestepEffect_steps (f := ![f0, f1, f2]) hu
  rw [State.reply_osc, State.osc_voiceWrite_results, if_pos rfl] at hwrapped ⊢
  have hslave := hr 1
  rw [startLanes_1, if_pos ⟨hon, hwrapped⟩] at hslave
  obtain ⟨hactive, hidle, -⟩ := oscCore_lanes hslave
  split
  · rename_i hi
    rw [Osc.stepped_pos, (hactive i hi).2, zeroLanes_get]
    rfl
  · rename_i hi
    rw [Osc.stepped_pos, hidle i (not_lt.1 hi), zeroLanes_get]

/-! A VOICESTEP without hard sync and three OSCSTEPs. -/

/-- In a running block `t` with the CFG, tables and registers `o` of an oscillator, OSCSTEP with operands that pass their
checks writes what the step of `o` gives (42 R222). -/
theorem exec_oscstep {c : Config} {tables : Vector TableSlot Config.numTbl} {o : Osc} {f dt : F64} {r : StepResult}
    (hf : F64.isFinite f = true) (hdt : F64.isFinite dt = true) (hneg : F64.lt dt F64.zero = false)
    (h : oscCore c tables o o.pos f dt = .ok r) {t : State} {sl : BitVec 5} {j : OscNo}
    (ht : t.status.halted = false ∧ t.cfg = c ∧ t.tables = tables ∧ t.osc (slotNo sl) j = o) :
    exec (.oscstep sl (BitVec.ofNat 2 j) f dt) t =
      .next ((t.setOsc (slotNo sl) j (o.stepped r.pos r.out r.cc)).reply 0 [r.out, flagWord r.cc]) := by
  obtain ⟨hrun, rfl, rfl, rfl⟩ := ht
  exact exec_of_effect_ok hrun (oscstepEffect_of_ok sl j hf hdt hneg h)

/-- Settles O56: with hard sync off every oscillator of the VOICESTEP started from its own lanes, as its OSCSTEP does. -/
theorem voicestepIsThreeOscsteps : Obligations.VoicestepIsThreeOscsteps := by
  intro s t sl f0 f1 f2 dt h hs ht k hoff
  obtain ⟨u, p, hu, rfl⟩ := exec_completed h hs ht
  obtain ⟨r, hf, hdt, hneg, hr, rfl⟩ := voicestepEffect_steps (f := ![f0, f1, f2]) hu
  have hstep : ∀ j, oscCore s.cfg s.tables (s.osc k j) (s.osc k j).pos (![f0, f1, f2] j) dt = .ok (r j) := fun j => by
    rw [← hr j, startLanes_of_not_synced]
    rintro ⟨rfl, hon, -⟩
    rw [hoff] at hon
    cases hon
  refine ⟨_, _, _, exec_oscstep (j := 0) (hf 0) hdt hneg (hstep 0) ⟨hs, rfl, rfl, rfl⟩,
    exec_oscstep (j := 1) (hf 1) hdt hneg (hstep 1) ⟨hs, rfl, rfl, ?_⟩,
    exec_oscstep (j := 2) (hf 2) hdt hneg (hstep 2) ⟨hs, rfl, rfl, ?_⟩, ?_⟩
  · simp [k, State.osc_setOsc]
  · simp [k, State.osc_setOsc]
  · simp only [State.reply_osc, State.osc_setOsc, k]
    exact ⟨rfl, rfl, rfl, rfl⟩

end Sys2Proof.Machine
end

section
/-! PROOFS. O44, O58: the samples of a PREVIEW (43_voice R253), and what the steps read: that a command computes the same
in two blocks which agree on what it reads (43 R250; 60_exceptions R325). -/

namespace Sys2Proof.Machine

/-! The samples of a preview. -/

/-- The lanes after one more sample of a preview: those of the step, or as they were where there is none (43 R253). -/
def previewLanes (c : Config) (tables : Vector TableSlot Config.numTbl) (o : Osc) (f : F64)
    (q : Vector F64 Config.maxUnison) : Vector F64 Config.maxUnison :=
  match oscCore c tables o q f F64.one with
  | .ok r => r.pos
  | .error _ => q

/-- Every sample of a preview that completes is one of a step from the lanes that the steps before it left (43 R253). -/
theorem previewFrom_steps {c : Config} {tables : Vector TableSlot Config.numTbl} {o : Osc} {f : F64} {n : Nat}
    {q : Vector F64 Config.maxUnison} {ys : List Word} (h : previewFrom c tables o f n q = .ok ys) :
    ∀ (k : Nat) (hk : k < ys.length), ∃ r, oscCore c tables o ((previewLanes c tables o f)^[k] q) f F64.one = .ok r ∧
      ys[k] = r.out ∧ (previewLanes c tables o f)^[k + 1] q = r.pos := by
  induction n generalizing q ys with
  | zero =>
    cases h
    exact fun k hk => absurd hk (Nat.not_lt_zero k)
  | succ n ih =>
    unfold previewFrom at h
    split at h
    · cases h
    rename_i r hr
    split at h
    · cases h
    rename_i zs hzs
    cases h
    have hnext : previewLanes c tables o f q = r.pos := by simp only [previewLanes, hr]
    intro k hk
    cases k with
    | zero => exact ⟨r, hr, rfl, hnext⟩
    | succ k =>
      rw [← hnext] at hzs
      exact ih hzs k (Nat.lt_of_succ_lt_succ hk)

/-- A preview of a legal block completes from legal lanes when no advance overflows (43 R253). -/
theorem previewFrom_of_not_overflows {s : State} {o : Osc} {f : F64} (hb : s.BookkeepingLegal)
    (ho : o.paramsLegal s.cfg) (hadv : ¬ o.overflows s.cfg f F64.one) (n : Nat) {q : Vector F64 Config.maxUnison}
    (hq : ∀ i : LaneNo, lanePosition s.cfg.p q[i]) : ∃ ys, previewFrom s.cfg s.tables o f n q = .ok ys := by
  induction n generalizing q with
  | zero => exact ⟨[], rfl⟩
  | succ n ih =>
    obtain ⟨r, hr⟩ := oscCore_of_not_overflows f F64.one hb ho hq hadv
    obtain ⟨ys, hys⟩ := ih (oscCore_lanePosition hr hq)
    exact ⟨r.out :: ys, by simp only [previewFrom, hr, hys]⟩

/-- With a finite frequency, PREVIEW answers its samples and writes nothing (43 R253). -/
theorem previewEffect_of_ok {s : State} (sl : BitVec 5) (j : OscNo) {n : BitVec 12} {f : F64} {ys : List Word}
    (hf : F64.isFinite f = true)
    (h : previewFrom s.cfg s.tables (s.osc (slotNo sl) j) f n.toNat zeroLanes = .ok ys) :
    previewEffect sl (BitVec.ofNat 2 j) n f s = .ok (s, ys) := by
  simp [previewEffect, oscAt_ofNat, previewLength_eq, hf, h]

/-- Settles O44: the preview completes, and each of its samples is that of a step of the rule. -/
theorem previewCompletes : Obligations.PreviewCompletes := by
  intro s sl j n f hs hlegal hf o hadv
  obtain ⟨-, hparams, hbook⟩ := hlegal
  have ho := hparams (slotNo sl) j
  obtain ⟨ys, hys⟩ := previewFrom_of_not_overflows hbook ho (Osc.not_overflows.2 hadv) n.toNat
    (zeroLanes_lanePosition s.cfg)
  refine ⟨ys, fun k => (previewLanes s.cfg s.tables o f)^[k] zeroLanes, previewFrom_length hys, rfl,
    exec_of_effect_ok hs (previewEffect_of_ok sl j hf hys), fun k hk => ?_⟩
  obtain ⟨r, hr, hout, hnext⟩ := previewFrom_steps hys k hk
  exact ⟨r, oscCore_steppedTo ho.waveIndex_finite ho.numVoices_le hbook hr, hout, hnext⟩

/-! What the steps read. -/

/-- A step reads NUM_VOICES, VOICE_SPREAD, WAVE_INDEX and WAVETABLE of its oscillator, and no other register (42 R220). -/
theorem oscCore_congr {o o' : Osc} (hvoices : o'.numVoices = o.numVoices) (hspread : o'.voiceSpread = o.voiceSpread)
    (hwave : o'.waveIndex = o.waveIndex) (htable : o'.wavetable = o.wavetable) (c : Config)
    (tables : Vector TableSlot Config.numTbl) (posin : Vector F64 Config.maxUnison) (f dt : F64) :
    oscCore c tables o' posin f dt = oscCore c tables o posin f dt := by
  simp only [oscCore, hvoices, hspread, hwave, htable]

/-- A preview reads the same registers (43 R253). -/
theorem previewFrom_congr {o o' : Osc} (hvoices : o'.numVoices = o.numVoices) (hspread : o'.voiceSpread = o.voiceSpread)
    (hwave : o'.waveIndex = o.waveIndex) (htable : o'.wavetable = o.wavetable) (c : Config)
    (tables : Vector TableSlot Config.numTbl) (f : F64) (n : Nat) (q : Vector F64 Config.maxUnison) :
    previewFrom c tables o' f n q = previewFrom c tables o f n q := by
  induction n generalizing q with
  | zero => rfl
  | succ n ih => simp only [previewFrom, oscCore_congr hvoices hspread hwave htable, ih]

/-- The steps of a VOICESTEP read the oscillators of its slot, table memory and CFG (43 R252). -/
theorem voiceSteps_congr {s s' : State} {sl : SlotNo} (hcfg : s'.cfg = s.cfg) (htables : s'.tables = s.tables)
    (hosc : ∀ m, s'.osc sl m = s.osc sl m) (dt : F64) (steps : List (OscNo × F64)) (c0 : Bool) :
    voiceSteps s' sl dt steps c0 = voiceSteps s sl dt steps c0 := by
  induction steps generalizing c0 with
  | nil => rfl
  | cons step rest ih => simp only [voiceSteps, hcfg, htables, hosc, ih]

/-! Two blocks that run the same command. -/

/-- The response of the same header and payload has been sent in both of two steps `s` to `t` and `s'` to `t'`, each to
the agent that issued the command. -/
def sameAnswer (s s' t t' : State) : Prop :=
  ∃ header payload, t.port.replies = s.port.replies ++ [⟨s.port.holder, header, payload⟩] ∧
    t'.port.replies = s'.port.replies ++ [⟨s'.port.holder, header, payload⟩]

/-- Two commands have computed the same: the same stop, or the same payload with states that agree as `Q` says. -/
inductive SameEffect (Q : State → State → Prop) :
    Except Stop (State × List Word) → Except Stop (State × List Word) → Prop
  | completed {u u' : State} (payload : List Word) (h : Q u u') : SameEffect Q (.ok (u, payload)) (.ok (u', payload))
  | stopped (e : Stop) : SameEffect Q (.error e) (.error e)

/-- Two running blocks in which a command computes the same give the same response; and they agree as its effect says, or
both have recorded a fault, their registers as they were. -/
theorem exec_sameEffect {Q : State → State → Prop} {i : Instr} {s s' t t' : State} (hs : s.status.halted = false)
    (hs' : s'.status.halted = false) (h : SameEffect Q (effect i s) (effect i s')) (ht : exec i s = .next t)
    (ht' : exec i s' = .next t') :
    sameAnswer s s' t t' ∧
      ((∃ u u', Q u u' ∧ t.slots = u.slots ∧ t'.slots = u'.slots) ∨
        (t.status.halted = true ∧ t.slots = s.slots ∧ t'.slots = s'.slots)) := by
  rw [exec_of_running hs] at ht
  rw [exec_of_running hs'] at ht'
  generalize he : effect i s = e at *
  generalize he' : effect i s' = e' at *
  cases h with
  | completed payload hQ =>
    cases ht
    cases ht'
    refine ⟨⟨okHeader, payload, ?_, ?_⟩, .inl ⟨_, _, hQ, rfl, rfl⟩⟩
    · rw [State.reply_replies, effect_port he]
    · rw [State.reply_replies, effect_port he']
  | stopped e =>
    cases e with
    | raise c =>
      cases ht
      cases ht'
      exact ⟨⟨faultHeader c, [], rfl, rfl⟩, .inr ⟨rfl, rfl, rfl⟩⟩
    | stuck f => cases ht

section Independent

variable {s s' : State} {sl : BitVec 5} (hcfg : s'.cfg = s.cfg) (htables : s'.tables = s.tables)

include hcfg htables

/-- OSCSTEP computes the same where its oscillator, table memory and CFG are the same (43 R250). -/
theorem oscstepEffect_same {j : OscNo} (hosc : s'.osc (slotNo sl) j = s.osc (slotNo sl) j) (f dt : F64) :
    SameEffect (fun u u' => u'.osc (slotNo sl) j = u.osc (slotNo sl) j)
      (oscstepEffect sl (BitVec.ofNat 2 j) f dt s) (oscstepEffect sl (BitVec.ofNat 2 j) f dt s') := by
  simp only [oscstepEffect, oscAt_ofNat, hcfg, htables, hosc]
  split
  · exact .stopped _
  split
  · exact .stopped _
  cases oscCore s.cfg s.tables (s.osc (slotNo sl) j) (s.osc (slotNo sl) j).pos f dt with
  | error e => exact .stopped e
  | ok r => exact .completed _ (by rw [State.osc_setOsc_self, State.osc_setOsc_self])

/-- PREVIEW computes the same where the four registers it reads, table memory and CFG are the same (43 R253). -/
theorem previewEffect_same {j : OscNo}
    (hvoices : (s'.osc (slotNo sl) j).numVoices = (s.osc (slotNo sl) j).numVoices)
    (hspread : (s'.osc (slotNo sl) j).voiceSpread = (s.osc (slotNo sl) j).voiceSpread)
    (hwave : (s'.osc (slotNo sl) j).waveIndex = (s.osc (slotNo sl) j).waveIndex)
    (htable : (s'.osc (slotNo sl) j).wavetable = (s.osc (slotNo sl) j).wavetable) (n : BitVec 12) (f : F64) :
    SameEffect (fun _ _ => True)
      (previewEffect sl (BitVec.ofNat 2 j) n f s) (previewEffect sl (BitVec.ofNat 2 j) n f s') := by
  simp only [previewEffect, oscAt_ofNat, previewLength_eq, hcfg, htables,
    previewFrom_congr hvoices hspread hwave htable]
  split
  · exact .stopped _
  cases previewFrom s.cfg s.tables (s.osc (slotNo sl) j) f n.toNat zeroLanes with
  | error e => exact .stopped e
  | ok ys => exact .completed ys trivial

/-- VOICESTEP computes the same where the oscillators of its slot, table memory and CFG are the same (43 R252). -/
theorem voicestepEffect_same (hosc : ∀ m, s'.osc (slotNo sl) m = s.osc (slotNo sl) m) (f0 f1 f2 dt : F64) :
    SameEffect (fun u u' => (∀ m, u'.osc (slotNo sl) m = u.osc (slotNo sl) m) ∧
        u'.mix (slotNo sl) = u.mix (slotNo sl))
      (voicestepEffect sl f0 f1 f2 dt s) (voicestepEffect sl f0 f1 f2 dt s') := by
  simp only [voicestepEffect, slotIndex_eq, voiceCore, voiceSteps_congr hcfg htables hosc, hosc]
  split
  · exact .stopped _
  split
  · exact .stopped _
  cases hcore : voiceSteps s (slotNo sl) dt (voiceOscs f0 f1 f2) false with
  | error e => exact .stopped e
  | ok rs =>
    obtain ⟨r, rfl, -⟩ := voiceCore_steps (f := ![f0, f1, f2]) hcore
    refine .completed _ ⟨fun m => ?_, ?_⟩
    · simp only [State.osc_voiceWrite_results, if_true, hosc]
    · simp only [State.mix_voiceWrite, if_true]

end Independent

/-- Settles O58: each of the three commands computes the same in both blocks. -/
theorem oscillatorsAreIndependent : Obligations.OscillatorsAreIndependent := by
  intro s s' t t' sl j hcfg htables hs hs' k o o' _
  refine ⟨fun ho f dt ht ht' => ?_, fun hvoices hspread hwave htable n f ht ht' => ?_,
    fun hosc f0 f1 f2 dt ht ht' => ?_⟩
  · obtain ⟨hanswer, ⟨u, u', hQ, hu, hu'⟩ | ⟨-, hkept, hkept'⟩⟩ :=
      exec_sameEffect hs hs' (oscstepEffect_same hcfg htables ho f dt) ht ht'
    · exact ⟨hanswer, by rw [State.osc_of_slots hu, State.osc_of_slots hu', hQ]⟩
    · exact ⟨hanswer, by rw [State.osc_of_slots hkept, State.osc_of_slots hkept']; exact ho⟩
  · exact (exec_sameEffect hs hs' (previewEffect_same hcfg htables hvoices hspread hwave htable n f) ht ht').1
  · obtain ⟨hanswer, ⟨u, u', ⟨hQ, hmix⟩, hu, hu'⟩ | ⟨hhalted, hkept, hkept'⟩⟩ :=
      exec_sameEffect hs hs' (voicestepEffect_same hcfg htables hosc f0 f1 f2 dt) ht ht'
    · refine ⟨hanswer, fun m => ?_, fun _ => ?_⟩
      · rw [State.osc_of_slots hu, State.osc_of_slots hu', hQ]
      · rw [State.mix_of_slots hu, State.mix_of_slots hu', hmix]
    · refine ⟨hanswer, fun m => ?_, fun hrunning => ?_⟩
      · rw [State.osc_of_slots hkept, State.osc_of_slots hkept']
        exact hosc m
      · rw [hhalted] at hrunning
        cases hrunning

end Sys2Proof.Machine
end

section
/-! PROOFS. O10, O11, O12: the port without a command, the record of a fault and the halted block (60_exceptions R301,
R306, R309, R329). -/

namespace Sys2Proof.Machine

/-! No command at the port. -/

/-- With no block waiting there is no command, and the port stays as it is (60_exceptions R329). -/
theorem Port.fetch_of_consumed {p : Port} (hc : p.current = []) (hr : p.render = []) (hk : p.control = []) :
    p.fetch = (none, p) := by
  simp only [Port.fetch, Port.acquire, hc, hr, hk]

/-- A step without a command takes the port that the fetch left, and nothing else. -/
theorem step_of_no_command {s : State} {port : Port} (hf : s.port.fetch = (none, port)) :
    step s = .next { s with port := port } := by
  simp only [step, hf]

/-- Settles O10: a step without a command writes the port alone, and a fetch sends no response. -/
theorem idlePortKeepsBlock : Obligations.IdlePortKeepsBlock := by
  refine ⟨fun s port hf => ⟨step_of_no_command hf, ?_⟩, fun s hc hr hk => ?_⟩
  · rw [← Port.fetch_replies s.port, hf]
  · exact step_of_no_command (Port.fetch_of_consumed hc hr hk)

/-! Faults. -/

/-- A command that completes does not halt a running block: STATUS is as it was, at reset, or has its load fields
written. -/
theorem effect_running {i : Instr} {s u : State} {p : List Word} (h : effect i s = .ok (u, p))
    (hs : s.status.halted = false) : u.status.halted = false := by
  obtain e | e | ⟨t, t', r, -, e⟩ := effect_status h <;> rw [e]
  · exact hs
  · rfl
  · exact hs

/-- A step that halts a running block takes the fault of the frame fetched: one of its decoding, or one that its command
raises (60_exceptions R301, R305). -/
theorem step_halts {s t : State} (h : step s = .next t) (hs : s.status.halted = false)
    (ht : t.status.halted = true) :
    ∃ fr port c, s.port.fetch = (some fr, port) ∧ t = { s with port := port }.takeFault c fr.word := by
  obtain ⟨port, -, rfl⟩ | ⟨fr, port, c, hf, -, rfl⟩ | ⟨fr, port, i, hf, hd, h⟩ := step_next h
  · exact absurd ht (ne_true_of_eq_false hs)
  · exact ⟨fr, port, c, hf, if_neg (ne_true_of_eq_false hs)⟩
  · obtain ⟨hh, -, -⟩ | ⟨u, p, hu, rfl⟩ | ⟨c, -, -, rfl⟩ := exec_next h
    · exact absurd hh (ne_true_of_eq_false hs)
    · have hrunning : u.status.halted = false := effect_running hu hs
      exact absurd ht (ne_true_of_eq_false hrunning)
    · have hword : i.word = fr.word := congrArg Frame.word (decodeThenEncode fr i hd)
      exact ⟨fr, port, c, hf, by rw [hword]⟩

/-- Settles O11: the step takes a fault, which writes the three fields and the response. -/
theorem faultsArePrecise : Obligations.FaultsArePrecise := by
  intro s t hs h ht
  obtain ⟨fr, port, c, hf, rfl⟩ := step_halts h hs ht
  exact ⟨fr, port, c, hf, rfl⟩

/-! The halted block. -/

/-- The two commands that a halted block executes are encoded by the exact frames of RESET and RDSTATUS
(30_encoding R134). -/
theorem encode_of_runsHalted {i : Instr} (h : runsHalted i = true) :
    encode i = ⟨0x04000000, []⟩ ∨ encode i = ⟨0x14000000, []⟩ := by
  rw [runsHalted, Bool.or_eq_true, beq_iff_eq, beq_iff_eq] at h
  obtain rfl | rfl := h
  · exact .inl (by decide)
  · exact .inr (by decide)

/-- A halted block ignores every frame but the two (60_exceptions R301). -/
theorem step_of_halted {s : State} {fr : Frame} {port : Port} (hs : s.status.halted = true)
    (hf : s.port.fetch = (some fr, port)) (hreset : fr ≠ ⟨0x04000000, []⟩) (hstatus : fr ≠ ⟨0x14000000, []⟩) :
    step s = .next { s with port := port }.ignore := by
  obtain ⟨hok, herror⟩ := stepRunsDecodedCommand.2 s fr port hf
  cases hd : decodeFrame fr with
  | error c => rw [herror c hd, if_pos hs]
  | ok i =>
    have hi : runsHalted i = false := by
      rw [Bool.eq_false_iff]
      intro hi
      have he := decodeThenEncode fr i hd
      obtain h | h := encode_of_runsHalted hi
      · exact hreset (he.symm.trans h)
      · exact hstatus (he.symm.trans h)
    rw [hok i hd]
    exact exec_of_halted (s := { s with port := port }) hs hi

/-- Settles O12: the two frames decode to RESET and RDSTATUS, which run, and every other frame is ignored. -/
theorem haltedBlockIsQuiescent : Obligations.HaltedBlockIsQuiescent := by
  have hframes : ∀ (s : State) (fr : Frame) (port : Port), s.status.halted = true →
      s.port.fetch = (some fr, port) → step s =
        if fr = ⟨0x04000000, []⟩ then .next ({ s with port := port }.resetSequence.reply 0 [])
        else if fr = ⟨0x14000000, []⟩ then .next ({ s with port := port }.reply 0 [s.status.word])
        else .next ({ s with port := port }.reply 0xFF []) := by
    intro s fr port hs hf
    split
    · rename_i hfr
      subst hfr
      exact (stepRunsDecodedCommand.2 s _ port hf).1 .reset (by decide)
    · rename_i hreset
      split
      · rename_i hfr
        subst hfr
        exact (stepRunsDecodedCommand.2 s _ port hf).1 .rdstatus (by decide)
      · rename_i hstatus
        exact step_of_halted hs hf hreset hstatus
  refine ⟨hframes, fun s t hs h hreset => ?_⟩
  rcases hf : s.port.fetch with ⟨_ | fr, port⟩
  · rw [step_of_no_command hf] at h
    cases h
    exact ⟨rfl, rfl, rfl, rfl⟩
  · have hne : fr ≠ ⟨0x04000000, []⟩ := fun hfr => hreset port (hfr ▸ hf)
    rw [hframes s fr port hs hf, if_neg hne] at h
    split at h <;> cases h <;> exact ⟨rfl, rfl, rfl, rfl⟩

end Sys2Proof.Machine
end

section
/-! PROOFS. O5: the decode faults in their order (30_encoding R124; 60_exceptions R305): the length of a frame is right
exactly when the operand words make a command of its OP. -/

namespace Sys2Proof.Machine

/-! The number of operand words. -/

theorem exactly0_complete {i : Instr} {ops : List Word} : (∃ i', exactly0 i ops = some i') ↔ ops.length = 0 := by
  simp [exactly0_eq_some]

theorem exactly1_complete {f : Word → Instr} {ops : List Word} :
    (∃ i, exactly1 f ops = some i) ↔ ops.length = 1 := by
  simp [exactly1_eq_some, List.length_eq_one_iff]

theorem exactly2_complete {f : Word → Word → Instr} {ops : List Word} :
    (∃ i, exactly2 f ops = some i) ↔ ops.length = 2 := by
  simp [exactly2_eq_some, List.length_eq_two]

theorem exactly4_complete {f : Word → Word → Word → Word → Instr} {ops : List Word} :
    (∃ i, exactly4 f ops = some i) ↔ ops.length = 4 := by
  simp only [exactly4_eq_some]
  constructor
  · rintro ⟨i, a, b, c, d, rfl, -⟩
    rfl
  · intro h
    match ops, h with
    | [a, b, c, d], _ => exact ⟨_, a, b, c, d, rfl, rfl⟩

theorem exactlyBytes_complete {f : Word → List Word → Instr} {ops : List Word} :
    (∃ i, exactlyBytes f ops = some i) ↔ ∃ len data, ops = len :: data ∧ data.length = loadWords len := by
  simp only [exactlyBytes_eq_some]
  constructor
  · rintro ⟨i, len, data, hops, hdata, -⟩
    exact ⟨len, data, hops, hdata⟩
  · rintro ⟨len, data, hops, hdata⟩
    exact ⟨_, len, data, hops, hdata, rfl⟩

/-- The operand words of a frame make a command of its OP exactly when they are as many as it takes (30_encoding R114,
R126; 60_exceptions R313). -/
theorem assemble_complete {fr : Frame} {op : Op} (hop : opcodeOf (opField fr.word) = some op) :
    (∃ i, assemble op fr.word fr.operands = some i) ↔ lengthRight fr := by
  by_cases hload : op = .tblload
  · subst hload
    rw [lengthRight_of_tblload hop]
    exact exactlyBytes_complete
  · rw [lengthRight_of_fixed (by simpa [hop] using hload), hop]
    cases op with
    | tblload => exact absurd rfl hload
    | wrparam | tblrd | preview => exact exactly1_complete
    | oscstep => exact exactly2_complete
    | voicestep => exact exactly4_complete
    | _ => exact exactly0_complete

/-! The faults. -/

/-- An unassigned OP is the first fault (60_exceptions R305). -/
theorem decodeFrame_of_unassigned {fr : Frame} (hop : opcodeOf (opField fr.word) = none) :
    decodeFrame fr = .error .illegalOpcode := by
  simp only [decodeFrame, hop]

section Assigned

variable {fr : Frame} {op : Op} (hop : opcodeOf (opField fr.word) = some op)

include hop

/-- A wrong number of operand words is the second (60_exceptions R305, R313). -/
theorem decodeFrame_of_wrong_length (hlen : ¬ lengthRight fr) : decodeFrame fr = .error .frameLength := by
  have hnone : assemble op fr.word fr.operands = none := by
    rw [Option.eq_none_iff_forall_ne_some]
    exact fun i hi => hlen ((assemble_complete hop).1 ⟨i, hi⟩)
  simp only [decodeFrame, hop, hnone]

/-- A reserved bit is the third (60_exceptions R305). -/
theorem decodeFrame_of_reserved (hlen : lengthRight fr) (hbits : fr.word &&& zeroMask op ≠ 0) :
    decodeFrame fr = .error .reservedBits := by
  obtain ⟨i, hi⟩ := (assemble_complete hop).2 hlen
  simp only [decodeFrame, hop, hi, if_pos hbits]

/-- A frame without a decode fault is a command of its OP with its operand words. -/
theorem decodeFrame_of_right (hlen : lengthRight fr) (hzero : fr.word &&& zeroMask op = 0) :
    ∃ i, decodeFrame fr = .ok i ∧ i.op = op ∧ i.operands = fr.operands := by
  obtain ⟨i, hi⟩ := (assemble_complete hop).2 hlen
  have hd := decodeFrame_eq_ok.2 ⟨op, hop, hi, hzero⟩
  have he := decodeThenEncode fr i hd
  have hopi : some i.op = some op := by rw [← (word_fields i).1, ← hop, ← he]; rfl
  exact ⟨i, hd, Option.some.inj hopi, congrArg Frame.operands he⟩

end Assigned

/-- Settles O5: each check of the decoder, and a running block takes the fault of the first that fails. -/
theorem decodeFaultOrder : Obligations.DecodeFaultOrder := by
  refine ⟨by decide, fun s fr port hs hf => ?_⟩
  have hfault : ∀ c, decodeFrame fr = .error c → step s = .next ({ s with port := port }.takeFault c fr.word) :=
    fun c hd => by rw [(stepRunsDecodedCommand.2 s fr port hf).2 c hd, if_neg (ne_true_of_eq_false hs)]
  refine ⟨fun hop => hfault _ (decodeFrame_of_unassigned hop), fun op hop => ⟨fun hlen => ?_, fun hlen hbits => ?_, ?_⟩⟩
  · exact hfault _ (decodeFrame_of_wrong_length hop hlen)
  · exact hfault _ (decodeFrame_of_reserved hop hlen hbits)
  · exact decodeFrame_of_right hop

end Sys2Proof.Machine
end

section
/-! PROOFS. O14: a legal block never stops (60_exceptions R315): every command has an answer, a next state that is legal
again, and every step takes a command or a block from the port, so that a run comes to its end (70 R355). -/

namespace Sys2Proof.Machine

/-! Every command of a legal block has an answer. -/

/-- A computation gives a value or raises a fault of the block: it is no stop of the model (60_exceptions R315). -/
def Answers {α : Type} (r : Except Stop α) : Prop := ∀ f, r ≠ .error (.stuck f)

@[simp] theorem answers_ok {α : Type} (a : α) : Answers (.ok a : Except Stop α) := nofun

@[simp] theorem answers_raise {α : Type} (c : FaultCode) : Answers (.error (.raise c) : Except Stop α) := nofun

/-- A computation passes on the answer of its part. -/
theorem Answers.of_error {α β : Type} {r : Except Stop α} (h : Answers r) {e : Stop} (he : r = .error e) :
    Answers (.error e : Except Stop β) := fun f hf => h f (he.trans (congrArg Except.error (Except.error.inj hf)))

theorem oscAt_answers (sl : BitVec 5) (j : BitVec 2) : Answers (oscAt sl j) := by
  by_cases h : j.toNat < 3
  · simp [oscAt_of_lt sl h]
  · simp [oscAt_of_ge sl (not_lt.1 h)]

theorem paramIndex_answers (fld : BitVec 4) : Answers (paramIndex fld) := by
  unfold paramIndex
  split <;> simp

theorem laneIndex_answers (lane : BitVec 4) : Answers (laneIndex lane) := by
  unfold laneIndex
  split <;> simp

theorem tableIndex_answers (t : BitVec 12) : Answers (tableIndex t) := by
  unfold tableIndex
  split <;> simp

theorem loadIndex_answers (t : BitVec 12) : Answers (loadIndex t) := by
  unfold loadIndex
  split
  · simp
  · exact tableIndex_answers t

theorem paramValue_answers (c : Config) (f : Param) (v : Word) : Answers (paramValue c f v) := by
  cases f with
  | numVoices | wavetable => exact answers_ok _
  | level | voiceSpread | waveIndex | sync =>
    simp only [paramValue]
    split <;> simp

theorem cfgEntry_answers (c : Config) (fld : BitVec 4) : Answers (cfgEntry c fld) := by
  unfold cfgEntry
  split <;> simp

/-! The commands that take no step: an operand that names nothing faults (30_encoding R114). -/

theorem wrparamEffect_answers (sl : BitVec 5) (j : BitVec 2) (fld : BitVec 4) (tag : BitVec 3) (v : Word) (s : State) :
    Answers (wrparamEffect sl j fld tag v s) := by
  unfold wrparamEffect
  split
  · exact (oscAt_answers sl j).of_error ‹_›
  · exact (paramIndex_answers fld).of_error ‹_›
  · split
    · split
      · exact (paramValue_answers _ _ v).of_error ‹_›
      · simp
    · simp

theorem rdparamEffect_answers (sl : BitVec 5) (j : BitVec 2) (fld : BitVec 4) (s : State) :
    Answers (rdparamEffect sl j fld s) := by
  unfold rdparamEffect
  split
  · exact (oscAt_answers sl j).of_error ‹_›
  · exact (paramIndex_answers fld).of_error ‹_›
  · simp

theorem rdcfgEffect_answers (fld : BitVec 4) (s : State) : Answers (rdcfgEffect fld s) := by
  unfold rdcfgEffect
  split
  · exact (cfgEntry_answers s.cfg fld).of_error ‹_›
  · simp

theorem rdstateEffect_answers (sl : BitVec 5) (j : BitVec 2) (lane : BitVec 4) (s : State) :
    Answers (rdstateEffect sl j lane s) := by
  unfold rdstateEffect
  split
  · exact (oscAt_answers sl j).of_error ‹_›
  · exact (laneIndex_answers lane).of_error ‹_›
  · simp

theorem rdoutEffect_answers (sl : BitVec 5) (j : BitVec 2) (s : State) : Answers (rdoutEffect sl j s) := by
  unfold rdoutEffect
  rw [slotIndex_eq]
  split
  · simp
  · split
    · exact (oscAt_answers sl j).of_error ‹_›
    · simp

theorem tblbuildEffect_answers (t : BitVec 12) (s : State) : Answers (tblbuildEffect t s) := by
  unfold tblbuildEffect
  split
  · exact (tableIndex_answers t).of_error ‹_›
  · simp

theorem tblloadEffect_answers (t : BitVec 12) (len : Word) (data : List Word) (s : State) :
    Answers (tblloadEffect t len data s) := by
  unfold tblloadEffect
  split
  · simp
  · split
    · exact (loadIndex_answers t).of_error ‹_›
    · simp

/-- TBLRD reads a word only where the slot holds it (41 R178). -/
theorem tblrdEffect_answers (t : BitVec 12) (addr : Word) (s : State) : Answers (tblrdEffect t addr s) := by
  cases ht : tableIndex t with
  | error e =>
    simp only [tblrdEffect, ht]
    exact (tableIndex_answers t).of_error ht
  | ok t' =>
    by_cases hr : addrReserved addr = 0
    · by_cases hin : (s.table t').holds s.cfg.p (addrWave addr) (addrOctave addr) (addrSample addr)
      · simp [tblrdEffect_of_holds ht hr hin]
      · simp [tblrdEffect_of_not_holds ht hr hin]
    · simp [tblrdEffect_of_reserved ht hr]

theorem tblinfoEffect_answers (t : BitVec 12) (s : State) : Answers (tblinfoEffect t s) := by
  unfold tblinfoEffect
  split
  · exact (tableIndex_answers t).of_error ‹_›
  · simp

theorem phrstEffect_answers (sl : BitVec 5) (j : BitVec 2) (s : State) : Answers (phrstEffect sl j s) := by
  unfold phrstEffect
  split
  · exact (oscAt_answers sl j).of_error ‹_›
  · simp

theorem triggerEffect_answers (sl : BitVec 5) (s : State) : Answers (triggerEffect sl s) := by
  simp [triggerEffect, slotIndex_eq]

/-! The commands that step an oscillator. -/

section Legal

variable {s : State} (hs : s.Legal)

include hs

/-- A step of an oscillator of a legal block completes or overflows (42 R213). -/
theorem oscCore_answers (sl : SlotNo) (j : OscNo) {pos : Vector F64 Config.maxUnison} (f dt : F64)
    (hpos : ∀ i : LaneNo, lanePosition s.cfg.p pos[i]) :
    Answers (oscCore s.cfg s.tables (s.osc sl j) pos f dt) := by
  obtain ⟨-, hparams, hbook⟩ := hs
  by_cases hover : (s.osc sl j).overflows s.cfg f dt
  · simp [oscCore_of_overflows f dt hbook (hparams sl j) hpos hover]
  · obtain ⟨r, hr⟩ := oscCore_of_not_overflows f dt hbook (hparams sl j) hpos hover
    simp [hr]

/-- The steps of a VOICESTEP of a legal block complete, or one of them overflows (43 R252). -/
theorem voiceCore_answers (sl : SlotNo) (f0 f1 f2 dt : F64) : Answers (voiceCore s sl f0 f1 f2 dt) := by
  by_cases hover : ∃ p ∈ voiceOscs f0 f1 f2, (s.osc sl p.1).overflows s.cfg p.2 dt
  · simp [voiceCore, voiceSteps_of_overflows hs sl dt _ false hover]
  · obtain ⟨rs, hrs⟩ := voiceSteps_of_not_overflows hs sl dt (voiceOscs f0 f1 f2) false
      fun p hp hp' => hover ⟨p, hp, hp'⟩
    simp [voiceCore, hrs]

/-- A preview of a legal block completes or overflows in a step (43 R253). -/
theorem previewFrom_answers (sl : SlotNo) (j : OscNo) (f : F64) (n : Nat) {q : Vector F64 Config.maxUnison}
    (hq : ∀ i : LaneNo, lanePosition s.cfg.p q[i]) : Answers (previewFrom s.cfg s.tables (s.osc sl j) f n q) := by
  induction n generalizing q with
  | zero => exact answers_ok _
  | succ n ih =>
    unfold previewFrom
    split
    · exact (oscCore_answers hs sl j f F64.one hq).of_error ‹_›
    · rename_i r hr
      split
      · exact (ih (oscCore_lanePosition hr hq)).of_error ‹_›
      · simp

theorem oscstepEffect_answers (sl : BitVec 5) (j : BitVec 2) (f dt : F64) : Answers (oscstepEffect sl j f dt s) := by
  have hpos : s.PositionsLegal := hs.1
  unfold oscstepEffect
  split
  · exact (oscAt_answers sl j).of_error ‹_›
  · rename_i k j' _
    split
    · simp
    split
    · simp
    dsimp only
    split
    · exact (oscCore_answers hs k j' f dt (hpos k j')).of_error ‹_›
    · simp

theorem voicestepEffect_answers (sl : BitVec 5) (f0 f1 f2 dt : F64) :
    Answers (voicestepEffect sl f0 f1 f2 dt s) := by
  unfold voicestepEffect
  rw [slotIndex_eq]
  dsimp only
  split
  · simp
  split
  · simp
  split
  · exact (voiceCore_answers hs _ f0 f1 f2 dt).of_error ‹_›
  · simp

theorem previewEffect_answers (sl : BitVec 5) (j : BitVec 2) (n : BitVec 12) (f : F64) :
    Answers (previewEffect sl j n f s) := by
  unfold previewEffect
  rw [previewLength_eq]
  split
  · exact (oscAt_answers sl j).of_error ‹_›
  · simp_all
  · rename_i k j' len _ _
    split
    · simp
    split
    · exact (previewFrom_answers hs k j' f len (zeroLanes_lanePosition s.cfg)).of_error ‹_›
    · simp

/-- No command of a legal block is stuck (60_exceptions R315). -/
theorem effect_answers (i : Instr) : Answers (effect i s) := by
  cases i with
  | nop | reset | rdstatus => exact answers_ok _
  | wrparam sl j fld tag v => exact wrparamEffect_answers sl j fld tag v s
  | rdparam sl j fld => exact rdparamEffect_answers sl j fld s
  | rdcfg fld => exact rdcfgEffect_answers fld s
  | rdstate sl j lane => exact rdstateEffect_answers sl j lane s
  | rdout sl j => exact rdoutEffect_answers sl j s
  | tblbuild t => exact tblbuildEffect_answers t s
  | tblload t len data => exact tblloadEffect_answers t len data s
  | tblrd t addr => exact tblrdEffect_answers t addr s
  | tblinfo t => exact tblinfoEffect_answers t s
  | phrst sl j => exact phrstEffect_answers sl j s
  | oscstep sl j f dt => exact oscstepEffect_answers hs sl j f dt
  | trigger sl => exact triggerEffect_answers sl s
  | voicestep sl f0 f1 f2 dt => exact voicestepEffect_answers hs sl f0 f1 f2 dt
  | preview sl j n f => exact previewEffect_answers hs sl j n f

end Legal

/-! Progress. -/

/-- A command whose effect is an answer gives a next state: it completes, faults or is ignored. -/
theorem exec_of_answers {i : Instr} {s : State} (h : Answers (effect i s)) : ∃ t, exec i s = .next t := by
  have hsettle : ∃ t, settle i.word s (effect i s) = .next t := by
    match he : effect i s with
    | .ok (u, p) => exact ⟨_, rfl⟩
    | .error (.raise c) => exact ⟨_, rfl⟩
    | .error (.stuck f) => exact absurd he (h f)
  rw [exec_eq, command]
  split
  · exact hsettle
  split
  · exact ⟨_, rfl⟩
  · exact hsettle

/-- A step of a legal block gives a next state (60_exceptions R315). -/
theorem step_of_legal {s : State} (hs : s.Legal) : ∃ t, step s = .next t := by
  rcases hf : s.port.fetch with ⟨_ | fr, port⟩
  · exact ⟨_, step_of_no_command hf⟩
  · obtain ⟨hok, herror⟩ := stepRunsDecodedCommand.2 s fr port hf
    cases hd : decodeFrame fr with
    | error c => exact ⟨_, herror c hd⟩
    | ok i =>
      rw [hok i hd]
      exact exec_of_answers (effect_answers (s := { s with port := port }) hs i)

/-- Every step keeps a legal block legal (10_state R32, R38, R48). -/
theorem step_keeps_legal {s t : State} (hs : s.Legal) (h : step s = .next t) : t.Legal := by
  obtain ⟨hpos, hparams, hbook⟩ := hs
  exact ⟨lanePositionsKept s t hpos h, parametersKept s t hparams h, bookkeepingKept s t hbook h⟩

/-! The end of a run. -/

/-- The steps that are enough to empty a port: one for each command, and one for each block, since a step that takes an
empty block takes no command. -/
def Port.stepsLeft (p : Port) : Nat := p.pending + (p.render.length + p.control.length)

/-- Taking the lock neither adds nor drops a command (20_memory R95). -/
theorem Port.acquire_pending {p : Port} (h : p.current = []) : p.acquire.pending = p.pending := by
  obtain ⟨-, -, e⟩ | ⟨b, g, hb, e⟩ | ⟨b, g, hb, e⟩ := p.acquire_cases <;> rw [e]
  all_goals
    simp only [Port.pending, h, hb, List.flatten_cons, List.length_append, List.length_nil]
    omega

/-- A fetch takes one command from those the port holds, or none (20_memory R94). -/
theorem Port.fetch_pending (p : Port) : p.fetch.2.pending + p.fetch.1.toList.length = p.pending := by
  unfold Port.fetch
  split
  · rename_i fr rest hc
    simp only [Port.pending, hc, Option.toList_some, List.length_cons, List.length_nil]
    omega
  · rename_i hc
    rw [← Port.acquire_pending hc]
    split
    · rename_i fr rest hblock
      simp only [Port.pending, hblock, Option.toList_some, List.length_cons, List.length_nil]
      omega
    · simp

/-- Where a command or a block is left, a fetch takes one of them. -/
theorem Port.fetch_stepsLeft {p : Port} (h : ¬(p.current = [] ∧ p.render = [] ∧ p.control = [])) :
    p.fetch.2.stepsLeft < p.stepsLeft := by
  have hpending := p.fetch_pending
  unfold Port.stepsLeft
  cases hc : p.current with
  | cons fr rest =>
    rw [Port.fetch_of_current hc] at hpending ⊢
    simp only [Option.toList_some, List.length_cons, List.length_nil] at hpending ⊢
    omega
  | nil =>
    rw [Port.fetch_of_idle hc] at hpending ⊢
    obtain ⟨hr, hk, -⟩ | ⟨b, g, hb, e⟩ | ⟨b, g, hb, e⟩ := p.acquire_cases
    · exact absurd ⟨hc, hr, hk⟩ h
    · have hkept : p.acquire.control = p.control := by rw [e]
      simp only [hb, hkept, List.length_cons] at hpending ⊢
      omega
    · have hkept : p.acquire.render = p.render := by rw [e]
      simp only [hb, hkept, List.length_cons] at hpending ⊢
      omega

/-- A step that is not the last brings the end of the run nearer. -/
theorem step_stepsLeft {s t : State} (h : step s = .next t) (hc : ¬ s.consumed) :
    t.port.stepsLeft < s.port.stepsLeft := by
  obtain ⟨rs, hport⟩ := step_port h
  rw [hport]
  exact Port.fetch_stepsLeft hc

/-- A step sends as many responses as it takes commands: one or none (30_encoding R110). -/
theorem step_replies_length {s t : State} (h : step s = .next t) :
    t.port.replies.length = s.port.replies.length + s.port.fetch.1.toList.length := by
  rcases hf : s.port.fetch with ⟨_ | fr, port⟩
  · rw [step_of_no_command hf] at h
    cases h
    rw [(idlePortKeepsBlock.1 s port hf).2]
    rfl
  · obtain ⟨header, payload, hport, -⟩ := oneResponsePerCommand s t fr port hf h
    rw [hport]
    exact List.length_append

/-- Every command of the port is one to come or has had its response, and no step changes their number. -/
theorem step_replies_pending {s t : State} (h : step s = .next t) :
    t.port.replies.length + t.port.pending = s.port.replies.length + s.port.pending := by
  obtain ⟨rs, hport⟩ := step_port h
  have hpending : t.port.pending = s.port.fetch.2.pending := by rw [hport]; rfl
  rw [step_replies_length h, hpending, ← s.port.fetch_pending]
  omega

/-- A run of a legal block comes to its end, legal all along, with one response to each command: by induction on the
steps left (70 R355). -/
theorem run_ends {s : State} (hs : s.Legal) : ∃ ts : List State, s.runEnded ts ∧ (∀ t ∈ ts, t.Legal) ∧
    (s.lastOf ts).port.replies.length = s.port.replies.length + s.port.pending := by
  induction hn : s.port.stepsLeft using Nat.strong_induction_on generalizing s with
  | _ n ih =>
  subst hn
  by_cases hc : s.consumed
  · have hpending : s.port.pending = 0 := by simp [Port.pending, hc]
    exact ⟨[], ⟨trivial, hc⟩, by simp, by rw [hpending]; rfl⟩
  · obtain ⟨t, ht⟩ := step_of_legal hs
    have hlegal := step_keeps_legal hs ht
    obtain ⟨ts, ⟨hruns, hend⟩, hall, hreplies⟩ := ih _ (step_stepsLeft ht hc) hlegal rfl
    have hlast : s.lastOf (t :: ts) = t.lastOf ts := List.getLastD_cons ..
    refine ⟨t :: ts, ⟨⟨ht, hruns⟩, ?_⟩, List.forall_mem_cons.2 ⟨hlegal, hall⟩, ?_⟩
    · rw [hlast]
      exact hend
    · rw [hlast, hreplies, step_replies_pending ht]

/-- Settles O14: a legal block steps to a legal one, and the steps left of its port come to none. -/
theorem legalBlockNeverStops : Obligations.LegalBlockNeverStops := by
  intro s hs
  obtain ⟨t, ht⟩ := step_of_legal hs
  exact ⟨⟨t, ht, step_keeps_legal hs ht⟩, run_ends hs⟩

end Sys2Proof.Machine
end

section
/-! PROOFS. O25: RESET runs the reset sequence in every block, and once more changes nothing (70 R340, R343). -/

namespace Sys2Proof.Machine

/-- RESET is executed halted or not: the reset sequence and header 0x00 (40 R141; 60_exceptions R301, R309). -/
theorem exec_reset (s : State) : exec .reset s = .next (s.resetSequence.reply okHeader []) :=
  exec_of_runs (.inl rfl)

/-- The reset sequence reads the configuration only, so blocks of one configuration are the same after it (70 R340). -/
theorem State.resetSequence_sameBlock {s t : State} (h : t.cfg = s.cfg) :
    s.resetSequence.sameBlock t.resetSequence := by
  unfold State.resetSequence
  rw [h]
  exact ⟨rfl, rfl, rfl, rfl⟩

/-- Settles O25: the block is the reset state of its configuration, whose values O23 gives, and the second RESET starts
from the same configuration. -/
theorem resetCompletes : Obligations.ResetCompletes := by
  intro s
  have := Classical.dec s.cfg.toParams.legal
  obtain ⟨-, hosc, hmix, -, -, -, -, hempty⟩ := resetValues.1 s.cfg _ rfl
  exact ⟨_, exec_reset s, rfl, hosc, hmix, rfl, State.resetOf_table_zero s.cfg, hempty, rfl,
    _, exec_reset _, State.resetSequence_sameBlock (s := s) rfl⟩

end Sys2Proof.Machine
end
